-- ==== Sys2Proof/Word.lean ====
section
/-! DEFINITION. The word types of the block and the one truncation of 00_scope.md R10: arithmetic is exact, on unbounded
integers, and a value is cut to its width only when it is written into a register or an output field. -/

namespace Sys2Proof

/-- One byte of a byte transport (20_memory.md R63), and the width of the byte a packet carries (R8). -/
abbrev Byte := BitVec 8

/-- A header word (30_encoding.md R80). -/
abbrev Word32 := BitVec 32

/-- A payload word, and a register as the host reads it (30_encoding.md R80, 20_memory.md R64). -/
abbrev Word64 := BitVec 64

/-- A sample number on the host's timeline (20_memory.md R61). -/
abbrev Sample := BitVec 64

/-- `trunc_64` of an exact integer (00_scope.md R10). -/
def trunc64 (v : Int) : Word64 := BitVec.ofInt 64 v

end Sys2Proof
end

