-- ==== Sys2Proof/Syntax.lean ====
section
/-! DEFINITION. The transactions of the block as syntax: one constructor of `Instr` per row of spec/opcode_table.json, and the
plain data they are made of (registers, kinds, records, a transaction as words). -/

namespace Sys2Proof

/-- The registers that a host transaction can name (30_encoding.md R86). -/
inductive Reg where
  | bitrate | samplerate | ctrl | syncbits | startSample | startLevel
  | halfbit | tol | rsync | status | synccount | pktseq | cursample | curlevel
  deriving DecidableEq, Repr

/-- The frame kinds of 30_encoding.md R84. -/
inductive FrameKind where
  | sync | start | data | stop
  deriving DecidableEq, Repr

/-- The marker kinds of 30_encoding.md R85. -/
inductive MarkerKind where
  | one | zero | start | stop | errorDot
  deriving DecidableEq, Repr

/-- An output record (46_output_records.md R240), with the fields that R241, R244, R246, R247 and R248 give it. -/
inductive Record where
  | frame (kind : FrameKind) (startSample endSample : Sample) (primary secondary : Word64) (flags : Word32)
  | marker (kind : MarkerKind) (sample : Sample)
  | commit
  | progress (sample : Sample)
  | regValue (reg : Reg) (value : Word64)
  deriving DecidableEq, Repr

/-- A transaction as words: one header and its payload (30_encoding.md R80). A transport delivers it whole (20_memory.md R64). -/
structure Transaction where
  header : Word32
  payload : List Word64
  deriving DecidableEq, Repr

/-- What can arrive from outside between two steps: a host transaction, or hardware reset (42_edge_input.md R160,
70_reset_and_hazards.md R290). -/
inductive HostEvent where
  | transaction (t : Transaction)
  | reset
  deriving DecidableEq, Repr

/-- The eleven opcodes of 30_encoding.md R82. -/
inductive Opcode where
  | cfgWrite | regRead | start | cancel | edge | quiet
  | frame | marker | commit | progress | regValue
  deriving DecidableEq, Repr

/-- The 18 rows of spec/opcode_table.json. The first six are host commands, the other twelve output records (30_encoding.md R82).
A register operand is the raw number of ARG: R101 and R102 say what an unfit number does. -/
inductive Instr where
  | cfgWrite (reg : BitVec 8) (value : Word64)
  | regRead (reg : BitVec 8)
  | start
  | cancel
  | edge (sample : Sample)
  | quiet (horizon : Sample)
  | frameSync (startSample endSample : Sample) (primary secondary : Word64) (flags : Word32)
  | frameStart (startSample endSample : Sample) (primary secondary : Word64) (flags : Word32)
  | frameData (startSample endSample : Sample) (primary secondary : Word64) (flags : Word32)
  | frameStop (startSample endSample : Sample) (primary secondary : Word64) (flags : Word32)
  | markerOne (sample : Sample)
  | markerZero (sample : Sample)
  | markerStart (sample : Sample)
  | markerStop (sample : Sample)
  | markerErrorDot (sample : Sample)
  | commit
  | progress (sample : Sample)
  | regValue (reg : BitVec 8) (value : Word64)
  deriving DecidableEq, Repr

end Sys2Proof
end

