-- ==== Sys2Proof/Machine/RegMap.lean ====
section
/-! DEFINITION. The register numbers and access rights of 30_encoding.md R86. -/

namespace Sys2Proof.Machine

/-- The number of a register (30_encoding.md R86). -/
def regNumber : Reg → BitVec 8
  | .bitrate => 0x00#8
  | .samplerate => 0x01#8
  | .ctrl => 0x02#8
  | .syncbits => 0x03#8
  | .startSample => 0x04#8
  | .startLevel => 0x05#8
  | .halfbit => 0x10#8
  | .tol => 0x11#8
  | .rsync => 0x12#8
  | .status => 0x13#8
  | .synccount => 0x14#8
  | .pktseq => 0x15#8
  | .cursample => 0x16#8
  | .curlevel => 0x17#8

/-- Every register, in the order of R86. -/
def allRegs : List Reg :=
  [.bitrate, .samplerate, .ctrl, .syncbits, .startSample, .startLevel, .halfbit, .tol, .rsync, .status, .synccount, .pktseq,
    .cursample, .curlevel]

/-- The register of a number; `none` for an unassigned number (R86). -/
def regOfNumber (n : BitVec 8) : Option Reg := allRegs.find? fun r => regNumber r == n

/-- The registers that R86 marks RW. -/
def regWritable : Reg → Bool
  | .bitrate | .samplerate | .ctrl | .syncbits | .startSample | .startLevel => true
  | .halfbit | .tol | .rsync | .status | .synccount | .pktseq | .cursample | .curlevel => false

end Sys2Proof.Machine
end

