-- ==== Sys2Proof/WellFormed.lean ====
section
/-! DEFINITION. Which terms of `Instr` stand for a well-formed transaction (30_encoding.md R88 for commands, R89 for records). The
types already rule out every other malformation: RSV and a fixed ARG are not operands, and the payload is typed. -/

namespace Sys2Proof

/-- ARG fits the opcode: CFG_WRITE names a writable register, REG_READ and REG_VALUE an assigned one (30_encoding.md R88, R89). -/
def Instr.wellFormed : Instr → Bool
  | .cfgWrite reg _ => (Machine.regOfNumber reg).any Machine.regWritable
  | .regRead reg => (Machine.regOfNumber reg).isSome
  | .regValue reg _ => (Machine.regOfNumber reg).isSome
  | .start | .cancel | .edge _ | .quiet _ => true
  | .frameSync _ _ _ _ _ | .frameStart _ _ _ _ _ | .frameData _ _ _ _ _ | .frameStop _ _ _ _ _ => true
  | .markerOne _ | .markerZero _ | .markerStart _ | .markerStop _ | .markerErrorDot _ => true
  | .commit | .progress _ => true

/-- The six rows whose direction is host to block (30_encoding.md R82). -/
def Instr.isHostCommand : Instr → Bool
  | .cfgWrite _ _ | .regRead _ | .start | .cancel | .edge _ | .quiet _ => true
  | .frameSync _ _ _ _ _ | .frameStart _ _ _ _ _ | .frameData _ _ _ _ _ | .frameStop _ _ _ _ _ => false
  | .markerOne _ | .markerZero _ | .markerStart _ | .markerStop _ | .markerErrorDot _ => false
  | .commit | .progress _ | .regValue _ _ => false

end Sys2Proof
end

