-- ==== Sys2Proof/Decode.lean ====
section
/-! DEFINITION. From words and bytes to transactions, and back (30_encoding.md R80 to R92, 20_memory.md R63). The decoder is total
and names what it rejects. -/

namespace Sys2Proof

open Machine (regOfNumber regNumber regWritable)

/-! ## Header fields (30_encoding.md R81) -/

/-- OPC, bits 31:24. -/
def headerOpc (h : Word32) : BitVec 8 := h.extractLsb' 24 8

/-- ARG, bits 23:16. -/
def headerArg (h : Word32) : BitVec 8 := h.extractLsb' 16 8

/-- RSV, bits 15:0. -/
def headerRsv (h : Word32) : BitVec 16 := h.extractLsb' 0 16

/-- A header with RSV = 0. -/
def makeHeader (opc arg : BitVec 8) : Word32 := opc ++ arg ++ 0#16

/-! ## The opcode map (30_encoding.md R82), frame kinds (R84) and marker kinds (R85) -/

/-- The OPC value of an opcode (R82). -/
def opcodeByte : Opcode → BitVec 8
  | .cfgWrite => 0x01#8
  | .regRead => 0x02#8
  | .start => 0x03#8
  | .cancel => 0x04#8
  | .edge => 0x05#8
  | .quiet => 0x06#8
  | .frame => 0x81#8
  | .marker => 0x82#8
  | .commit => 0x83#8
  | .progress => 0x84#8
  | .regValue => 0x85#8

/-- Every opcode, in the order of R82. -/
def allOpcodes : List Opcode :=
  [.cfgWrite, .regRead, .start, .cancel, .edge, .quiet, .frame, .marker, .commit, .progress, .regValue]

/-- The opcode of an OPC value; `none` for a reserved one (R90). -/
def opcodeOfByte (b : BitVec 8) : Option Opcode := allOpcodes.find? fun o => opcodeByte o == b

/-- How many payload words follow the header (R82, R87). -/
def payloadCount : Opcode → Nat
  | .regRead | .start | .cancel | .commit => 0
  | .cfgWrite | .edge | .quiet | .marker | .progress | .regValue => 1
  | .frame => 5

/-- The opcodes whose direction is host to block (R82). -/
def opcodeIsCommand : Opcode → Bool
  | .cfgWrite | .regRead | .start | .cancel | .edge | .quiet => true
  | .frame | .marker | .commit | .progress | .regValue => false

/-- The kind code of a frame (R84). -/
def frameKindCode : FrameKind → BitVec 8
  | .sync => 0#8
  | .start => 1#8
  | .data => 2#8
  | .stop => 3#8

/-- The kind code of a marker (R85). -/
def markerKindCode : MarkerKind → BitVec 8
  | .one => 0#8
  | .zero => 1#8
  | .start => 2#8
  | .stop => 3#8
  | .errorDot => 4#8

/-- The frame kind of a code; `none` for codes 4 to 255 (R84). -/
def frameKindOfCode (c : BitVec 8) : Option FrameKind :=
  [FrameKind.sync, .start, .data, .stop].find? fun k => frameKindCode k == c

/-- The marker kind of a code; `none` for codes 5 to 255 (R85). -/
def markerKindOfCode (c : BitVec 8) : Option MarkerKind :=
  [MarkerKind.one, .zero, .start, .stop, .errorDot].find? fun k => markerKindCode k == c

/-! ## Records and rows -/

/-- The row of a frame of a kind (R82: FRAME has four rows, one per kind). -/
def frameInstr (k : FrameKind) (startSample endSample : Sample) (primary secondary : Word64) (flags : Word32) : Instr :=
  match k with
  | .sync => .frameSync startSample endSample primary secondary flags
  | .start => .frameStart startSample endSample primary secondary flags
  | .data => .frameData startSample endSample primary secondary flags
  | .stop => .frameStop startSample endSample primary secondary flags

/-- The row of a marker of a kind (R82: MARKER has five rows, one per kind). -/
def markerInstr (k : MarkerKind) (sample : Sample) : Instr :=
  match k with
  | .one => .markerOne sample
  | .zero => .markerZero sample
  | .start => .markerStart sample
  | .stop => .markerStop sample
  | .errorDot => .markerErrorDot sample

/-- The transaction that carries a record to the sink (R82 to R86). -/
def recordInstr : Record → Instr
  | .frame k startSample endSample primary secondary flags => frameInstr k startSample endSample primary secondary flags
  | .marker k sample => markerInstr k sample
  | .commit => .commit
  | .progress sample => .progress sample
  | .regValue reg value => .regValue (regNumber reg) value

/-! ## Decoding (30_encoding.md R87, R88) -/

/-- Why a transaction is no well-formed one. The block shows none of these names: each is the malformed transaction of R92. Which
name stands where several hold is this decoder's own order (notes/assumptions/14.md). -/
inductive DecodeError where
  /-- OPC is reserved (R90). -/
  | reservedOpcode (opc : BitVec 8)
  /-- RSV is not 0 (R88, R89). -/
  | reservedBitsSet (rsv : BitVec 16)
  /-- The payload has another word count than the opcode's (R64, R88). -/
  | wrongPayloadCount (expected found : Nat)
  /-- ARG is not 0 where it must be (R88, R89). -/
  | argNotZero (arg : BitVec 8)
  /-- CFG_WRITE to a number that is no writable register (R86, R88). -/
  | registerNotWritable (number : BitVec 8)
  /-- A number that is no register (R86, R88, R89). -/
  | registerUnassigned (number : BitVec 8)
  /-- A kind code outside R84 or R85. -/
  | unknownKind (code : BitVec 8)
  /-- Bits 63:32 of a FRAME's fifth word are not 0 (R83). -/
  | flagsTooWide (word : Word64)
  /-- Bytes that are no whole number of words: a transaction that cannot exist (R64). -/
  | partialTransaction (bytes : Nat)
  deriving DecidableEq, Repr

/-- CFG_WRITE (R82, R88). -/
def decodeCfgWrite (arg : BitVec 8) (v : Word64) : Except DecodeError Instr :=
  if (regOfNumber arg).any regWritable then .ok (.cfgWrite arg v) else .error (.registerNotWritable arg)

/-- A row whose ARG must name an assigned register (R88, R89). -/
def decodeWithReg (arg : BitVec 8) (i : Instr) : Except DecodeError Instr :=
  if (regOfNumber arg).isSome then .ok i else .error (.registerUnassigned arg)

/-- A row whose ARG must be 0 (R88, R89). -/
def decodeWithoutArg (arg : BitVec 8) (i : Instr) : Except DecodeError Instr :=
  if arg = 0#8 then .ok i else .error (.argNotZero arg)

/-- FRAME: the kind in ARG, five words, the fifth holding 32 bits (R83, R84). -/
def decodeFrame (arg : BitVec 8) (startSample endSample : Sample) (primary secondary flags : Word64) : Except DecodeError Instr :=
  match frameKindOfCode arg with
  | none => .error (.unknownKind arg)
  | some k =>
    if flags.extractLsb' 32 32 = 0#32 then .ok (frameInstr k startSample endSample primary secondary (flags.extractLsb' 0 32))
    else .error (.flagsTooWide flags)

/-- MARKER: the kind in ARG, one word (R83, R85). -/
def decodeMarker (arg : BitVec 8) (sample : Sample) : Except DecodeError Instr :=
  match markerKindOfCode arg with
  | none => .error (.unknownKind arg)
  | some k => .ok (markerInstr k sample)

/-- The payload of an opcode, read against its word count (R82, R87). -/
def decodePayload (op : Opcode) (arg : BitVec 8) (payload : List Word64) : Except DecodeError Instr :=
  match op, payload with
  | .cfgWrite, [v] => decodeCfgWrite arg v
  | .regRead, [] => decodeWithReg arg (.regRead arg)
  | .start, [] => decodeWithoutArg arg .start
  | .cancel, [] => decodeWithoutArg arg .cancel
  | .edge, [s] => decodeWithoutArg arg (.edge s)
  | .quiet, [h] => decodeWithoutArg arg (.quiet h)
  | .frame, [a, b, p, q, f] => decodeFrame arg a b p q f
  | .marker, [s] => decodeMarker arg s
  | .commit, [] => decodeWithoutArg arg .commit
  | .progress, [s] => decodeWithoutArg arg (.progress s)
  | .regValue, [v] => decodeWithReg arg (.regValue arg v)
  | op, payload => .error (.wrongPayloadCount (payloadCount op) payload.length)

/-- The decoder: a transaction is exactly one well-formed row, or rejected by name (R88, R89, R90). -/
def decode (t : Transaction) : Except DecodeError Instr :=
  match opcodeOfByte (headerOpc t.header) with
  | none => .error (.reservedOpcode (headerOpc t.header))
  | some op =>
    if headerRsv t.header = 0#16 then decodePayload op (headerArg t.header) t.payload
    else .error (.reservedBitsSet (headerRsv t.header))

/-- The four classes of R88. -/
inductive TransactionClass where
  | wellFormedCommand | malformedCommand | outputRecord | reserved
  deriving DecidableEq, Repr

/-- R88, in its own order: an output opcode first, then a command, else reserved. -/
def classOfTransaction (t : Transaction) : TransactionClass :=
  match opcodeOfByte (headerOpc t.header) with
  | none => .reserved
  | some op =>
    if opcodeIsCommand op then
      match decode t with
      | .ok _ => .wellFormedCommand
      | .error _ => .malformedCommand
    else .outputRecord

/-! ## Encoding -/

/-- A transaction with an opcode, ARG and payload, RSV = 0 (R81). -/
def makeTransaction (op : Opcode) (arg : BitVec 8) (payload : List Word64) : Transaction :=
  { header := makeHeader (opcodeByte op) arg, payload := payload }

/-- A FRAME: five words, the fifth `zext_64(flags)` (R83). -/
def encodeFrame (k : FrameKind) (startSample endSample : Sample) (primary secondary : Word64) (flags : Word32) : Transaction :=
  makeTransaction .frame (frameKindCode k) [startSample, endSample, primary, secondary, flags.setWidth 64]

/-- A MARKER: one word (R83). -/
def encodeMarker (k : MarkerKind) (sample : Sample) : Transaction :=
  makeTransaction .marker (markerKindCode k) [sample]

/-- The words of a row (R81 to R86). -/
def encode : Instr → Transaction
  | .cfgWrite reg value => makeTransaction .cfgWrite reg [value]
  | .regRead reg => makeTransaction .regRead reg []
  | .start => makeTransaction .start 0#8 []
  | .cancel => makeTransaction .cancel 0#8 []
  | .edge sample => makeTransaction .edge 0#8 [sample]
  | .quiet horizon => makeTransaction .quiet 0#8 [horizon]
  | .frameSync a b p q f => encodeFrame .sync a b p q f
  | .frameStart a b p q f => encodeFrame .start a b p q f
  | .frameData a b p q f => encodeFrame .data a b p q f
  | .frameStop a b p q f => encodeFrame .stop a b p q f
  | .markerOne sample => encodeMarker .one sample
  | .markerZero sample => encodeMarker .zero sample
  | .markerStart sample => encodeMarker .start sample
  | .markerStop sample => encodeMarker .stop sample
  | .markerErrorDot sample => encodeMarker .errorDot sample
  | .commit => makeTransaction .commit 0#8 []
  | .progress sample => makeTransaction .progress 0#8 [sample]
  | .regValue reg value => makeTransaction .regValue reg [value]

/-! ## Bytes on a transport (20_memory.md R63) -/

/-- The `n` low bytes of a number, least significant first. -/
def littleEndian : Nat → Nat → List Byte
  | 0, _ => []
  | n + 1, v => BitVec.ofNat 8 v :: littleEndian n (v / 256)

/-- The number that bytes stand for, least significant first. -/
def ofLittleEndian : List Byte → Nat
  | [] => 0
  | b :: rest => b.toNat + 256 * ofLittleEndian rest

/-- A transaction as bytes: the header word, then the payload words, each least significant byte first (R63). -/
def transactionBytes (t : Transaction) : List Byte :=
  littleEndian 4 t.header.toNat ++ t.payload.flatMap fun w => littleEndian 8 w.toNat

/-- Payload bytes as whole 64-bit words; `none` if the last word is not whole. -/
def payloadOfBytes : List Byte → Option (List Word64)
  | [] => some []
  | b0 :: b1 :: b2 :: b3 :: b4 :: b5 :: b6 :: b7 :: rest =>
    (payloadOfBytes rest).map (BitVec.ofNat 64 (ofLittleEndian [b0, b1, b2, b3, b4, b5, b6, b7]) :: ·)
  | _ :: _ => none

/-- Bytes as a transaction; `none` for a partial transaction, which cannot exist (R64). -/
def transactionOfBytes : List Byte → Option Transaction
  | b0 :: b1 :: b2 :: b3 :: rest =>
    (payloadOfBytes rest).map fun p => { header := BitVec.ofNat 32 (ofLittleEndian [b0, b1, b2, b3]), payload := p }
  | _ => none

/-- The decoder on any bytes. -/
def decodeBytes (bytes : List Byte) : Except DecodeError Instr :=
  match transactionOfBytes bytes with
  | none => .error (.partialTransaction bytes.length)
  | some t => decode t

/-! ## The opcode table's numbering of bits -/

/-- The transaction whose bits are `w`: bit 0 is the header's bit 0, payload words follow from bit 32 on, and every bit at or above
`nbits` is 0. The payload has as many words as the opcode asks for (R87); a reserved opcode has none. -/
def transactionOfTableWord (nbits w : Nat) : Transaction :=
  let bits := w % 2 ^ nbits
  let header := BitVec.ofNat 32 bits
  let count := match opcodeOfByte (headerOpc header) with
    | some op => payloadCount op
    | none => 0
  { header := header, payload := (List.range count).map fun k => BitVec.ofNat 64 (bits >>> (32 + 64 * k)) }

/-- The instruction that the decoder reads from the bytes of a table word. -/
def decodeTableWord (nbits w : Nat) : Option Instr :=
  (decodeBytes (transactionBytes (transactionOfTableWord nbits w))).toOption

end Sys2Proof
end

