-- ==== Sys2Proof/Config.lean ====
section
/-! DEFINITION. What the spec leaves free. The block's parameters (00_scope.md R8) are all fixed by the spec and stand beside the
operations that use them (Machine/Timing.lean, Machine/StopDetect.lean). The one value without a stated result is below. -/

namespace Sys2Proof

/-- FREE VALUE (DESIGN CHOICE, notes/assumptions/6.md, safe). The bit-rate estimate of 43_preamble_scan.md R179 divides by
`L5_START - RUN_START`, and R10 says that a divisor of 0 is never reached. In a state where `RUN_START` is not below `L5_START`
the spec states no quotient; this constant has no body, so no proof can use a value of it. Arguments: `SR_L`, the number of sync
bits, `L5_START`, `RUN_START`. -/
opaque Config.rateWithoutRun : BitVec 32 → Nat → Sample → Sample → Word64

end Sys2Proof
end

