-- ==== Sys2Proof/Machine/State.lean ====
section
/-! DEFINITION. The state of the block (10_state.md R20 to R46), its value after reset (R48), and the two reason types of a stop.
A register with reserved bits is kept as its defined fields: reserved bits ignore writes and read 0 (R21 to R37), and
Machine/Operands.lean builds the 64-bit word a host reads. -/

namespace Sys2Proof.Machine

/-- A signal level (00_scope.md R11). -/
inductive Level where
  /-- LOW = 0. -/
  | low
  /-- HIGH = 1. -/
  | high
  deriving DecidableEq, Repr

/-- The phases of 10_state.md R32, in the order of their codes. -/
inductive Phase where
  | scan | startNext | startHalf | bitFirst | bitSecond | stopFirst | stopSecond | stopProbe
  deriving DecidableEq, Repr

/-- Which side of the interface drives the transaction being performed. The MODEL's own (notes/assumptions/3.md): it tells the
emission of an output record (by the block) from the same words sent by the host (30_encoding.md R91). -/
inductive Issuer where
  | host | block
  deriving DecidableEq, Repr

/-- The whole state of the block. -/
structure State where
  /-- BITRATE.RATE (R21). -/
  bitrate : BitVec 32
  /-- SAMPLERATE.RATE (R22). -/
  samplerate : BitVec 32
  /-- CTRL.INVERTED (R23). -/
  inverted : Bool
  /-- CTRL.TOLSEL (R23). -/
  tolsel : BitVec 2
  /-- SYNCBITS.REQ (R24). -/
  syncbits : BitVec 16
  /-- START_SAMPLE (R25). -/
  startSample : Sample
  /-- START_LEVEL.LEVEL (R26). -/
  startLevel : Level
  /-- HALFBIT, the half-bit period T (R27). -/
  halfbit : BitVec 32
  /-- TOL, the tolerance (R28). -/
  tol : BitVec 32
  /-- RSYNC (R29). -/
  rsync : BitVec 16
  /-- INV_L, the latched polarity (R38). -/
  invL : Bool
  /-- SR_L, the latched sample rate (R38). -/
  srL : BitVec 32
  /-- STATUS.RUNNING (R30). -/
  running : Bool
  /-- STATUS.BAD_CMD (R30). -/
  badCmd : Bool
  /-- STATUS.ORDER_ERR (R30). -/
  orderErr : Bool
  /-- STATUS.CFG_ERR (R30). -/
  cfgErr : Bool
  /-- STATUS.PHASE (R32). -/
  phase : Phase
  /-- STATUS.BITIDX (R33). -/
  bitidx : BitVec 4
  /-- SYNCCOUNT (R34). -/
  synccount : BitVec 32
  /-- PKTSEQ (R35). -/
  pktseq : Word64
  /-- CURSAMPLE (R36). -/
  cursample : Sample
  /-- CURLEVEL (R37). -/
  curlevel : Level
  /-- RUN_START (R39). -/
  runStart : Sample
  /-- L5_START (R40). -/
  l5Start : Sample
  /-- BYTE_START (R41). -/
  byteStart : Sample
  /-- BYTE_ACC (R41). -/
  byteAcc : Byte
  /-- LAST_DATA_END (R42). -/
  lastDataEnd : Sample
  /-- PROBE_BASE (R43). -/
  probeBase : Sample
  /-- NEXT_VALID (R44). -/
  nextValid : Bool
  /-- NEXT_SAMPLE (R44). -/
  nextSample : Sample
  /-- HORIZON (R45). -/
  horizon : Sample
  /-- OUT, oldest record first (R46). -/
  out : List Record
  /-- The MODEL's own (notes/assumptions/1.md): what the host sends next, oldest first. The spec's block is handed one transaction
  at a time; a step here is a function of the state alone, so the transactions to come stand in it. -/
  input : List HostEvent
  /-- The MODEL's own (notes/assumptions/3.md): who drives the transaction being performed. -/
  issuer : Issuer
  deriving DecidableEq, Repr

/-- The block after hardware reset: every value of R48 (70_reset_and_hazards.md R290), with nothing sent by the host yet. -/
def State.reset : State where
  bitrate := 0#32
  samplerate := 0#32
  inverted := false
  tolsel := 0#2
  syncbits := 0#16
  startSample := 0#64
  startLevel := .low
  halfbit := 0#32
  tol := 0#32
  rsync := 0#16
  invL := false
  srL := 0#32
  running := false
  badCmd := false
  orderErr := false
  cfgErr := false
  phase := .scan
  bitidx := 0#4
  synccount := 0#32
  pktseq := 0#64
  cursample := 0#64
  curlevel := .low
  runStart := 0#64
  l5Start := 0#64
  byteStart := 0#64
  byteAcc := 0#8
  lastDataEnd := 0#64
  probeBase := 0#64
  nextValid := false
  nextSample := 0#64
  horizon := 0#64
  out := []
  input := []
  issuer := .host

/-- The reasons a step stops with a fault: there is none. Every error of the spec (60_exceptions.md R260) has an effect the spec
describes, and the block goes on or waits. Safe: no behaviour is cut off. -/
inductive Fault where
  deriving DecidableEq, Repr

/-- The reasons a step is refused. -/
inductive Refusal where
  /-- An instruction without a meaning, raised by an arm of `exec` only. No arm raises it: every row has its meaning. Safe. -/
  | notModelled (mnemonic : String)
  deriving DecidableEq, Repr

end Sys2Proof.Machine
end

