-- ==== Sys2Proof/Machine/Flags.lean ====
section
/-! DEFINITION. The STATUS register (10_state.md R30 to R33): the code of a phase, `DecoderState`, and the 64-bit word a host reads. -/

namespace Sys2Proof.Machine

/-- The code of a phase (10_state.md R32). -/
def phaseCode : Phase → BitVec 3
  | .scan => 0#3
  | .startNext => 1#3
  | .startHalf => 2#3
  | .bitFirst => 3#3
  | .bitSecond => 4#3
  | .stopFirst => 5#3
  | .stopSecond => 6#3
  | .stopProbe => 7#3

/-- The phases that read as Synchronized (10_state.md R31). -/
def phaseIsSynced : Phase → Bool
  | .scan | .startNext | .startHalf => false
  | .bitFirst | .bitSecond | .stopFirst | .stopSecond | .stopProbe => true

/-- STATUS.SYNCED, the `DecoderState`: derived, not stored (10_state.md R31). -/
def synced (s : State) : Bool := s.running && phaseIsSynced s.phase

/-- STATUS as a host reads it: bit 0 RUNNING, 1 SYNCED, 2 BAD_CMD, 3 ORDER_ERR, 4 CFG_ERR, 10:8 PHASE, 15:12 BITIDX, every other
bit 0 (10_state.md R30). -/
def statusWord (s : State) : Word64 :=
  0#48 ++ s.bitidx ++ 0#1 ++ phaseCode s.phase ++ 0#3 ++ BitVec.ofBool s.cfgErr ++ BitVec.ofBool s.orderErr
    ++ BitVec.ofBool s.badCmd ++ BitVec.ofBool (synced s) ++ BitVec.ofBool s.running

end Sys2Proof.Machine
end

