-- ==== Sys2Proof/Machine/Operands.lean ====
section
/-! DEFINITION. The register operands: what a register reads as, what a write to it stores (10_state.md R21 to R37), and the
level of a signal as a bit (00_scope.md R11). -/

namespace Sys2Proof.Machine

/-- `not L` (00_scope.md R11). -/
def otherLevel : Level → Level
  | .low => .high
  | .high => .low

/-- LOW = 0, HIGH = 1 (00_scope.md R11). -/
def levelBit : Level → Bool
  | .low => false
  | .high => true

/-- The level of a bit (00_scope.md R11). -/
def levelOfBit : Bool → Level
  | false => .low
  | true => .high

/-- ONE_LEVEL, the level that encodes a data bit of 1: LOW when the latched polarity is 0, HIGH when it is 1 (00_scope.md R11). -/
def oneLevel (s : State) : Level := levelOfBit s.invL

/-- The full 64-bit value of a register, reserved bits 0 (40_control.md R102, 10_state.md R21 to R37). -/
def readReg (r : Reg) (s : State) : Word64 :=
  match r with
  | .bitrate => s.bitrate.setWidth 64
  | .samplerate => s.samplerate.setWidth 64
  | .ctrl => 0#61 ++ s.tolsel ++ BitVec.ofBool s.inverted
  | .syncbits => s.syncbits.setWidth 64
  | .startSample => s.startSample
  | .startLevel => 0#63 ++ BitVec.ofBool (levelBit s.startLevel)
  | .halfbit => s.halfbit.setWidth 64
  | .tol => s.tol.setWidth 64
  | .rsync => s.rsync.setWidth 64
  | .status => statusWord s
  | .synccount => s.synccount.setWidth 64
  | .pktseq => s.pktseq
  | .cursample => s.cursample
  | .curlevel => 0#63 ++ BitVec.ofBool (levelBit s.curlevel)

/-- A host's write of a register: the defined bits of a configuration register take the value, reserved bits are dropped (10_state.md
R21 to R26, 40_control.md R101). `none` for a register that R86 marks RO. -/
def writeReg (r : Reg) (v : Word64) (s : State) : Option State :=
  match r with
  | .bitrate => some { s with bitrate := v.extractLsb' 0 32 }
  | .samplerate => some { s with samplerate := v.extractLsb' 0 32 }
  | .ctrl => some { s with inverted := v.getLsbD 0, tolsel := v.extractLsb' 1 2 }
  | .syncbits => some { s with syncbits := v.extractLsb' 0 16 }
  | .startSample => some { s with startSample := v }
  | .startLevel => some { s with startLevel := levelOfBit (v.getLsbD 0) }
  | .halfbit | .tol | .rsync | .status | .synccount | .pktseq | .cursample | .curlevel => none

end Sys2Proof.Machine
end

