-- ==== Sys2Proof/Machine/Ops.lean ====
section
/-! DEFINITION. The shared operations: records (46_output_records.md), the malformed transaction (30_encoding.md R92), the cursor
(42_edge_input.md R153), taking an error (60_exceptions.md R262 to R264), reset (70_reset_and_hazards.md R290) and fetching the
next host event. There is no return from an error: scanning goes on from the next EDGE (60_exceptions.md R270). -/

namespace Sys2Proof.Machine

/-! ## The output stream -/

/-- `emit R`: append a record to OUT (00_scope.md R12, 10_state.md R46). -/
def emit (r : Record) (s : State) : State := { s with out := s.out ++ [r] }

/-- The records of `emitFrame`: FRAME with flags 0, COMMIT, PROGRESS of the frame's end, with nothing between them
(46_output_records.md R243). -/
def frameRecords (k : FrameKind) (startSample endSample : Sample) (primary secondary : Word64) : List Record :=
  [.frame k startSample endSample primary secondary 0#32, .commit, .progress endSample]

/-! ## Malformed transactions -/

/-- The block discards a malformed transaction whole and sets BAD_CMD: no record, every other register unchanged (30_encoding.md
R92). -/
def discardMalformed (s : State) : State := { s with badCmd := true }

/-- An output-record transaction on the interface: the block's own is the emission of the record (46_output_records.md R240), the
host's is malformed (30_encoding.md R91). -/
def transmit (r : Record) (s : State) : State :=
  match s.issuer with
  | .block => emit r s
  | .host => discardMalformed s

/-! ## The cursor -/

/-- A measured interval: the transition that opens it (`p0`), its exact length (`d`), and the transition that closes it (`s`). -/
structure Interval where
  opened : Sample
  length : Int
  closed : Sample
  deriving DecidableEq, Repr

/-- The interval from the cursor to a transition (42_edge_input.md R153). The difference is exact (00_scope.md R10). -/
def intervalTo (e : Sample) (s : State) : Interval :=
  { opened := s.cursample, length := (e.toNat : Int) - (s.cursample.toNat : Int), closed := e }

/-- The cursor's move of `consume`: CURSAMPLE takes the transition, CURLEVEL inverts (42_edge_input.md R153). -/
def moveCursor (e : Sample) (s : State) : State := { s with cursample := e, curlevel := otherLevel s.curlevel }

/-! ## Taking an error -/

/-- The recovery that all three decode errors share: at most one marker, `SYNCCOUNT <- 0`, `phase <- SCAN`, nothing else
(60_exceptions.md R262 to R264, R270). -/
def recover (dots : List Record) (s : State) : State := { s with out := s.out ++ dots, synccount := 0#32, phase := .scan }

/-- `raise InvalidInterval(s)`: an ErrorDot at the offending transition (60_exceptions.md R262). -/
def raiseInvalidInterval (e : Sample) (s : State) : State := recover [.marker .errorDot e] s

/-- `raise StopVerify(PROBE_BASE)`: an ErrorDot at the probe base (60_exceptions.md R263). -/
def raiseStopVerify (s : State) : State := recover [.marker .errorDot s.probeBase] s

/-- `raise InvalidStart()`: silent (60_exceptions.md R264). -/
def raiseInvalidStart (s : State) : State := recover [] s

/-- The edge-order fault: ORDER_ERR set, the decoder stopped, the lookahead emptied, no record (42_edge_input.md R152). -/
def orderFault (s : State) : State := { s with orderErr := true, running := false, nextValid := false }

/-! ## Reset and the next host event -/

/-- Hardware reset: every value of 10_state.md R48, OUT empty. What the host has still to send is the host's, not the block's, and
stays (notes/assumptions/5.md). -/
def hardReset (s : State) : State := { State.reset with input := s.input }

/-- The next host event and the state in which it is performed: the event is taken from `input`, and the host drives the interface.
`none` when the host has sent nothing. -/
def fetch (s : State) : Option (HostEvent × State) :=
  match s.input with
  | [] => none
  | e :: rest => some (e, { s with input := rest, issuer := .host })

end Sys2Proof.Machine
end

