-- ==== Sys2Proof/Machine/Timing.lean ====
section
/-! DEFINITION. The Timing Model (40_control.md R103 to R105, R109): the half-bit period and the tolerance as a function of the bit
rate, the sample rate and the tolerance selector, with the checks START makes first. -/

namespace Sys2Proof.Machine

/-- The greatest legal bit rate (00_scope.md R8, 40_control.md R103). -/
def maxBitRate : Nat := 100000000

/-- The least ratio of sample rate to bit rate (00_scope.md R8, 40_control.md R103). -/
def minRateRatio : Nat := 8

/-- TOL_MIN, the least tolerance (00_scope.md R8, 40_control.md R105). -/
def tolMin : Nat := 3

/-- The preamble length in bits that an unset SYNCBITS stands for (00_scope.md R8, 10_state.md R24). -/
def defaultSyncBits : BitVec 16 := 16#16

/-- The two constants of the Timing Model (00_scope.md R3). -/
structure Timing where
  halfbit : BitVec 32
  tol : BitVec 32
  deriving DecidableEq, Repr

/-- The divisor of a tolerance selector: 25%, 5%, 0.5%; `none` for the reserved selector 3 (10_state.md R23, 40_control.md R105). -/
def tolDivisor (ts : BitVec 2) : Option Nat :=
  if ts = 0#2 then some 2
  else if ts = 1#2 then some 10
  else if ts = 2#2 then some 100
  else none

/-- T = round(sr / (2 br)), a tie rounded up (40_control.md R104). -/
def halfBitSamples (br sr : Nat) : Nat := (sr + br) / (2 * br)

/-- TOL = max(3, T div divisor) (40_control.md R105). -/
def toleranceSamples (t divisor : Nat) : Nat := max tolMin (t / divisor)

/-- The Timing Model, `none` for a configuration that START refuses (40_control.md R103, 60_exceptions.md R266). -/
def deriveTiming (br sr : BitVec 32) (ts : BitVec 2) : Option Timing :=
  match tolDivisor ts with
  | none => none
  | some divisor =>
    if br.toNat < 1 ∨ br.toNat > maxBitRate ∨ sr.toNat < minRateRatio * br.toNat then none
    else
      let t := halfBitSamples br.toNat sr.toNat
      some { halfbit := BitVec.ofNat 32 t, tol := BitVec.ofNat 32 (toleranceSamples t divisor) }

/-- The effective preamble length: 0 means unset (40_control.md R106). -/
def effectiveSyncBits (req : BitVec 16) : BitVec 16 := if req = 0#16 then defaultSyncBits else req

end Sys2Proof.Machine
end

