-- ==== Sys2Proof/Machine/Control.lean ====
section
/-! DEFINITION. The control family: CFG_WRITE, REG_READ, START and CANCEL (40_control.md R100 to R107). -/

namespace Sys2Proof.Machine

/-- CFG_WRITE (40_control.md R101): a number that is no writable register is the malformed command of 30_encoding.md R92. -/
def execCfgWrite (reg : BitVec 8) (value : Word64) (s : State) : Host.Outcome State Fault Refusal :=
  match (regOfNumber reg).bind fun r => writeReg r value s with
  | some t => .next t
  | none => .next (discardMalformed s)

/-- REG_READ (40_control.md R102): an unassigned number is the malformed command of 30_encoding.md R92. -/
def execRegRead (reg : BitVec 8) (s : State) : Host.Outcome State Fault Refusal :=
  match regOfNumber reg with
  | some r => .next (emit (.regValue r (readReg r s)) s)
  | none => .next (discardMalformed s)

/-- A run in progress is abandoned, with no output (40_control.md R103). -/
def abandonRun (s : State) : State := { s with running := false, nextValid := false }

/-- START, parts R104 to R106 of 40_control.md: the latches, the cursor, and the state machine's start condition. The configuration,
BAD_CMD, ORDER_ERR and OUT stay. -/
def beginRun (tm : Timing) (s : State) : State :=
  { s with
    halfbit := tm.halfbit
    tol := tm.tol
    invL := s.inverted
    srL := s.samplerate
    rsync := effectiveSyncBits s.syncbits
    cursample := s.startSample
    curlevel := s.startLevel
    horizon := s.startSample
    synccount := 0#32
    pktseq := 0#64
    bitidx := 0#4
    byteAcc := 0#8
    runStart := 0#64
    l5Start := 0#64
    byteStart := 0#64
    lastDataEnd := 0#64
    probeBase := 0#64
    nextValid := false
    nextSample := 0#64
    phase := .scan
    running := true }

/-- START (40_control.md R103 to R106): refused with CFG_ERR and nothing else changed, or the run begins with CFG_ERR cleared. -/
def execStart (s : State) : Host.Outcome State Fault Refusal :=
  match deriveTiming s.bitrate s.samplerate s.tolsel with
  | none => .next { abandonRun s with cfgErr := true }
  | some tm => .next (beginRun tm { abandonRun s with cfgErr := false })

/-- CANCEL (40_control.md R107): stops a running decoder; every other register keeps its value. -/
def execCancel (s : State) : Host.Outcome State Fault Refusal :=
  if s.running then .next (abandonRun s) else .next s

end Sys2Proof.Machine
end

