-- ==== Sys2Proof/Machine/Classifier.lean ====
section
/-! DEFINITION. The Edge Interval Classifier (41_classifier.md R130 to R135). -/

namespace Sys2Proof.Machine

/-- The four interval classes; `None` is the absence of one (41_classifier.md R130, R132). -/
inductive IntervalClass where
  | half | full | long4 | long5
  deriving DecidableEq, Repr

/-- The multiple k of a class (41_classifier.md R132). -/
def classMultiple : IntervalClass → Nat
  | .half => 1
  | .full => 2
  | .long4 => 4
  | .long5 => 5

/-- The classes by ascending k, the order of priority (41_classifier.md R132). -/
def classPriority : List IntervalClass := [.half, .full, .long4, .long5]

/-- `d` lies in the closed window of a class, compared exactly on integers (41_classifier.md R131). -/
def inWindow (t tol : Nat) (d : Int) (c : IntervalClass) : Bool :=
  decide ((classMultiple c * t : Int) - tol ≤ d ∧ d ≤ (classMultiple c * t : Int) + tol)

/-- `classify(d, S)`: the first class, by ascending k, that is a candidate and whose window holds `d` (41_classifier.md R134). -/
def classify (t tol : Nat) (d : Int) (candidates : List IntervalClass) : Option IntervalClass :=
  classPriority.find? fun c => candidates.contains c && inWindow t tol d c

/-- The candidate set of each calling phase (41_classifier.md R135). STOP_PROBE classifies nothing and has no row. -/
def candidates : Phase → List IntervalClass
  | .scan => [.half, .long5]
  | .startNext => [.long4, .long5]
  | .startHalf => [.half]
  | .bitFirst => [.half, .full]
  | .bitSecond => [.half]
  | .stopFirst => [.half, .full, .long4, .long5]
  | .stopSecond => [.half, .long4]
  | .stopProbe => []

/-- The class of an interval as a phase tests it, with the latched T and TOL (41_classifier.md R130). -/
def classifyIn (ph : Phase) (iv : Interval) (s : State) : Option IntervalClass :=
  classify s.halfbit.toNat s.tol.toNat iv.length (candidates ph)

end Sys2Proof.Machine
end

