-- ==== Sys2Proof/Machine/ByteDecode.lean ====
section
/-! DEFINITION. Byte decoding (44_byte_decode.md R201 to R208): reading one bit, the Data frame, and the EDGE rules of BIT_FIRST and
BIT_SECOND. -/

namespace Sys2Proof.Machine

/-- The value of a data bit: 1 exactly when the level reached is ONE_LEVEL (44_byte_decode.md R202). -/
def bitValue (s : State) : Bool := s.curlevel == oneLevel s

/-- `((BYTE_ACC << 1) | b)[7:0]`: the byte takes a bit at its least significant end (44_byte_decode.md R201, R203). -/
def shiftIn (acc : Byte) (b : Bool) : Byte := (acc ++ BitVec.ofBool b).extractLsb' 0 8

/-- `DATA_COMPLETE(s)`: the Data frame, LAST_DATA_END, and on to STOP detection (44_byte_decode.md R206). -/
def dataComplete (e : Sample) (s : State) : State :=
  let dataEnd := trunc64 ((e.toNat : Int) + s.halfbit.toNat)
  { s with
    out := s.out ++ frameRecords .data s.byteStart dataEnd (s.byteAcc.setWidth 64) 0#64
    lastDataEnd := dataEnd
    phase := .stopFirst }

/-- What READ_BIT does before it asks whether the byte is complete: the marker, the start of a byte at bit 1, the shift, BITIDX
(44_byte_decode.md R201). -/
def takeBit (j : Nat) (e : Sample) (s : State) : State :=
  let b := bitValue s
  { s with
    out := s.out ++ [.marker (if b then .one else .zero) e]
    byteStart := if j = 1 then trunc64 ((e.toNat : Int) - s.halfbit.toNat) else s.byteStart
    byteAcc := shiftIn (if j = 1 then 0#8 else s.byteAcc) b
    bitidx := BitVec.ofNat 4 j }

/-- `READ_BIT(j, s)` (44_byte_decode.md R201). -/
def readBit (j : Nat) (e : Sample) (s : State) : State :=
  if j < 8 then { takeBit j e s with phase := .bitFirst } else dataComplete e (takeBit j e s)

/-- EDGE in BIT_FIRST (44_byte_decode.md R204). -/
def bitFirstEdge (iv : Interval) (s : State) : State :=
  match classifyIn .bitFirst iv s with
  | some .full => readBit (s.bitidx.toNat + 1) iv.closed s
  | some .half => { s with phase := .bitSecond }
  | _ => raiseInvalidInterval iv.closed s

/-- EDGE in BIT_SECOND (44_byte_decode.md R205). -/
def bitSecondEdge (iv : Interval) (s : State) : State :=
  match classifyIn .bitSecond iv s with
  | some .half => readBit (s.bitidx.toNat + 1) iv.closed s
  | _ => raiseInvalidInterval iv.closed s

end Sys2Proof.Machine
end

