-- ==== Sys2Proof/Machine/Scan.lean ====
section
/-! DEFINITION. The preamble scan, the START symbol and synchronization (43_preamble_scan.md R171 to R180). -/

namespace Sys2Proof.Machine

/-- `sat_32` (00_scope.md R10): SYNCCOUNT stays at 2^32 - 1 (10_state.md R34). -/
def sat32 (v : Nat) : BitVec 32 := BitVec.ofNat 32 (min v (2 ^ 32 - 1))

/-- The bit-rate estimate `trunc_64((SR_L * n) div (L5_START - RUN_START))` (43_preamble_scan.md R179). Where RUN_START is not below
L5_START the spec states no quotient (00_scope.md R10: never reached), and the value is free (notes/assumptions/6.md). -/
def rateEstimate (n : Nat) (s : State) : Word64 :=
  if s.runStart.toNat < s.l5Start.toNat then trunc64 ((s.srL.toNat * n / (s.l5Start.toNat - s.runStart.toNat) : Nat) : Int)
  else Config.rateWithoutRun s.srL n s.l5Start s.runStart

/-- The Sync frame with its commit and progress (43_preamble_scan.md R177 to R179). -/
def syncFrameRecords (s : State) : List Record :=
  let n := s.synccount.toNat / 2
  frameRecords .sync s.runStart (trunc64 ((s.l5Start.toNat : Int) + s.halfbit.toNat - 1)) (BitVec.ofNat 64 n) (rateEstimate n s)

/-- The Start frame with its commit and progress (43_preamble_scan.md R177, R178). -/
def startFrameRecords (pf : Sample) (number : Word64) (s : State) : List Record :=
  frameRecords .start (trunc64 ((s.l5Start.toNat : Int) + s.halfbit.toNat)) (trunc64 ((pf.toNat : Int) - s.halfbit.toNat - 1))
    number 0#64

/-- `SYNC_SUCCESS(pf)` up to its last line: the new packet number, the Sync frame, the Start frame, the Start marker, and the run
counter cleared (43_preamble_scan.md R177, R180). -/
def synchronize (pf : Sample) (s : State) : State :=
  let number := s.pktseq + 1#64
  { s with
    pktseq := number
    out := s.out ++ (syncFrameRecords s ++ startFrameRecords pf number s ++ [.marker .start pf])
    synccount := 0#32 }

/-- `SYNC_SUCCESS(pf)`: then the first data bit is read at the synchronization point (43_preamble_scan.md R177). -/
def syncSuccess (pf : Sample) (s : State) : State := readBit 1 pf (synchronize pf s)

/-- One more `Half` of the run; the first one sets RUN_START (43_preamble_scan.md R171, R172). -/
def countHalf (iv : Interval) (s : State) : State :=
  { s with
    runStart := if s.synccount = 0#32 then iv.opened else s.runStart
    synccount := sat32 (s.synccount.toNat + 1) }

/-- The run is long enough and the level reached is ONE_LEVEL: a `Long5` here begins the START symbol (43_preamble_scan.md R173). -/
def startQualifies (s : State) : Bool := decide (2 * s.rsync.toNat ≤ s.synccount.toNat) && (s.curlevel == oneLevel s)

/-- EDGE in SCAN (43_preamble_scan.md R171, R174). -/
def scanEdge (iv : Interval) (s : State) : State :=
  match classifyIn .scan iv s with
  | some .half => countHalf iv s
  | some .long5 => if startQualifies s then { s with l5Start := iv.opened, phase := .startNext } else raiseInvalidStart s
  | _ => raiseInvalidStart s

/-- EDGE in START_NEXT (43_preamble_scan.md R175). -/
def startNextEdge (iv : Interval) (s : State) : State :=
  match classifyIn .startNext iv s with
  | some .long5 => syncSuccess iv.closed s
  | some .long4 => { s with phase := .startHalf }
  | _ => raiseInvalidStart s

/-- EDGE in START_HALF (43_preamble_scan.md R176). -/
def startHalfEdge (iv : Interval) (s : State) : State :=
  match classifyIn .startHalf iv s with
  | some .half => syncSuccess iv.closed s
  | _ => raiseInvalidInterval iv.closed s

end Sys2Proof.Machine
end

