-- ==== Sys2Proof/Machine/StopDetect.lean ====
section
/-! DEFINITION. STOP detection and the STOP probe (45_stop_detect.md R221 to R227, 42_edge_input.md R155, R158, R159). -/

namespace Sys2Proof.Machine

/-- `STOP_CANDIDATE(s)`: opens the probe (45_stop_detect.md R223). -/
def stopCandidate (e : Sample) (s : State) : State := { s with probeBase := e, phase := .stopProbe }

/-- EDGE in STOP_FIRST (45_stop_detect.md R221). A direct `Long4` is an error. -/
def stopFirstEdge (iv : Interval) (s : State) : State :=
  match classifyIn .stopFirst iv s with
  | some .full => readBit 1 iv.closed s
  | some .half => { s with phase := .stopSecond }
  | some .long5 => stopCandidate iv.closed s
  | _ => raiseInvalidInterval iv.closed s

/-- EDGE in STOP_SECOND (45_stop_detect.md R222). -/
def stopSecondEdge (iv : Interval) (s : State) : State :=
  match classifyIn .stopSecond iv s with
  | some .half => readBit 1 iv.closed s
  | some .long4 => stopCandidate iv.closed s
  | _ => raiseInvalidInterval iv.closed s

/-- The length of the probe, `2 * T` (00_scope.md R8, 45_stop_detect.md R224). -/
def probeSamples (s : State) : Nat := 2 * s.halfbit.toNat

/-- The answers of the lookahead (42_edge_input.md R159). -/
inductive ProbeAnswer where
  /-- A transition exists within the span. -/
  | cross
  /-- None does. -/
  | noCross
  /-- The block does not know yet. -/
  | wait
  deriving DecidableEq, Repr

/-- `probe(N)` at the cursor, compared exactly and inclusively (42_edge_input.md R159). -/
def probe (n : Nat) (s : State) : ProbeAnswer :=
  if s.nextValid then
    if s.nextSample.toNat ≤ s.cursample.toNat + n then .cross else .noCross
  else if s.cursample.toNat + n ≤ s.horizon.toNat then .noCross
  else .wait

/-- `STOP_CONFIRMED()` (45_stop_detect.md R225). -/
def stopConfirmed (s : State) : State :=
  { s with
    out := s.out ++ (frameRecords .stop (trunc64 ((s.lastDataEnd.toNat : Int) + 1))
      (trunc64 ((s.probeBase.toNat : Int) + 2 * s.halfbit.toNat)) 0#64 0#64 ++ [.marker .stop s.probeBase])
    synccount := 0#32
    phase := .scan }

/-- The replay: a transition held by the lookahead is consumed now, in SCAN (42_edge_input.md R158). -/
def replay (s : State) : State :=
  if s.nextValid then
    let emptied := { s with nextValid := false }
    scanEdge (intervalTo emptied.nextSample emptied) (moveCursor emptied.nextSample emptied)
  else s

/-- `probeStep()` (45_stop_detect.md R224, R226). -/
def probeStep (s : State) : State :=
  match probe (probeSamples s) s with
  | .wait => s
  | .noCross => replay (stopConfirmed s)
  | .cross => replay (raiseStopVerify s)

end Sys2Proof.Machine
end

