-- ==== Sys2Proof/Machine/EdgeInput.lean ====
section
/-! DEFINITION. The edge-input family: EDGE (42_edge_input.md R150 to R155) and QUIET (R156, R157). -/

namespace Sys2Proof.Machine

/-- The table of `dispatch` (42_edge_input.md R154): the rule of each phase. STOP_PROBE has no row: an EDGE there is held, not
measured (R155). -/
def intervalRule (ph : Phase) (iv : Interval) (s : State) : Option State :=
  match ph with
  | .scan => some (scanEdge iv s)
  | .startNext => some (startNextEdge iv s)
  | .startHalf => some (startHalfEdge iv s)
  | .bitFirst => some (bitFirstEdge iv s)
  | .bitSecond => some (bitSecondEdge iv s)
  | .stopFirst => some (stopFirstEdge iv s)
  | .stopSecond => some (stopSecondEdge iv s)
  | .stopProbe => none

/-- An EDGE that passed the checks: consumed and given to the rule of the phase, or held for the probe (42_edge_input.md R150, R153
to R155). -/
def acceptEdge (e : Sample) (s : State) : State :=
  match intervalRule s.phase (intervalTo e s) (moveCursor e s) with
  | some t => t
  | none => probeStep { s with nextValid := true, nextSample := e }

/-- The order check of 42_edge_input.md R152. -/
def breaksOrder (e : Sample) (s : State) : Bool := decide (e.toNat ≤ s.cursample.toNat ∨ e.toNat ≤ s.horizon.toNat)

/-- `HORIZON <- max(HORIZON, h)` (42_edge_input.md R156). -/
def raiseHorizon (h : Sample) (s : State) : State :=
  { s with horizon := if s.horizon.toNat < h.toNat then h else s.horizon }

/-- EDGE (42_edge_input.md R150): the stopped check (R151), the order check (R152), then the transition. -/
def execEdge (e : Sample) (s : State) : Host.Outcome State Fault Refusal :=
  if s.running then
    if breaksOrder e s then .next (orderFault s) else .next (acceptEdge e s)
  else .next s

/-- QUIET (42_edge_input.md R156): the stopped check (R151), the horizon, and an open probe. -/
def execQuiet (h : Sample) (s : State) : Host.Outcome State Fault Refusal :=
  if s.running then
    if s.phase = .stopProbe then .next (probeStep (raiseHorizon h s)) else .next (raiseHorizon h s)
  else .next s

end Sys2Proof.Machine
end

