-- ==== Sys2Proof/Machine/Output.lean ====
section
/-! DEFINITION. The output records (46_output_records.md R240 to R248), one meaning per row: driven by the block the record is
appended to OUT; driven by the host it is malformed (30_encoding.md R91, R92). The rules named are the ones that emit the row. -/

namespace Sys2Proof.Machine

/-- FRAME.Sync (46_output_records.md R241; emitted by 43_preamble_scan.md R177). -/
def execFrameSync (startSample endSample : Sample) (primary secondary : Word64) (flags : Word32) (s : State) :
    Host.Outcome State Fault Refusal :=
  .next (transmit (.frame .sync startSample endSample primary secondary flags) s)

/-- FRAME.Start (46_output_records.md R241; emitted by 43_preamble_scan.md R177). -/
def execFrameStart (startSample endSample : Sample) (primary secondary : Word64) (flags : Word32) (s : State) :
    Host.Outcome State Fault Refusal :=
  .next (transmit (.frame .start startSample endSample primary secondary flags) s)

/-- FRAME.Data (46_output_records.md R241; emitted by 44_byte_decode.md R206). -/
def execFrameData (startSample endSample : Sample) (primary secondary : Word64) (flags : Word32) (s : State) :
    Host.Outcome State Fault Refusal :=
  .next (transmit (.frame .data startSample endSample primary secondary flags) s)

/-- FRAME.Stop (46_output_records.md R241; emitted by 45_stop_detect.md R225). -/
def execFrameStop (startSample endSample : Sample) (primary secondary : Word64) (flags : Word32) (s : State) :
    Host.Outcome State Fault Refusal :=
  .next (transmit (.frame .stop startSample endSample primary secondary flags) s)

/-- MARKER.One (46_output_records.md R244; emitted by 44_byte_decode.md R201). -/
def execMarkerOne (sample : Sample) (s : State) : Host.Outcome State Fault Refusal := .next (transmit (.marker .one sample) s)

/-- MARKER.Zero (46_output_records.md R244; emitted by 44_byte_decode.md R201). -/
def execMarkerZero (sample : Sample) (s : State) : Host.Outcome State Fault Refusal := .next (transmit (.marker .zero sample) s)

/-- MARKER.Start (46_output_records.md R244; emitted by 43_preamble_scan.md R177). -/
def execMarkerStart (sample : Sample) (s : State) : Host.Outcome State Fault Refusal := .next (transmit (.marker .start sample) s)

/-- MARKER.Stop (46_output_records.md R244; emitted by 45_stop_detect.md R225). -/
def execMarkerStop (sample : Sample) (s : State) : Host.Outcome State Fault Refusal := .next (transmit (.marker .stop sample) s)

/-- MARKER.ErrorDot (46_output_records.md R244; emitted by 60_exceptions.md R262 and R263). -/
def execMarkerErrorDot (sample : Sample) (s : State) : Host.Outcome State Fault Refusal := .next (transmit (.marker .errorDot sample) s)

/-- COMMIT (46_output_records.md R246; emitted by R243, once after each FRAME). -/
def execCommit (s : State) : Host.Outcome State Fault Refusal := .next (transmit .commit s)

/-- PROGRESS (46_output_records.md R247; emitted by R243). -/
def execProgress (sample : Sample) (s : State) : Host.Outcome State Fault Refusal := .next (transmit (.progress sample) s)

/-- REG_VALUE (46_output_records.md R248; emitted by 40_control.md R102). A number that is no register fits no output record, and no
rule of the block produces one (30_encoding.md R89). DESIGN CHOICE (notes/assumptions/17.md, safe): with such a number the row sets
BAD_CMD whichever side drives it. -/
def execRegValue (reg : BitVec 8) (value : Word64) (s : State) : Host.Outcome State Fault Refusal :=
  match regOfNumber reg with
  | some r => .next (transmit (.regValue r value) s)
  | none => .next (discardMalformed s)

/-! ## What a consumer of OUT may rely on (20_memory.md R69) -/

/-- A record that waits for a COMMIT: a FRAME or a MARKER (20_memory.md R69). -/
def needsCommit : Record → Bool
  | .frame _ _ _ _ _ _ | .marker _ _ => true
  | .commit | .progress _ | .regValue _ _ => false

/-- The FRAME and MARKER records of OUT that a COMMIT after them has published, in order (20_memory.md R69). -/
def published : List Record → List Record
  | [] => []
  | r :: rest => if needsCommit r && rest.contains .commit then r :: published rest else published rest

end Sys2Proof.Machine
end

