-- ==== Sys2Proof/Machine/Dispatch.lean ====
section
/-! DEFINITION. One arm per row of the opcode table, each one direct call of the row's meaning. -/

namespace Sys2Proof.Machine

def exec (i : Instr) (s : State) : Host.Outcome State Fault Refusal :=
  match i with
  -- 40_control.md
  | .cfgWrite reg value => Sys2Proof.Machine.execCfgWrite reg value s
  | .regRead reg => Sys2Proof.Machine.execRegRead reg s
  | .start => Sys2Proof.Machine.execStart s
  | .cancel => Sys2Proof.Machine.execCancel s
  -- 42_edge_input.md to 45_stop_detect.md
  | .edge sample => Sys2Proof.Machine.execEdge sample s
  | .quiet horizon => Sys2Proof.Machine.execQuiet horizon s
  -- 46_output_records.md
  | .frameSync a b p q f => Sys2Proof.Machine.execFrameSync a b p q f s
  | .frameStart a b p q f => Sys2Proof.Machine.execFrameStart a b p q f s
  | .frameData a b p q f => Sys2Proof.Machine.execFrameData a b p q f s
  | .frameStop a b p q f => Sys2Proof.Machine.execFrameStop a b p q f s
  | .markerOne sample => Sys2Proof.Machine.execMarkerOne sample s
  | .markerZero sample => Sys2Proof.Machine.execMarkerZero sample s
  | .markerStart sample => Sys2Proof.Machine.execMarkerStart sample s
  | .markerStop sample => Sys2Proof.Machine.execMarkerStop sample s
  | .markerErrorDot sample => Sys2Proof.Machine.execMarkerErrorDot sample s
  | .commit => Sys2Proof.Machine.execCommit s
  | .progress sample => Sys2Proof.Machine.execProgress sample s
  | .regValue reg value => Sys2Proof.Machine.execRegValue reg value s

end Sys2Proof.Machine
end

