-- ==== Sys2Proof/Machine/Deliver.lean ====
section
/-! DEFINITION. The next host event performed whole (20_memory.md R65, R67), or a wait (42_edge_input.md R160). -/

namespace Sys2Proof.Machine

/-- A transaction from the host: performed if it is a row of the table, discarded with BAD_CMD if it is malformed (30_encoding.md R88,
R92). -/
def performTransaction (t : Transaction) (s : State) : Host.Outcome State Fault Refusal :=
  match decode t with
  | .ok i => exec i s
  | .error _ => .next (discardMalformed s)

/-- A host event: a transaction, or hardware reset (70_reset_and_hazards.md R290). -/
def performEvent (e : HostEvent) (s : State) : Host.Outcome State Fault Refusal :=
  match e with
  | .reset => .next (hardReset s)
  | .transaction t => performTransaction t s

/-- The next host event; with nothing sent the block waits and holds its state (42_edge_input.md R160, 60_exceptions.md R279). -/
def performNext (s : State) : Host.Outcome State Fault Refusal :=
  match fetch s with
  | none => .next s
  | some (e, s1) => performEvent e s1

/-- The state in which a transaction is the very next the host has sent. -/
def sendFirst (t : Transaction) (s : State) : State := { s with input := .transaction t :: s.input }

end Sys2Proof.Machine
end

