-- ==== Sys2Proof/Machine/Step.lean ====
section
/-! DEFINITION. One step of the block, and the placing of an instruction where the step takes its next one. -/

namespace Sys2Proof.Machine

/-- One step: the next host event is performed whole (20_memory.md R65). -/
def step (s : State) : Host.Outcome State Fault Refusal := performNext s

/-- The state in which the host has sent the instruction whose bits are `w` as the very next transaction. -/
def State.withFetchWord (s : State) (nbits w : Nat) : State := sendFirst (transactionOfTableWord nbits w) s

end Sys2Proof.Machine
end

