-- ==== Sys2Proof/Safety.lean ====
section
/-! DEFINITION. The terms in which claims about runs are made: legal timing, the consistency of a state, the discipline of OUT, the
order of frames in one run, and the packets of 95_test_vectors.md V-RT-1. -/

namespace Sys2Proof.Machine

/-! ## An EDGE and its interval -/

/-- An EDGE that passes the stopped check and the order check (42_edge_input.md R150 to R152). -/
abbrev EdgeAccepted (e : Sample) (s : State) : Prop :=
  s.running = true ∧ s.cursample.toNat < e.toNat ∧ s.horizon.toNat < e.toNat

/-- The interval from the cursor to `e` lies in the window of multiple `k`: `kT - TOL ≤ e - CURSAMPLE ≤ kT + TOL` (41_classifier.md
R131), with every term on the side where it is added. -/
def intervalIn (k : Nat) (e : Sample) (s : State) : Bool :=
  decide (s.cursample.toNat + k * s.halfbit.toNat ≤ e.toNat + s.tol.toNat ∧
    e.toNat ≤ s.cursample.toNat + k * s.halfbit.toNat + s.tol.toNat)

/-! ## Consistent states -/

/-- What a successful START leaves in the latches (40_control.md R108, 10_state.md R29). -/
def TimingLegal (s : State) : Prop :=
  4 ≤ s.halfbit.toNat ∧ s.halfbit.toNat ≤ 2 ^ 31 ∧ 3 ≤ s.tol.toNat ∧ s.tol.toNat + 1 ≤ s.halfbit.toNat ∧ 1 ≤ s.rsync.toNat

/-- The invariant of every state between two transactions. -/
structure Consistent (s : State) : Prop where
  /-- The lookahead register is empty between transactions (10_state.md R44). -/
  lookahead_empty : s.nextValid = false
  /-- A running decoder has legal timing (40_control.md R108). -/
  timing : s.running = true → TimingLegal s
  /-- Between two bits of a byte BITIDX is 1 to 7 (10_state.md R32). -/
  bit_phase_index : s.phase = .bitFirst ∨ s.phase = .bitSecond → 1 ≤ s.bitidx.toNat ∧ s.bitidx.toNat ≤ 7
  /-- From the eighth bit to the end of STOP detection BITIDX is 8 (10_state.md R32, R33). -/
  stop_phase_index : s.phase = .stopFirst ∨ s.phase = .stopSecond ∨ s.phase = .stopProbe → s.bitidx.toNat = 8
  /-- After bit j the byte's bits above j are 0 (44_byte_decode.md R203). -/
  byte_value : s.phase = .bitFirst ∨ s.phase = .bitSecond → s.byteAcc.toNat < 2 ^ s.bitidx.toNat
  /-- The run counter is 0 while a byte or a STOP is decoded (43_preamble_scan.md R177). -/
  synced_run : phaseIsSynced s.phase = true → s.synccount = 0#32
  /-- The current byte began at least T before the cursor, without wrap (44_byte_decode.md R201). -/
  byte_start : phaseIsSynced s.phase = true → s.byteStart.toNat + s.halfbit.toNat ≤ s.cursample.toNat
  /-- While the scan counts, the counted run fits between RUN_START and the cursor (43_preamble_scan.md R172). -/
  scan_run : s.phase = .scan → 0 < s.synccount.toNat →
    s.runStart.toNat + s.synccount.toNat * (s.halfbit.toNat - s.tol.toNat) ≤ s.cursample.toNat
  /-- In the START lookahead the run was long enough and ended at L5_START (43_preamble_scan.md R173, R178). -/
  start_run : s.phase = .startNext ∨ s.phase = .startHalf →
    2 * s.rsync.toNat ≤ s.synccount.toNat ∧
      s.runStart.toNat + s.synccount.toNat * (s.halfbit.toNat - s.tol.toNat) ≤ s.l5Start.toNat
  /-- START_NEXT waits at the end of a `Long5` (43_preamble_scan.md R173). -/
  start_next_span : s.phase = .startNext → s.l5Start.toNat + 5 * s.halfbit.toNat ≤ s.cursample.toNat + s.tol.toNat
  /-- START_HALF waits at the end of a `Long5` and a `Long4` (43_preamble_scan.md R175). -/
  start_half_span : s.phase = .startHalf → s.l5Start.toNat + 9 * s.halfbit.toNat ≤ s.cursample.toNat + 2 * s.tol.toNat
  /-- The cursor of an open probe is the probe base, and the horizon has not settled the probe (45_stop_detect.md R223). -/
  probe_open : s.phase = .stopProbe →
    s.probeBase = s.cursample ∧ s.horizon.toNat < s.cursample.toNat + 2 * s.halfbit.toNat

/-! ## The discipline of OUT -/

/-- Every FRAME has flags 0 and is followed at once by COMMIT and by PROGRESS of its end, and there is no COMMIT or PROGRESS
otherwise (46_output_records.md R241, R243). -/
def commitDiscipline : List Record → Bool
  | [] => true
  | .frame _ _ e _ _ f :: .commit :: .progress e' :: rest => decide (e = e') && decide (f = 0#32) && commitDiscipline rest
  | .marker _ _ :: rest => commitDiscipline rest
  | .regValue _ _ :: rest => commitDiscipline rest
  | .frame _ _ _ _ _ _ :: _ => false
  | .commit :: _ => false
  | .progress _ :: _ => false

/-- The Start frames among records, in order. -/
def startFrames (out : List Record) : List Record :=
  out.filter fun r =>
    match r with
    | .frame .start _ _ _ _ _ => true
    | .frame .sync _ _ _ _ _ | .frame .data _ _ _ _ _ | .frame .stop _ _ _ _ _ => false
    | .marker _ _ | .commit | .progress _ | .regValue _ _ => false

/-! ## The order of frames in one run (46_output_records.md R249) -/

/-- The start and end samples of the FRAME records, in order. -/
def frameSpans (out : List Record) : List (Nat × Nat) :=
  out.filterMap fun r =>
    match r with
    | .frame _ a b _ _ _ => some (a.toNat, b.toNat)
    | .marker _ _ | .commit | .progress _ | .regValue _ _ => none

/-- Start samples and end samples both rise strictly. -/
def SpansRise (spans : List (Nat × Nat)) : Prop := spans.Pairwise fun f g => f.1 < g.1 ∧ f.2 < g.2

/-- Every sample number the state holds or will be sent is below 2^63, and nothing in `input` ends the run: no START and no reset
(70_reset_and_hazards.md R301, 46_output_records.md R249). -/
def continuesRun : HostEvent → Bool
  | .reset => false
  | .transaction t =>
    match decode t with
    | .ok .start => false
    | .ok (.edge e) => decide (e.toNat < 2 ^ 63)
    | .ok (.quiet h) => decide (h.toNat < 2 ^ 63)
    | .ok _ => true
    | .error _ => true

/-- How the frames of a run lie before the cursor, phase by phase. `n` is the length of OUT when the run began. -/
structure FramesOrdered (n : Nat) (s : State) : Prop where
  /-- The records of earlier runs are still there. -/
  grown : n ≤ s.out.length
  /-- The frames of this run rise (46_output_records.md R249). -/
  rise : SpansRise (frameSpans (s.out.drop n))
  /-- No frame of this run ends before it starts (46_output_records.md R242). -/
  nonempty : ∀ f ∈ frameSpans (s.out.drop n), f.1 ≤ f.2
  /-- The cursor and the horizon are in range (70_reset_and_hazards.md R301). -/
  in_range : s.cursample.toNat < 2 ^ 63 ∧ s.horizon.toNat < 2 ^ 63
  /-- SCAN before a run: the next Sync frame begins at the cursor or later, and after a STOP confirmed by QUIET beyond the horizon. -/
  before_run : s.phase = .scan → s.synccount.toNat = 0 → ∀ f ∈ frameSpans (s.out.drop n),
    f.1 < s.cursample.toNat ∧
      (f.2 < s.cursample.toNat + s.halfbit.toNat ∨
        f.2 ≤ s.horizon.toNat ∧ s.cursample.toNat + 2 * s.halfbit.toNat ≤ s.horizon.toNat)
  /-- SCAN in a run, and the START lookahead: the next Sync frame begins at RUN_START. -/
  in_run : s.phase = .scan ∧ 0 < s.synccount.toNat ∨ s.phase = .startNext ∨ s.phase = .startHalf →
    ∀ f ∈ frameSpans (s.out.drop n), f.1 < s.runStart.toNat ∧ f.2 < s.runStart.toNat + s.halfbit.toNat
  /-- In a byte: the next Data frame begins at BYTE_START and ends beyond the cursor plus T. -/
  in_byte : s.phase = .bitFirst ∨ s.phase = .bitSecond → ∀ f ∈ frameSpans (s.out.drop n),
    f.1 < s.byteStart.toNat ∧ f.2 < s.cursample.toNat + s.halfbit.toNat
  /-- In STOP detection: the last Data frame began at BYTE_START and ended at LAST_DATA_END. -/
  after_byte : s.phase = .stopFirst ∨ s.phase = .stopSecond ∨ s.phase = .stopProbe →
    s.byteStart.toNat + 2 * s.halfbit.toNat ≤ s.lastDataEnd.toNat ∧
      ∀ f ∈ frameSpans (s.out.drop n), f.1 ≤ s.byteStart.toNat ∧ f.2 ≤ s.lastDataEnd.toNat
  /-- LAST_DATA_END is T beyond the eighth bit's decision edge (44_byte_decode.md R206). -/
  stop_first_end : s.phase = .stopFirst → s.lastDataEnd.toNat = s.cursample.toNat + s.halfbit.toNat
  /-- One `Half` later. -/
  stop_second_end : s.phase = .stopSecond → s.lastDataEnd.toNat ≤ s.cursample.toNat + s.tol.toNat
  /-- At the probe base LAST_DATA_END is far behind (46_output_records.md R242). -/
  stop_probe_end : s.phase = .stopProbe →
    s.lastDataEnd.toNat + 4 * s.halfbit.toNat ≤ s.cursample.toNat + 2 * s.tol.toNat

/-! ## Packets (95_test_vectors.md V-RT-1, 46_output_records.md R250) -/

/-- The bits of a byte, most significant first (44_byte_decode.md R203). -/
def bitsOfByte (b : Byte) : List Bool :=
  [b.getLsbD 7, b.getLsbD 6, b.getLsbD 5, b.getLsbD 4, b.getLsbD 3, b.getLsbD 2, b.getLsbD 1, b.getLsbD 0]

/-- The intervals between the decision edges of bits, in units of T: one `Full` where two bits differ, two `Half`s where they are equal
(44_byte_decode.md R209). -/
def bitIntervals (previous : Bool) : List Bool → List Nat
  | [] => []
  | b :: bits => (if b = previous then [1, 1] else [2]) ++ bitIntervals b bits

/-- The number of preamble intervals: `2R`, or one more so that the run ends at `not ONE_LEVEL` (V-RT-1). -/
def preambleIntervals (r : Nat) (one level : Level) : Nat := if level = one then 2 * r + 1 else 2 * r

/-- The intervals of a packet after its first bit `b`, in units of T: the START form, the further bits, the STOP form (V-RT-1,
43_preamble_scan.md R181, 45_stop_detect.md R229). -/
def symbolIntervals (b : Bool) (bits : List Bool) : List Nat :=
  (if b then [5, 4, 1] else [5, 5]) ++ bitIntervals b bits ++ (if (b :: bits).getLast? = some true then [1, 4] else [5])

/-- The intervals of a packet of bytes, in units of T (V-RT-1). -/
def packetIntervals (r : Nat) (one level : Level) (bytes : List Byte) : List Nat :=
  match bytes.flatMap bitsOfByte with
  | [] => []
  | b :: bits => List.replicate (preambleIntervals r one level) 1 ++ symbolIntervals b bits

/-- A measured distance `d` stands for multiple `k`: it is in the window of `k`, and a `Full` or a `Long5` is in no window of the class
one multiple below (41_classifier.md R131, R134, R138). -/
def distanceFits (t tol k d : Nat) : Prop :=
  k * t ≤ d + tol ∧ d ≤ k * t + tol ∧ (k = 2 ∨ k = 5 → (k - 1) * t + tol < d)

/-- The EDGE transactions of intervals of `t` samples each, from a base sample. -/
def edgesOf (t base : Nat) : List Nat → List Instr
  | [] => []
  | k :: ks => .edge (BitVec.ofNat 64 (base + k * t)) :: edgesOf t (base + k * t) ks

/-- Instructions performed one after another, up to the first stop. -/
def perform : List Instr → State → Host.Outcome State Fault Refusal
  | [], s => .next s
  | i :: is, s =>
    match exec i s with
    | .next t => perform is t
    | .fault f => .fault f
    | .refused r => .refused r

/-- The kinds and primary values of the FRAME records, in order. -/
def frameValues (out : List Record) : List (FrameKind × Word64) :=
  out.filterMap fun r =>
    match r with
    | .frame k _ _ p _ _ => some (k, p)
    | .marker _ _ | .commit | .progress _ | .regValue _ _ => none

/-- An ErrorDot stands among the records. -/
def hasErrorDot (out : List Record) : Bool :=
  out.any fun r =>
    match r with
    | .marker .errorDot _ => true
    | _ => false

end Sys2Proof.Machine
end

