-- ==== Sys2Proof/Certificates/Slice0/Obligations.lean ====
section
/-! DEFINITION. The statements for the provers, in the order of the spec's files. Where a meaning is an equation to an explicit next
state, that equation is also the frame: every field not named is unchanged. The block has no memory (20_memory.md R60). -/

open Sys2Proof Sys2Proof.Machine

/-! ## 10_state.md: registers and reset -/

/-- 10_state.md R48, 70_reset_and_hazards.md R290: hardware reset puts every value of the table of R48, empties OUT, and emits nothing.
What the host has still to send stays (the model's choice, notes/assumptions/5.md). -/
def Obligations.ResetPutsEveryValueOfTheTable : Prop :=
  ∀ (s : State) (rest : List HostEvent), s.input = .reset :: rest → ∃ t, step s = .next t ∧
    (∀ r : Reg, readReg r t = 0#64) ∧
    t.running = false ∧ t.badCmd = false ∧ t.orderErr = false ∧ t.cfgErr = false ∧ t.phase = .scan ∧ t.bitidx = 0#4 ∧
    synced t = false ∧ t.invL = false ∧ t.srL = 0#32 ∧ t.runStart = 0#64 ∧ t.l5Start = 0#64 ∧ t.byteStart = 0#64 ∧
    t.byteAcc = 0#8 ∧ t.lastDataEnd = 0#64 ∧ t.probeBase = 0#64 ∧ t.nextValid = false ∧ t.nextSample = 0#64 ∧
    t.horizon = 0#64 ∧ t.out = [] ∧ t.input = rest

/-- 10_state.md R21 to R29 and R34 to R37: each register reads its field in the named bits and 0 in every reserved bit. STATUS is
stated apart. -/
def Obligations.RegistersReadTheirFields : Prop :=
  ∀ s : State,
    (∀ n, (readReg .bitrate s).getLsbD n = s.bitrate.getLsbD n) ∧
    (∀ n, (readReg .samplerate s).getLsbD n = s.samplerate.getLsbD n) ∧
    (∀ n, (readReg .ctrl s).getLsbD n =
      if n = 0 then s.inverted else if n = 1 then s.tolsel.getLsbD 0 else if n = 2 then s.tolsel.getLsbD 1 else false) ∧
    (∀ n, (readReg .syncbits s).getLsbD n = s.syncbits.getLsbD n) ∧
    readReg .startSample s = s.startSample ∧
    (∀ n, (readReg .startLevel s).getLsbD n = decide (n = 0 ∧ s.startLevel = .high)) ∧
    (∀ n, (readReg .halfbit s).getLsbD n = s.halfbit.getLsbD n) ∧
    (∀ n, (readReg .tol s).getLsbD n = s.tol.getLsbD n) ∧
    (∀ n, (readReg .rsync s).getLsbD n = s.rsync.getLsbD n) ∧
    (∀ n, (readReg .synccount s).getLsbD n = s.synccount.getLsbD n) ∧
    readReg .pktseq s = s.pktseq ∧
    readReg .cursample s = s.cursample ∧
    (∀ n, (readReg .curlevel s).getLsbD n = decide (n = 0 ∧ s.curlevel = .high))

/-- 10_state.md R30, R32: the fields of STATUS, with the phase codes 0 to 7 in the order of the table of R32. -/
def Obligations.StatusHoldsItsFields : Prop :=
  ∀ s : State,
    (readReg .status s).getLsbD 0 = s.running ∧
    (readReg .status s).getLsbD 1 = synced s ∧
    (readReg .status s).getLsbD 2 = s.badCmd ∧
    (readReg .status s).getLsbD 3 = s.orderErr ∧
    (readReg .status s).getLsbD 4 = s.cfgErr ∧
    (readReg .status s).extractLsb' 5 3 = 0#3 ∧
    (readReg .status s).extractLsb' 8 3 =
      (match s.phase with
        | .scan => 0#3
        | .startNext => 1#3
        | .startHalf => 2#3
        | .bitFirst => 3#3
        | .bitSecond => 4#3
        | .stopFirst => 5#3
        | .stopSecond => 6#3
        | .stopProbe => 7#3) ∧
    (readReg .status s).getLsbD 11 = false ∧
    (readReg .status s).extractLsb' 12 4 = s.bitidx ∧
    (readReg .status s).extractLsb' 16 48 = 0#48

/-- 10_state.md R31: `DecoderState` is Synchronized exactly when the block runs in one of the five phases; STATUS.SYNCED reads it; and
every START leaves it Unsynchronized. -/
def Obligations.SyncedExactlyInByteAndStopPhases : Prop :=
  ∀ s : State,
    (synced s = true ↔
      s.running = true ∧
        (s.phase = .bitFirst ∨ s.phase = .bitSecond ∨ s.phase = .stopFirst ∨ s.phase = .stopSecond ∨ s.phase = .stopProbe)) ∧
    (readReg .status s).getLsbD 1 = synced s ∧
    ∀ t : State, exec .start s = .next t → synced t = false

/-! ## 30_encoding.md: decode and encode -/

/-- For every row: decoding an encoded well-formed transaction gives it back, with every operand at every value. -/
def Obligations.DecodeAfterEncode : Prop :=
  ∀ i : Instr, i.wellFormed = true → decode (encode i) = .ok i

/-- For every transaction: what the decoder accepts is well formed, and its encoding is the very words decoded, so each instruction
has one encoding. For FRAME it rests on the model's reading that a fifth word with a bit of 63:32 set is rejected, where R89 names RSV
and ARG only (DEDUCED, notes/assumptions/13.md). -/
def Obligations.EncodeAfterDecode : Prop :=
  ∀ (t : Transaction) (i : Instr), decode t = .ok i → i.wellFormed = true ∧ encode i = t

/-- 30_encoding.md R88: the class of every transaction by its OPC, and when a command is well formed: RSV = 0, the payload count right,
ARG fit for the opcode (R82, R86). -/
def Obligations.EveryHeaderHasItsClass : Prop :=
  ∀ t : Transaction,
    let opc := (headerOpc t.header).toNat
    (0x81 ≤ opc ∧ opc ≤ 0x85 → classOfTransaction t = .outputRecord) ∧
    (1 ≤ opc ∧ opc ≤ 6 →
      classOfTransaction t =
        if t.header.extractLsb' 0 16 = 0#16 ∧
            t.payload.length = (if opc = 1 ∨ opc = 5 ∨ opc = 6 then 1 else 0) ∧
            (if opc = 1 then (headerArg t.header).toNat ≤ 5
              else if opc = 2 then (headerArg t.header).toNat ≤ 5 ∨
                0x10 ≤ (headerArg t.header).toNat ∧ (headerArg t.header).toNat ≤ 0x17
              else (headerArg t.header).toNat = 0)
          then .wellFormedCommand else .malformedCommand) ∧
    (opc = 0 ∨ (7 ≤ opc ∧ opc ≤ 0x80) ∨ 0x86 ≤ opc → classOfTransaction t = .reserved) ∧
    (classOfTransaction t = .wellFormedCommand ↔ ∃ i, decode t = .ok i ∧ i.isHostCommand = true)

/-- 20_memory.md R63: the header word goes first, each word least significant byte first; and a transaction is read back from its
bytes. -/
def Obligations.BytesCarryATransaction : Prop :=
  ∀ t : Transaction,
    transactionOfBytes (transactionBytes t) = some t ∧
    (∀ k, k < 4 → (transactionBytes t)[k]? = some (t.header.extractLsb' (8 * k) 8)) ∧
    ∀ (n : Nat) (w : Word64), t.payload[n]? = some w →
      ∀ k, k < 8 → (transactionBytes t)[4 + 8 * n + k]? = some (w.extractLsb' (8 * k) 8)

/-- 30_encoding.md R95: the worked words decode to the transactions they stand for, and EDGE 296 is the bytes of the first example. -/
def Obligations.WorkedWordsDecode : Prop :=
  transactionBytes { header := 0x05000000#32, payload := [0x128#64] } =
    [0x00#8, 0x00#8, 0x00#8, 0x05#8, 0x28#8, 0x01#8, 0x00#8, 0x00#8, 0x00#8, 0x00#8, 0x00#8, 0x00#8] ∧
  decode { header := 0x05000000#32, payload := [0x128#64] } = .ok (.edge 296#64) ∧
  decode { header := 0x01000000#32, payload := [0xF4240#64] } = .ok (.cfgWrite 0x00#8 1000000#64) ∧
  decode { header := 0x02130000#32, payload := [] } = .ok (.regRead 0x13#8) ∧
  decode { header := 0x03000000#32, payload := [] } = .ok .start ∧
  decode { header := 0x04000000#32, payload := [] } = .ok .cancel ∧
  decode { header := 0x82040000#32, payload := [0x1F4#64] } = .ok (.markerErrorDot 500#64) ∧
  decode { header := 0x81020000#32, payload := [0x148#64, 0x1C8#64, 0x5A#64, 0#64, 0#64] } =
    .ok (.frameData 328#64 456#64 90#64 0#64 0#32)

/-- 30_encoding.md R89: a record the block puts into OUT is a well-formed output record. -/
def Obligations.RecordsAreWellFormedOutput : Prop :=
  ∀ r : Record, decode (encode (recordInstr r)) = .ok (recordInstr r) ∧
    classOfTransaction (encode (recordInstr r)) = .outputRecord

/-! ## One step -/

/-- A step runs the decoded instruction: the transaction leaves `input`, the host drives the interface, and exec does the rest. -/
def Obligations.StepRunsTheDecodedTransaction : Prop :=
  ∀ (s : State) (t : Transaction) (rest : List HostEvent) (i : Instr),
    s.input = .transaction t :: rest → decode t = .ok i → step s = exec i { s with input := rest, issuer := .host }

/-- 60_exceptions.md R267, 30_encoding.md R91: a transaction that is no well-formed host command (reserved, ill-formed, or an output
opcode) sets BAD_CMD and has no other effect: no record, the decoder running or stopped as it was. -/
def Obligations.MalformedTransactionsOnlySetBadCmd : Prop :=
  ∀ (s : State) (t : Transaction) (rest : List HostEvent),
    s.input = .transaction t :: rest → classOfTransaction t ≠ .wellFormedCommand →
      step s = .next { s with input := rest, issuer := .host, badCmd := true }

/-- 42_edge_input.md R160, 60_exceptions.md R279: with nothing sent the block waits and holds its state. -/
def Obligations.WaitingHoldsTheState : Prop :=
  ∀ s : State, s.input = [] → step s = .next s

/-- 70_reset_and_hazards.md R304, 46_output_records.md R251: every step ends in a next state; OUT only grows, by at most 8 records, or
is emptied by reset (10_state.md R46). -/
def Obligations.EveryStepEndsWithAtMostEightRecords : Prop :=
  ∀ s : State, ∃ t, step s = .next t ∧
    ((∃ rest, s.input = .reset :: rest ∧ t.out = []) ∨
      ((∀ rest, s.input ≠ .reset :: rest) ∧ ∃ recs : List Record, t.out = s.out ++ recs ∧ recs.length ≤ 8))

/-! ## Invariants of every step -/

/-- The state after reset is consistent, and its OUT keeps the commit discipline. -/
def Obligations.ResetIsConsistent : Prop :=
  Consistent State.reset ∧ commitDiscipline State.reset.out = true

/-- Every step keeps a state consistent: the lookahead empty (R44), the timing legal while running (R108), BITIDX fit for the phase (R32,
R33), the run and the START symbol within their spans (R172, R178), the probe open at the cursor (R223). -/
def Obligations.StepKeepsConsistency : Prop :=
  ∀ s t : State, Consistent s → step s = .next t → Consistent t

/-- 46_output_records.md R243: every step keeps OUT in the form FRAME, COMMIT, PROGRESS of the frame's end, with nothing between
them and no other COMMIT or PROGRESS, and every FRAME with flags 0 (R241). -/
def Obligations.StepKeepsCommitDiscipline : Prop :=
  ∀ s t : State, commitDiscipline s.out = true → step s = .next t → commitDiscipline t.out = true

/-- 70_reset_and_hazards.md R290: reset is the only event that clears BAD_CMD and ORDER_ERR. -/
def Obligations.OnlyResetClearsTheStickyBits : Prop :=
  ∀ s t : State, step s = .next t → (∀ rest, s.input ≠ .reset :: rest) →
    (s.badCmd = true → t.badCmd = true) ∧ (s.orderErr = true → t.orderErr = true)

/-- 20_memory.md R66: the cursor never goes back. Only START and reset put it elsewhere (42_edge_input.md R153). -/
def Obligations.CursorNeverGoesBack : Prop :=
  ∀ (i : Instr) (s t : State), Consistent s → i ≠ .start → exec i s = .next t → s.cursample.toNat ≤ t.cursample.toNat

/-- 43_preamble_scan.md R180: PKTSEQ goes up by 1 exactly with a synchronization, which emits exactly one Start frame, carrying the
new value with secondary value and flags 0; a step that emits no Start frame leaves PKTSEQ. -/
def Obligations.PacketNumberRisesOnlyWithAStartFrame : Prop :=
  ∀ (i : Instr) (s t : State), i ≠ .start → s.issuer = .host → exec i s = .next t →
    ∃ recs : List Record, t.out = s.out ++ recs ∧
      ((t.pktseq = s.pktseq ∧ startFrames recs = []) ∨
        (t.pktseq = s.pktseq + 1#64 ∧ ∃ a b, startFrames recs = [.frame .start a b (s.pktseq + 1#64) 0#64 0#32]))

/-- 60_exceptions.md R268, R270: a step that reports a decode error emits exactly that one ErrorDot, and leaves the block in SCAN with
nothing counted but what the replay counts. -/
def Obligations.AnErrorDotEndsInScan : Prop :=
  ∀ (i : Instr) (s t : State) (recs : List Record) (e : Sample), Consistent s → s.issuer = .host → exec i s = .next t →
    t.out = s.out ++ recs → Record.marker .errorDot e ∈ recs →
      recs = [.marker .errorDot e] ∧ t.phase = .scan ∧ t.synccount.toNat ≤ 1 ∧ t.running = true ∧
        (e = t.cursample ∨ s.phase = .stopProbe ∧ e = s.probeBase)

/-! ## 40_control.md: CFG_WRITE, REG_READ, START, CANCEL -/

/-- 40_control.md R101, 10_state.md R21 to R26: CFG_WRITE stores the defined bits of each of the six writable registers and drops
the reserved ones, running or not; every other number sets BAD_CMD. -/
def Obligations.CfgWriteStoresTheDefinedBits : Prop :=
  ∀ (s : State) (v : Word64),
    exec (.cfgWrite 0x00#8 v) s = .next { s with bitrate := v.extractLsb' 0 32 } ∧
    exec (.cfgWrite 0x01#8 v) s = .next { s with samplerate := v.extractLsb' 0 32 } ∧
    exec (.cfgWrite 0x02#8 v) s = .next { s with inverted := v.getLsbD 0, tolsel := v.extractLsb' 1 2 } ∧
    exec (.cfgWrite 0x03#8 v) s = .next { s with syncbits := v.extractLsb' 0 16 } ∧
    exec (.cfgWrite 0x04#8 v) s = .next { s with startSample := v } ∧
    exec (.cfgWrite 0x05#8 v) s = .next { s with startLevel := if v.getLsbD 0 then .high else .low } ∧
    ∀ r : BitVec 8, 5 < r.toNat → exec (.cfgWrite r v) s = .next { s with badCmd := true }

/-- 40_control.md R102, 46_output_records.md R248: REG_READ of each of the 14 numbers of R86 emits REG_VALUE with the register's value
and does nothing else; every other number sets BAD_CMD. -/
def Obligations.RegReadEmitsTheValue : Prop :=
  ∀ s : State,
    (∀ p ∈ [(0x00#8, Reg.bitrate), (0x01#8, .samplerate), (0x02#8, .ctrl), (0x03#8, .syncbits), (0x04#8, .startSample),
        (0x05#8, .startLevel), (0x10#8, .halfbit), (0x11#8, .tol), (0x12#8, .rsync), (0x13#8, .status), (0x14#8, .synccount),
        (0x15#8, .pktseq), (0x16#8, .cursample), (0x17#8, .curlevel)],
      exec (.regRead p.1) s = .next { s with out := s.out ++ [.regValue p.2 (readReg p.2 s)] }) ∧
    ∀ r : BitVec 8, 5 < r.toNat ∧ r.toNat < 0x10 ∨ 0x17 < r.toNat → exec (.regRead r) s = .next { s with badCmd := true }

/-- 60_exceptions.md R266, 40_control.md R103: an invalid configuration is refused: CFG_ERR, the decoder stopped, the lookahead emptied,
nothing else. -/
def Obligations.StartRefusesAnInvalidConfiguration : Prop :=
  ∀ s : State,
    s.bitrate.toNat < 1 ∨ 100000000 < s.bitrate.toNat ∨ s.tolsel = 3#2 ∨ s.samplerate.toNat < 8 * s.bitrate.toNat →
      exec .start s = .next { s with running := false, nextValid := false, cfgErr := true }

/-- 40_control.md R104 to R106: START with a valid configuration. T is the rounded half-bit count, TOL the floored quotient and at least
3, and the state machine takes its start condition; the configuration, BAD_CMD, ORDER_ERR and OUT stay. -/
def Obligations.StartBeginsARun : Prop :=
  ∀ s : State,
    1 ≤ s.bitrate.toNat → s.bitrate.toNat ≤ 100000000 → s.tolsel ≠ 3#2 → 8 * s.bitrate.toNat ≤ s.samplerate.toNat →
      let t := (s.samplerate.toNat + s.bitrate.toNat) / (2 * s.bitrate.toNat)
      let q := if s.tolsel = 0#2 then t / 2 else if s.tolsel = 1#2 then t / 10 else t / 100
      exec .start s = .next
        { s with
          halfbit := BitVec.ofNat 32 t, tol := BitVec.ofNat 32 (max 3 q),
          invL := s.inverted, srL := s.samplerate,
          rsync := if s.syncbits = 0#16 then 16#16 else s.syncbits,
          cursample := s.startSample, curlevel := s.startLevel, horizon := s.startSample,
          synccount := 0#32, pktseq := 0#64, bitidx := 0#4, byteAcc := 0#8,
          runStart := 0#64, l5Start := 0#64, byteStart := 0#64, lastDataEnd := 0#64, probeBase := 0#64,
          nextValid := false, nextSample := 0#64, phase := .scan, running := true, cfgErr := false }

/-- 40_control.md R108: after a successful START, HALFBIT is at least 4 and at most 2^31 (so its 32 bits hold the exact quotient), and
TOL lies between 3 and HALFBIT - 1, so every window's lower bound is at least 1. -/
def Obligations.StartLeavesLegalTiming : Prop :=
  ∀ s t : State, exec .start s = .next t → t.running = true →
    4 ≤ t.halfbit.toNat ∧ t.halfbit.toNat < 2 ^ 31 + 1 ∧ 3 ≤ t.tol.toNat ∧ t.tol.toNat ≤ t.halfbit.toNat - 1 ∧
      (∀ c : IntervalClass, t.tol.toNat + 1 ≤ classMultiple c * t.halfbit.toNat) ∧
      t.halfbit.toNat = (s.samplerate.toNat + s.bitrate.toNat) / (2 * s.bitrate.toNat) ∧
      1 ≤ t.rsync.toNat

/-- 40_control.md R107: CANCEL stops a running decoder and keeps every other register but the lookahead flag; stopped, it does nothing. -/
def Obligations.CancelOnlyStops : Prop :=
  ∀ s : State, exec .cancel s = .next (if s.running = true then { s with running := false, nextValid := false } else s)

/-- 20_memory.md R72, 70_reset_and_hazards.md R294: a write to a configuration register and the performing of EDGE, QUIET or CANCEL do
not disturb each other: both orders complete and give the same state, so a running decode does not see the new value. -/
def Obligations.ConfigurationWaitsForStart : Prop :=
  ∀ (r : Reg) (v : Word64) (i : Instr) (s s1 : State), writeReg r v s = some s1 →
    (i = .cancel ∨ (∃ e, i = .edge e) ∨ ∃ h, i = .quiet h) →
      ∃ t t1, exec i s = .next t ∧ writeReg r v t = some t1 ∧ exec i s1 = .next t1

/-! ## 41_classifier.md -/

/-- 41_classifier.md R134: `classify` gives the candidate class of smallest multiple whose window holds the distance, and no class
exactly when no candidate's window holds it. -/
def Obligations.ClassifyPrefersTheSmallestWindow : Prop :=
  ∀ (t tol : Nat) (d : Int) (cands : List IntervalClass),
    (∀ c, classify t tol d cands = some c ↔
      c ∈ cands ∧ (classMultiple c * t : Int) - tol ≤ d ∧ d ≤ (classMultiple c * t : Int) + tol ∧
        ∀ c' ∈ cands, classMultiple c' < classMultiple c →
          ¬((classMultiple c' * t : Int) - tol ≤ d ∧ d ≤ (classMultiple c' * t : Int) + tol)) ∧
    (classify t tol d cands = none ↔
      ∀ c ∈ cands, ¬((classMultiple c * t : Int) - tol ≤ d ∧ d ≤ (classMultiple c * t : Int) + tol))

/-- 41_classifier.md R137: with legal timing, the upper bound of a candidate's window gives that class, and one sample more is outside
its window. -/
def Obligations.UpperBoundBelongsToItsClass : Prop :=
  ∀ (t tol : Nat) (c : IntervalClass) (cands : List IntervalClass), 4 ≤ t → tol + 1 ≤ t → c ∈ cands →
    classify t tol (classMultiple c * t + tol : Nat) cands = some c ∧
      classify t tol (classMultiple c * t + tol + 1 : Nat) [c] = none

/-- 41_classifier.md R138: two windows share a distance exactly when the difference of their centres is at most twice the tolerance;
with legal timing those are only Half with Full and Long4 with Long5, and only when T ≤ 2 TOL. -/
def Obligations.OnlyNeighbouringWindowsOverlap : Prop :=
  ∀ (t tol : Nat) (c c' : IntervalClass), classMultiple c < classMultiple c' →
    ((∃ d : Int, inWindow t tol d c = true ∧ inWindow t tol d c' = true) ↔
      (classMultiple c' - classMultiple c) * t ≤ 2 * tol) ∧
    (4 ≤ t → tol + 1 ≤ t → (∃ d : Int, inWindow t tol d c = true ∧ inWindow t tol d c' = true) →
      (c = .half ∧ c' = .full ∨ c = .long4 ∧ c' = .long5) ∧ t ≤ 2 * tol)

/-! ## 42_edge_input.md: EDGE and QUIET -/

/-- 42_edge_input.md R151: an EDGE or QUIET while the decoder is stopped changes nothing. -/
def Obligations.StoppedBlockDiscardsEdges : Prop :=
  ∀ (s : State) (n : Sample), s.running = false → exec (.edge n) s = .next s ∧ exec (.quiet n) s = .next s

/-- 42_edge_input.md R152: an EDGE at or before the cursor or the horizon sets ORDER_ERR, stops the decoder, empties the lookahead, and
changes nothing else. -/
def Obligations.EdgeOutOfOrderStopsTheDecoder : Prop :=
  ∀ (s : State) (e : Sample), s.running = true → e.toNat ≤ s.cursample.toNat ∨ e.toNat ≤ s.horizon.toNat →
    exec (.edge e) s = .next { s with orderErr := true, running := false, nextValid := false }

/-- 42_edge_input.md R153, R155, R158, 20_memory.md R66: in every phase, an accepted EDGE is consumed exactly once in its own step: the
cursor ends at it, the level is inverted once, the lookahead is empty; and the step writes no configuration register, no latch,
no interface status bit and not the horizon. -/
def Obligations.AcceptedEdgeIsConsumedOnce : Prop :=
  ∀ (s : State) (e : Sample), EdgeAccepted e s → s.nextValid = false → ∃ t, exec (.edge e) s = .next t ∧
    t.cursample = e ∧ t.curlevel = (if s.curlevel = .low then .high else .low) ∧ t.nextValid = false ∧
    t.bitrate = s.bitrate ∧ t.samplerate = s.samplerate ∧ t.inverted = s.inverted ∧ t.tolsel = s.tolsel ∧
    t.syncbits = s.syncbits ∧ t.startSample = s.startSample ∧ t.startLevel = s.startLevel ∧
    t.halfbit = s.halfbit ∧ t.tol = s.tol ∧ t.rsync = s.rsync ∧ t.invL = s.invL ∧ t.srL = s.srL ∧
    t.running = true ∧ t.badCmd = s.badCmd ∧ t.orderErr = s.orderErr ∧ t.cfgErr = s.cfgErr ∧
    t.horizon = s.horizon ∧ t.input = s.input ∧ t.issuer = s.issuer

/-- 42_edge_input.md R156: outside STOP_PROBE, QUIET raises the horizon to the greater of the two and does nothing else. -/
def Obligations.QuietRaisesTheHorizon : Prop :=
  ∀ (s : State) (h : Sample), s.running = true → s.phase ≠ .stopProbe →
    exec (.quiet h) s = .next { s with horizon := if s.horizon.toNat < h.toNat then h else s.horizon }

/-- 45_stop_detect.md R224, R225, 42_edge_input.md R159: QUIET in STOP_PROBE. The horizon is raised; below `PROBE_BASE + 2T` the probe
waits; from there on STOP is confirmed: the Stop frame with its commit and progress, the Stop marker, SYNCCOUNT 0, SCAN. -/
def Obligations.QuietSettlesTheProbe : Prop :=
  ∀ (s : State) (h : Sample), s.running = true → s.phase = .stopProbe → s.nextValid = false → s.probeBase = s.cursample →
    let raised := if s.horizon.toNat < h.toNat then h else s.horizon
    let stopEnd := trunc64 ((s.probeBase.toNat : Int) + 2 * s.halfbit.toNat)
    exec (.quiet h) s = .next
      (if raised.toNat < s.probeBase.toNat + 2 * s.halfbit.toNat then { s with horizon := raised }
        else
          { s with
            horizon := raised, synccount := 0#32, phase := .scan,
            out := s.out ++
              [.frame .stop (trunc64 ((s.lastDataEnd.toNat : Int) + 1)) stopEnd 0#64 0#64 0#32, .commit, .progress stopEnd,
                .marker .stop s.probeBase] })

/-- 42_edge_input.md R155, R158, R159, 45_stop_detect.md R224 to R227: EDGE in STOP_PROBE with legal timing. At most `2T` after the
probe base it is a STOP-verification error, ErrorDot at the probe base; later it confirms STOP. In the same step the transition is
consumed in SCAN from the probe base: a `Half` begins a run there, anything else leaves no run. -/
def Obligations.EdgeSettlesTheProbe : Prop :=
  ∀ (s : State) (e : Sample), EdgeAccepted e s → TimingLegal s → s.phase = .stopProbe → s.probeBase = s.cursample →
    let stopEnd := trunc64 ((s.probeBase.toNat : Int) + 2 * s.halfbit.toNat)
    exec (.edge e) s = .next
      (if s.probeBase.toNat + 2 * s.halfbit.toNat < e.toNat then
          { s with
            cursample := e, curlevel := otherLevel s.curlevel, nextValid := false, nextSample := e,
            synccount := 0#32, phase := .scan,
            out := s.out ++
              [.frame .stop (trunc64 ((s.lastDataEnd.toNat : Int) + 1)) stopEnd 0#64 0#64 0#32, .commit, .progress stopEnd,
                .marker .stop s.probeBase] }
        else if intervalIn 1 e s then
          { s with
            cursample := e, curlevel := otherLevel s.curlevel, nextValid := false, nextSample := e,
            runStart := s.probeBase, synccount := 1#32, phase := .scan,
            out := s.out ++ [.marker .errorDot s.probeBase] }
        else
          { s with
            cursample := e, curlevel := otherLevel s.curlevel, nextValid := false, nextSample := e,
            synccount := 0#32, phase := .scan,
            out := s.out ++ [.marker .errorDot s.probeBase] })

/-! ## 43_preamble_scan.md: SCAN, START_NEXT, START_HALF -/

/-- 43_preamble_scan.md R171 to R174: EDGE in SCAN. A `Half` is counted (saturating), the first one setting RUN_START; a `Long5` after a
long enough run that closes at ONE_LEVEL opens the START lookahead; anything else clears the run silently. -/
def Obligations.EdgeInScan : Prop :=
  ∀ (s : State) (e : Sample), EdgeAccepted e s → s.phase = .scan →
    exec (.edge e) s = .next
      (if intervalIn 1 e s then
          { s with
            cursample := e, curlevel := otherLevel s.curlevel,
            runStart := if s.synccount = 0#32 then s.cursample else s.runStart,
            synccount := if s.synccount = 0xFFFFFFFF#32 then s.synccount else s.synccount + 1#32 }
        else if intervalIn 5 e s ∧ 2 * s.rsync.toNat ≤ s.synccount.toNat ∧
            otherLevel s.curlevel = (if s.invL then .high else .low) then
          { s with cursample := e, curlevel := otherLevel s.curlevel, l5Start := s.cursample, phase := .startNext }
        else { s with cursample := e, curlevel := otherLevel s.curlevel, synccount := 0#32 })

/-- 43_preamble_scan.md R175: EDGE in START_NEXT. A `Long4` waits for its `Half`, a `Long5` synchronizes at once, anything else
clears the run silently and scans on. -/
def Obligations.EdgeInStartNext : Prop :=
  ∀ (s : State) (e : Sample), EdgeAccepted e s → s.phase = .startNext →
    exec (.edge e) s = .next
      (if intervalIn 4 e s then { s with cursample := e, curlevel := otherLevel s.curlevel, phase := .startHalf }
        else if intervalIn 5 e s then syncSuccess e { s with cursample := e, curlevel := otherLevel s.curlevel }
        else { s with cursample := e, curlevel := otherLevel s.curlevel, synccount := 0#32, phase := .scan })

/-- 43_preamble_scan.md R176, 60_exceptions.md R262: EDGE in START_HALF. A `Half` synchronizes; anything else is an ErrorDot at the
transition, and no Sync or Start frame. -/
def Obligations.EdgeInStartHalf : Prop :=
  ∀ (s : State) (e : Sample), EdgeAccepted e s → s.phase = .startHalf →
    exec (.edge e) s = .next
      (if intervalIn 1 e s then syncSuccess e { s with cursample := e, curlevel := otherLevel s.curlevel }
        else
          { s with
            cursample := e, curlevel := otherLevel s.curlevel, synccount := 0#32, phase := .scan,
            out := s.out ++ [.marker .errorDot e] })

/-- 43_preamble_scan.md R177 to R179: a successful synchronization at `pf`, with a run that ended after it began. Exactly 8 records: the
Sync frame with the number of sync bits and the rate estimate, the Start frame with the new packet number, each with its commit and
progress, the Start marker, and the first data bit's marker; the first bit opens the byte. -/
def Obligations.SynchronizationEmitsEightRecords : Prop :=
  ∀ (s : State) (pf : Sample), s.runStart.toNat < s.l5Start.toNat →
    let n := s.synccount.toNat / 2
    let syncEnd := trunc64 ((s.l5Start.toNat : Int) + s.halfbit.toNat - 1)
    let startEnd := trunc64 ((pf.toNat : Int) - s.halfbit.toNat - 1)
    let rate := BitVec.ofNat 64 (s.srL.toNat * n / (s.l5Start.toNat - s.runStart.toNat))
    let isOne := s.curlevel = (if s.invL then .high else .low)
    syncSuccess pf s =
      { s with
        pktseq := s.pktseq + 1#64, synccount := 0#32, phase := .bitFirst, bitidx := 1#4,
        byteStart := trunc64 ((pf.toNat : Int) - s.halfbit.toNat),
        byteAcc := if isOne then 1#8 else 0#8,
        out := s.out ++
          [.frame .sync s.runStart syncEnd (BitVec.ofNat 64 n) rate 0#32, .commit, .progress syncEnd,
            .frame .start (trunc64 ((s.l5Start.toNat : Int) + s.halfbit.toNat)) startEnd (s.pktseq + 1#64) 0#64 0#32, .commit,
            .progress startEnd, .marker .start pf, .marker (if isOne then .one else .zero) pf] }

/-- 43_preamble_scan.md R178, R179: in a consistent running START lookahead the spans are non-empty and the divisor of the rate estimate
is at least 2; the packet's synchronization point lies at least `7T + 3` after L5_START. -/
def Obligations.StartLookaheadSpansAreNonEmpty : Prop :=
  ∀ (s : State) (e : Sample), Consistent s → EdgeAccepted e s →
    (s.phase = .startNext ∧ intervalIn 5 e s) ∨ (s.phase = .startHalf ∧ intervalIn 1 e s) →
      s.runStart.toNat + 2 ≤ s.l5Start.toNat ∧ s.l5Start.toNat + 7 * s.halfbit.toNat + 3 ≤ e.toNat

/-! ## 44_byte_decode.md -/

/-- 44_byte_decode.md R201 to R203: reading a bit before the eighth. The marker is at the decision edge, the bit is 1 exactly at
ONE_LEVEL, it enters the byte at its least significant end, bit 1 starts a new byte at `s - T`, and BIT_FIRST waits for the next. -/
def Obligations.ReadingABitShiftsItIn : Prop :=
  ∀ (s : State) (j : Nat) (e : Sample), 1 ≤ j → j < 8 →
    let isOne := s.curlevel = (if s.invL then .high else .low)
    readBit j e s =
      { s with
        out := s.out ++ [.marker (if isOne then .one else .zero) e],
        byteStart := if j = 1 then trunc64 ((e.toNat : Int) - s.halfbit.toNat) else s.byteStart,
        byteAcc := (if j = 1 then 0#8 else s.byteAcc <<< 1) ||| (if isOne then 1#8 else 0#8),
        bitidx := BitVec.ofNat 4 j, phase := .bitFirst }

/-- 44_byte_decode.md R201, R206: reading the eighth bit at `e` also emits the Data frame `[BYTE_START, e + T]` with the whole byte,
its commit and progress, sets LAST_DATA_END, and goes on to STOP detection. -/
def Obligations.EighthBitEmitsTheDataFrame : Prop :=
  ∀ (s : State) (e : Sample),
    let isOne := s.curlevel = (if s.invL then .high else .low)
    let byte := s.byteAcc <<< 1 ||| (if isOne then 1#8 else 0#8)
    let dataEnd := trunc64 ((e.toNat : Int) + s.halfbit.toNat)
    readBit 8 e s =
      { s with
        out := s.out ++
          [.marker (if isOne then .one else .zero) e, .frame .data s.byteStart dataEnd (byte.setWidth 64) 0#64 0#32, .commit,
            .progress dataEnd],
        byteAcc := byte, bitidx := 8#4, lastDataEnd := dataEnd, phase := .stopFirst }

/-- 44_byte_decode.md R203: eight bits shifted in from 0 make the byte whose bit 7 is the first and bit 0 the eighth. -/
def Obligations.FirstBitBecomesBitSeven : Prop :=
  ∀ b1 b2 b3 b4 b5 b6 b7 b8 : Bool,
    let byte := [b1, b2, b3, b4, b5, b6, b7, b8].foldl shiftIn 0#8
    byte.getLsbD 7 = b1 ∧ byte.getLsbD 6 = b2 ∧ byte.getLsbD 5 = b3 ∧ byte.getLsbD 4 = b4 ∧
    byte.getLsbD 3 = b5 ∧ byte.getLsbD 2 = b6 ∧ byte.getLsbD 1 = b7 ∧ byte.getLsbD 0 = b8

/-- 44_byte_decode.md R204, 60_exceptions.md R262: EDGE in BIT_FIRST. A `Half` waits for a second one, a `Full` reads the next bit,
anything else is an ErrorDot at the transition and no Data frame. -/
def Obligations.EdgeInBitFirst : Prop :=
  ∀ (s : State) (e : Sample), EdgeAccepted e s → s.phase = .bitFirst →
    exec (.edge e) s = .next
      (if intervalIn 1 e s then { s with cursample := e, curlevel := otherLevel s.curlevel, phase := .bitSecond }
        else if intervalIn 2 e s then
          readBit (s.bitidx.toNat + 1) e { s with cursample := e, curlevel := otherLevel s.curlevel }
        else
          { s with
            cursample := e, curlevel := otherLevel s.curlevel, synccount := 0#32, phase := .scan,
            out := s.out ++ [.marker .errorDot e] })

/-- 44_byte_decode.md R205, 60_exceptions.md R262: EDGE in BIT_SECOND. A second `Half` reads the next bit, anything else is an ErrorDot
at the transition and no Data frame. -/
def Obligations.EdgeInBitSecond : Prop :=
  ∀ (s : State) (e : Sample), EdgeAccepted e s → s.phase = .bitSecond →
    exec (.edge e) s = .next
      (if intervalIn 1 e s then
          readBit (s.bitidx.toNat + 1) e { s with cursample := e, curlevel := otherLevel s.curlevel }
        else
          { s with
            cursample := e, curlevel := otherLevel s.curlevel, synccount := 0#32, phase := .scan,
            out := s.out ++ [.marker .errorDot e] })

/-! ## 45_stop_detect.md -/

/-- 45_stop_detect.md R221, R223, 60_exceptions.md R262: EDGE in STOP_FIRST, smaller class first. A `Half` waits for the second interval,
a `Full` reads bit 1 of the next byte, a `Long4` is an error, a `Long5` opens the probe at the transition, anything else is an error. -/
def Obligations.EdgeInStopFirst : Prop :=
  ∀ (s : State) (e : Sample), EdgeAccepted e s → s.phase = .stopFirst →
    exec (.edge e) s = .next
      (if intervalIn 1 e s then { s with cursample := e, curlevel := otherLevel s.curlevel, phase := .stopSecond }
        else if intervalIn 2 e s then readBit 1 e { s with cursample := e, curlevel := otherLevel s.curlevel }
        else if intervalIn 5 e s ∧ ¬intervalIn 4 e s then
          { s with cursample := e, curlevel := otherLevel s.curlevel, probeBase := e, phase := .stopProbe }
        else
          { s with
            cursample := e, curlevel := otherLevel s.curlevel, synccount := 0#32, phase := .scan,
            out := s.out ++ [.marker .errorDot e] })

/-- 45_stop_detect.md R222, R223, 60_exceptions.md R262: EDGE in STOP_SECOND. A `Half` reads bit 1 of the next byte, a `Long4` opens the
probe at the transition, anything else is an error. -/
def Obligations.EdgeInStopSecond : Prop :=
  ∀ (s : State) (e : Sample), EdgeAccepted e s → s.phase = .stopSecond →
    exec (.edge e) s = .next
      (if intervalIn 1 e s then readBit 1 e { s with cursample := e, curlevel := otherLevel s.curlevel }
        else if intervalIn 4 e s then
          { s with cursample := e, curlevel := otherLevel s.curlevel, probeBase := e, phase := .stopProbe }
        else
          { s with
            cursample := e, curlevel := otherLevel s.curlevel, synccount := 0#32, phase := .scan,
            out := s.out ++ [.marker .errorDot e] })

/-! ## 46_output_records.md -/

/-- 46_output_records.md R241: each FRAME row, driven by the block, appends its record to OUT and does nothing else. Which side drives a
transaction is the model's own field (notes/assumptions/3.md). -/
def Obligations.BlockEmitsFrames : Prop :=
  ∀ (s : State) (a b : Sample) (p q : Word64) (f : Word32), s.issuer = .block →
    exec (.frameSync a b p q f) s = .next { s with out := s.out ++ [.frame .sync a b p q f] } ∧
    exec (.frameStart a b p q f) s = .next { s with out := s.out ++ [.frame .start a b p q f] } ∧
    exec (.frameData a b p q f) s = .next { s with out := s.out ++ [.frame .data a b p q f] } ∧
    exec (.frameStop a b p q f) s = .next { s with out := s.out ++ [.frame .stop a b p q f] }

/-- 46_output_records.md R244: each MARKER row, driven by the block, appends its record to OUT and does nothing else (the driving side:
notes/assumptions/3.md). -/
def Obligations.BlockEmitsMarkers : Prop :=
  ∀ (s : State) (a : Sample), s.issuer = .block →
    exec (.markerOne a) s = .next { s with out := s.out ++ [.marker .one a] } ∧
    exec (.markerZero a) s = .next { s with out := s.out ++ [.marker .zero a] } ∧
    exec (.markerStart a) s = .next { s with out := s.out ++ [.marker .start a] } ∧
    exec (.markerStop a) s = .next { s with out := s.out ++ [.marker .stop a] } ∧
    exec (.markerErrorDot a) s = .next { s with out := s.out ++ [.marker .errorDot a] }

/-- 46_output_records.md R246 to R248: COMMIT, PROGRESS and REG_VALUE of an assigned register, driven by the block, append their record
to OUT and do nothing else (the driving side: notes/assumptions/3.md). -/
def Obligations.BlockEmitsCommitProgressAndValues : Prop :=
  ∀ (s : State) (a : Sample) (r : Reg) (v : Word64), s.issuer = .block →
    exec .commit s = .next { s with out := s.out ++ [.commit] } ∧
    exec (.progress a) s = .next { s with out := s.out ++ [.progress a] } ∧
    exec (.regValue (regNumber r) v) s = .next { s with out := s.out ++ [.regValue r v] }

/-- 30_encoding.md R91: an output record driven by the host, whichever of the twelve rows, sets BAD_CMD and does nothing else: the host
cannot inject records into OUT. -/
def Obligations.HostCannotInjectRecords : Prop :=
  ∀ (s : State) (i : Instr), s.issuer = .host → i.isHostCommand = false → exec i s = .next { s with badCmd := true }

/-- 20_memory.md R69, 46_output_records.md R246: a COMMIT publishes every FRAME and MARKER before it, and a record emitted after the
last COMMIT is not published. -/
def Obligations.CommitPublishesWhatStandsBefore : Prop :=
  ∀ out later : List Record, Record.commit ∉ later →
    published (out ++ [.commit] ++ later) =
      out.filter fun r =>
        match r with
        | .frame _ _ _ _ _ _ => true
        | .marker _ _ => true
        | .commit => false
        | .progress _ => false
        | .regValue _ _ => false

/-- 70_reset_and_hazards.md R297: no frame is lost. In an OUT that keeps the discipline of R243, every FRAME is published. -/
def Obligations.EveryFrameIsPublished : Prop :=
  ∀ (out : List Record) (k : FrameKind) (a b : Sample) (p q : Word64) (f : Word32), commitDiscipline out = true →
    Record.frame k a b p q f ∈ out → Record.frame k a b p q f ∈ published out

/-! ## The order of frames (46_output_records.md R249) -/

/-- A successful START with a start sample in range emits nothing and begins a consistent run, with no frame of its own yet, that meets
the frame-order invariant. -/
def Obligations.StartBeginsAnOrderedRun : Prop :=
  ∀ s t : State, exec .start s = .next t → t.running = true → s.startSample.toNat < 2 ^ 63 →
    Consistent t ∧ FramesOrdered s.out.length t ∧ t.out = s.out ∧ frameSpans (t.out.drop s.out.length) = []

/-- 46_output_records.md R249, one step: every step of a run keeps the frames of the run in strictly increasing order of start and of
end samples, with the bound for the next one. -/
def Obligations.StepKeepsFramesOrdered : Prop :=
  ∀ (n : Nat) (s t : State), Consistent s → FramesOrdered n s → (∀ e ∈ s.input, continuesRun e = true) → step s = .next t →
    FramesOrdered n t

/-- 46_output_records.md R249, R242: over one run, from a successful START on, whatever transactions the host sends (sample numbers
below 2^63, no START, no reset), the frames emitted so far have strictly increasing start samples and strictly increasing end
samples, and none ends before it starts. What the host sends stands in `input` (the model's choice, notes/assumptions/1.md). -/
def Obligations.FramesOfARunRise : Prop :=
  ∀ (s s0 t : State) (k : Nat), exec .start s = .next s0 → s0.running = true → s.startSample.toNat < 2 ^ 63 →
    (∀ e ∈ s0.input, continuesRun e = true) → Sys2Proof.core.run k s0 = .next t →
      SpansRise (frameSpans (t.out.drop s.out.length)) ∧ ∀ f ∈ frameSpans (t.out.drop s.out.length), f.1 ≤ f.2

/-! ## Packets (46_output_records.md R250) -/

/-- 46_output_records.md R250: on an ideal line, with any legal timing and either polarity, a packet of one or more bytes followed by
silence (the probe settled by a QUIET) decodes to one Sync frame with the number of sync bits, one Start frame with the next packet number, the bytes in order as Data
frames, and one Stop frame, with no ErrorDot, and the block scans again. -/
def Obligations.ValidPacketDecodesToItsBytes : Prop :=
  ∀ (s : State) (bytes : List Byte), s.running = true → TimingLegal s → s.phase = .scan → s.synccount = 0#32 →
    s.nextValid = false → s.horizon.toNat ≤ s.cursample.toNat → bytes ≠ [] →
    let shape := packetIntervals s.rsync.toNat (oneLevel s) s.curlevel bytes
    let last := s.cursample.toNat + shape.sum * s.halfbit.toNat
    last + 2 * s.halfbit.toNat < 2 ^ 63 →
    ∃ (t : State) (recs : List Record),
      perform (edgesOf s.halfbit.toNat s.cursample.toNat shape ++ [.quiet (BitVec.ofNat 64 (last + 2 * s.halfbit.toNat))]) s =
        .next t ∧
      t.out = s.out ++ recs ∧
      frameValues recs =
        [(.sync, s.rsync.setWidth 64), (.start, s.pktseq + 1#64)] ++ bytes.map (fun b => (.data, b.setWidth 64)) ++
          [(.stop, 0#64)] ∧
      hasErrorDot recs = false ∧ t.running = true ∧ t.phase = .scan ∧ t.synccount = 0#32 ∧ t.pktseq = s.pktseq + 1#64

/-- 46_output_records.md R250, 95_test_vectors.md V-RT-1: the same packets off the ideal line. Every interval may lie anywhere in the
window of its class where no smaller class is taken for it, and the probe is settled by a QUIET that covers it or by an EDGE beyond
it. -/
def Obligations.JitteredPacketDecodesToItsBytes : Prop :=
  ∀ (s : State) (bytes : List Byte) (distances : List Nat) (h : Sample) (settling : Instr),
    s.running = true → TimingLegal s → s.phase = .scan → s.synccount = 0#32 → s.nextValid = false →
    s.horizon.toNat ≤ s.cursample.toNat → bytes ≠ [] →
    List.Forall₂ (distanceFits s.halfbit.toNat s.tol.toNat)
      (packetIntervals s.rsync.toNat (oneLevel s) s.curlevel bytes) distances →
    let last := s.cursample.toNat + distances.sum
    (settling = .quiet h ∧ last + 2 * s.halfbit.toNat ≤ h.toNat ∨ settling = .edge h ∧ last + 2 * s.halfbit.toNat < h.toNat) →
    h.toNat < 2 ^ 63 →
    ∃ (t : State) (recs : List Record),
      perform (edgesOf 1 s.cursample.toNat distances ++ [settling]) s = .next t ∧
      t.out = s.out ++ recs ∧
      frameValues recs =
        [(.sync, s.rsync.setWidth 64), (.start, s.pktseq + 1#64)] ++ bytes.map (fun b => (.data, b.setWidth 64)) ++
          [(.stop, 0#64)] ∧
      hasErrorDot recs = false ∧ t.running = true ∧ t.phase = .scan ∧ t.synccount = 0#32 ∧ t.pktseq = s.pktseq + 1#64
end

