-- ==== Sys2Proof/Laws/State.lean ====
section
/-! SUPPORT. One lemma per field and update, so that no later proof unfolds a record update. -/

namespace Sys2Proof.Machine

/-! ## emit -/

@[simp] theorem emit_bitrate (r : Record) (s : State) : (emit r s).bitrate = s.bitrate := rfl
@[simp] theorem emit_samplerate (r : Record) (s : State) : (emit r s).samplerate = s.samplerate := rfl
@[simp] theorem emit_inverted (r : Record) (s : State) : (emit r s).inverted = s.inverted := rfl
@[simp] theorem emit_tolsel (r : Record) (s : State) : (emit r s).tolsel = s.tolsel := rfl
@[simp] theorem emit_syncbits (r : Record) (s : State) : (emit r s).syncbits = s.syncbits := rfl
@[simp] theorem emit_startSample (r : Record) (s : State) : (emit r s).startSample = s.startSample := rfl
@[simp] theorem emit_startLevel (r : Record) (s : State) : (emit r s).startLevel = s.startLevel := rfl
@[simp] theorem emit_halfbit (r : Record) (s : State) : (emit r s).halfbit = s.halfbit := rfl
@[simp] theorem emit_tol (r : Record) (s : State) : (emit r s).tol = s.tol := rfl
@[simp] theorem emit_rsync (r : Record) (s : State) : (emit r s).rsync = s.rsync := rfl
@[simp] theorem emit_invL (r : Record) (s : State) : (emit r s).invL = s.invL := rfl
@[simp] theorem emit_srL (r : Record) (s : State) : (emit r s).srL = s.srL := rfl
@[simp] theorem emit_running (r : Record) (s : State) : (emit r s).running = s.running := rfl
@[simp] theorem emit_badCmd (r : Record) (s : State) : (emit r s).badCmd = s.badCmd := rfl
@[simp] theorem emit_orderErr (r : Record) (s : State) : (emit r s).orderErr = s.orderErr := rfl
@[simp] theorem emit_cfgErr (r : Record) (s : State) : (emit r s).cfgErr = s.cfgErr := rfl
@[simp] theorem emit_phase (r : Record) (s : State) : (emit r s).phase = s.phase := rfl
@[simp] theorem emit_bitidx (r : Record) (s : State) : (emit r s).bitidx = s.bitidx := rfl
@[simp] theorem emit_synccount (r : Record) (s : State) : (emit r s).synccount = s.synccount := rfl
@[simp] theorem emit_pktseq (r : Record) (s : State) : (emit r s).pktseq = s.pktseq := rfl
@[simp] theorem emit_cursample (r : Record) (s : State) : (emit r s).cursample = s.cursample := rfl
@[simp] theorem emit_curlevel (r : Record) (s : State) : (emit r s).curlevel = s.curlevel := rfl
@[simp] theorem emit_runStart (r : Record) (s : State) : (emit r s).runStart = s.runStart := rfl
@[simp] theorem emit_l5Start (r : Record) (s : State) : (emit r s).l5Start = s.l5Start := rfl
@[simp] theorem emit_byteStart (r : Record) (s : State) : (emit r s).byteStart = s.byteStart := rfl
@[simp] theorem emit_byteAcc (r : Record) (s : State) : (emit r s).byteAcc = s.byteAcc := rfl
@[simp] theorem emit_lastDataEnd (r : Record) (s : State) : (emit r s).lastDataEnd = s.lastDataEnd := rfl
@[simp] theorem emit_probeBase (r : Record) (s : State) : (emit r s).probeBase = s.probeBase := rfl
@[simp] theorem emit_nextValid (r : Record) (s : State) : (emit r s).nextValid = s.nextValid := rfl
@[simp] theorem emit_nextSample (r : Record) (s : State) : (emit r s).nextSample = s.nextSample := rfl
@[simp] theorem emit_horizon (r : Record) (s : State) : (emit r s).horizon = s.horizon := rfl
@[simp] theorem emit_out (r : Record) (s : State) : (emit r s).out = s.out ++ [r] := rfl
@[simp] theorem emit_input (r : Record) (s : State) : (emit r s).input = s.input := rfl
@[simp] theorem emit_issuer (r : Record) (s : State) : (emit r s).issuer = s.issuer := rfl

/-! ## discardMalformed -/

@[simp] theorem discardMalformed_bitrate (s : State) : (discardMalformed s).bitrate = s.bitrate := rfl
@[simp] theorem discardMalformed_samplerate (s : State) : (discardMalformed s).samplerate = s.samplerate := rfl
@[simp] theorem discardMalformed_inverted (s : State) : (discardMalformed s).inverted = s.inverted := rfl
@[simp] theorem discardMalformed_tolsel (s : State) : (discardMalformed s).tolsel = s.tolsel := rfl
@[simp] theorem discardMalformed_syncbits (s : State) : (discardMalformed s).syncbits = s.syncbits := rfl
@[simp] theorem discardMalformed_startSample (s : State) : (discardMalformed s).startSample = s.startSample := rfl
@[simp] theorem discardMalformed_startLevel (s : State) : (discardMalformed s).startLevel = s.startLevel := rfl
@[simp] theorem discardMalformed_halfbit (s : State) : (discardMalformed s).halfbit = s.halfbit := rfl
@[simp] theorem discardMalformed_tol (s : State) : (discardMalformed s).tol = s.tol := rfl
@[simp] theorem discardMalformed_rsync (s : State) : (discardMalformed s).rsync = s.rsync := rfl
@[simp] theorem discardMalformed_invL (s : State) : (discardMalformed s).invL = s.invL := rfl
@[simp] theorem discardMalformed_srL (s : State) : (discardMalformed s).srL = s.srL := rfl
@[simp] theorem discardMalformed_running (s : State) : (discardMalformed s).running = s.running := rfl
@[simp] theorem discardMalformed_badCmd (s : State) : (discardMalformed s).badCmd = true := rfl
@[simp] theorem discardMalformed_orderErr (s : State) : (discardMalformed s).orderErr = s.orderErr := rfl
@[simp] theorem discardMalformed_cfgErr (s : State) : (discardMalformed s).cfgErr = s.cfgErr := rfl
@[simp] theorem discardMalformed_phase (s : State) : (discardMalformed s).phase = s.phase := rfl
@[simp] theorem discardMalformed_bitidx (s : State) : (discardMalformed s).bitidx = s.bitidx := rfl
@[simp] theorem discardMalformed_synccount (s : State) : (discardMalformed s).synccount = s.synccount := rfl
@[simp] theorem discardMalformed_pktseq (s : State) : (discardMalformed s).pktseq = s.pktseq := rfl
@[simp] theorem discardMalformed_cursample (s : State) : (discardMalformed s).cursample = s.cursample := rfl
@[simp] theorem discardMalformed_curlevel (s : State) : (discardMalformed s).curlevel = s.curlevel := rfl
@[simp] theorem discardMalformed_runStart (s : State) : (discardMalformed s).runStart = s.runStart := rfl
@[simp] theorem discardMalformed_l5Start (s : State) : (discardMalformed s).l5Start = s.l5Start := rfl
@[simp] theorem discardMalformed_byteStart (s : State) : (discardMalformed s).byteStart = s.byteStart := rfl
@[simp] theorem discardMalformed_byteAcc (s : State) : (discardMalformed s).byteAcc = s.byteAcc := rfl
@[simp] theorem discardMalformed_lastDataEnd (s : State) : (discardMalformed s).lastDataEnd = s.lastDataEnd := rfl
@[simp] theorem discardMalformed_probeBase (s : State) : (discardMalformed s).probeBase = s.probeBase := rfl
@[simp] theorem discardMalformed_nextValid (s : State) : (discardMalformed s).nextValid = s.nextValid := rfl
@[simp] theorem discardMalformed_nextSample (s : State) : (discardMalformed s).nextSample = s.nextSample := rfl
@[simp] theorem discardMalformed_horizon (s : State) : (discardMalformed s).horizon = s.horizon := rfl
@[simp] theorem discardMalformed_out (s : State) : (discardMalformed s).out = s.out := rfl
@[simp] theorem discardMalformed_input (s : State) : (discardMalformed s).input = s.input := rfl
@[simp] theorem discardMalformed_issuer (s : State) : (discardMalformed s).issuer = s.issuer := rfl

/-! ## moveCursor -/

@[simp] theorem moveCursor_bitrate (e : Sample) (s : State) : (moveCursor e s).bitrate = s.bitrate := rfl
@[simp] theorem moveCursor_samplerate (e : Sample) (s : State) : (moveCursor e s).samplerate = s.samplerate := rfl
@[simp] theorem moveCursor_inverted (e : Sample) (s : State) : (moveCursor e s).inverted = s.inverted := rfl
@[simp] theorem moveCursor_tolsel (e : Sample) (s : State) : (moveCursor e s).tolsel = s.tolsel := rfl
@[simp] theorem moveCursor_syncbits (e : Sample) (s : State) : (moveCursor e s).syncbits = s.syncbits := rfl
@[simp] theorem moveCursor_startSample (e : Sample) (s : State) : (moveCursor e s).startSample = s.startSample := rfl
@[simp] theorem moveCursor_startLevel (e : Sample) (s : State) : (moveCursor e s).startLevel = s.startLevel := rfl
@[simp] theorem moveCursor_halfbit (e : Sample) (s : State) : (moveCursor e s).halfbit = s.halfbit := rfl
@[simp] theorem moveCursor_tol (e : Sample) (s : State) : (moveCursor e s).tol = s.tol := rfl
@[simp] theorem moveCursor_rsync (e : Sample) (s : State) : (moveCursor e s).rsync = s.rsync := rfl
@[simp] theorem moveCursor_invL (e : Sample) (s : State) : (moveCursor e s).invL = s.invL := rfl
@[simp] theorem moveCursor_srL (e : Sample) (s : State) : (moveCursor e s).srL = s.srL := rfl
@[simp] theorem moveCursor_running (e : Sample) (s : State) : (moveCursor e s).running = s.running := rfl
@[simp] theorem moveCursor_badCmd (e : Sample) (s : State) : (moveCursor e s).badCmd = s.badCmd := rfl
@[simp] theorem moveCursor_orderErr (e : Sample) (s : State) : (moveCursor e s).orderErr = s.orderErr := rfl
@[simp] theorem moveCursor_cfgErr (e : Sample) (s : State) : (moveCursor e s).cfgErr = s.cfgErr := rfl
@[simp] theorem moveCursor_phase (e : Sample) (s : State) : (moveCursor e s).phase = s.phase := rfl
@[simp] theorem moveCursor_bitidx (e : Sample) (s : State) : (moveCursor e s).bitidx = s.bitidx := rfl
@[simp] theorem moveCursor_synccount (e : Sample) (s : State) : (moveCursor e s).synccount = s.synccount := rfl
@[simp] theorem moveCursor_pktseq (e : Sample) (s : State) : (moveCursor e s).pktseq = s.pktseq := rfl
@[simp] theorem moveCursor_cursample (e : Sample) (s : State) : (moveCursor e s).cursample = e := rfl
@[simp] theorem moveCursor_curlevel (e : Sample) (s : State) : (moveCursor e s).curlevel = otherLevel s.curlevel := rfl
@[simp] theorem moveCursor_runStart (e : Sample) (s : State) : (moveCursor e s).runStart = s.runStart := rfl
@[simp] theorem moveCursor_l5Start (e : Sample) (s : State) : (moveCursor e s).l5Start = s.l5Start := rfl
@[simp] theorem moveCursor_byteStart (e : Sample) (s : State) : (moveCursor e s).byteStart = s.byteStart := rfl
@[simp] theorem moveCursor_byteAcc (e : Sample) (s : State) : (moveCursor e s).byteAcc = s.byteAcc := rfl
@[simp] theorem moveCursor_lastDataEnd (e : Sample) (s : State) : (moveCursor e s).lastDataEnd = s.lastDataEnd := rfl
@[simp] theorem moveCursor_probeBase (e : Sample) (s : State) : (moveCursor e s).probeBase = s.probeBase := rfl
@[simp] theorem moveCursor_nextValid (e : Sample) (s : State) : (moveCursor e s).nextValid = s.nextValid := rfl
@[simp] theorem moveCursor_nextSample (e : Sample) (s : State) : (moveCursor e s).nextSample = s.nextSample := rfl
@[simp] theorem moveCursor_horizon (e : Sample) (s : State) : (moveCursor e s).horizon = s.horizon := rfl
@[simp] theorem moveCursor_out (e : Sample) (s : State) : (moveCursor e s).out = s.out := rfl
@[simp] theorem moveCursor_input (e : Sample) (s : State) : (moveCursor e s).input = s.input := rfl
@[simp] theorem moveCursor_issuer (e : Sample) (s : State) : (moveCursor e s).issuer = s.issuer := rfl

/-! ## raiseInvalidInterval -/

@[simp] theorem raiseInvalidInterval_bitrate (e : Sample) (s : State) : (raiseInvalidInterval e s).bitrate = s.bitrate := rfl
@[simp] theorem raiseInvalidInterval_samplerate (e : Sample) (s : State) :
    (raiseInvalidInterval e s).samplerate = s.samplerate := rfl
@[simp] theorem raiseInvalidInterval_inverted (e : Sample) (s : State) : (raiseInvalidInterval e s).inverted = s.inverted := rfl
@[simp] theorem raiseInvalidInterval_tolsel (e : Sample) (s : State) : (raiseInvalidInterval e s).tolsel = s.tolsel := rfl
@[simp] theorem raiseInvalidInterval_syncbits (e : Sample) (s : State) : (raiseInvalidInterval e s).syncbits = s.syncbits := rfl
@[simp] theorem raiseInvalidInterval_startSample (e : Sample) (s : State) :
    (raiseInvalidInterval e s).startSample = s.startSample := rfl
@[simp] theorem raiseInvalidInterval_startLevel (e : Sample) (s : State) :
    (raiseInvalidInterval e s).startLevel = s.startLevel := rfl
@[simp] theorem raiseInvalidInterval_halfbit (e : Sample) (s : State) : (raiseInvalidInterval e s).halfbit = s.halfbit := rfl
@[simp] theorem raiseInvalidInterval_tol (e : Sample) (s : State) : (raiseInvalidInterval e s).tol = s.tol := rfl
@[simp] theorem raiseInvalidInterval_rsync (e : Sample) (s : State) : (raiseInvalidInterval e s).rsync = s.rsync := rfl
@[simp] theorem raiseInvalidInterval_invL (e : Sample) (s : State) : (raiseInvalidInterval e s).invL = s.invL := rfl
@[simp] theorem raiseInvalidInterval_srL (e : Sample) (s : State) : (raiseInvalidInterval e s).srL = s.srL := rfl
@[simp] theorem raiseInvalidInterval_running (e : Sample) (s : State) : (raiseInvalidInterval e s).running = s.running := rfl
@[simp] theorem raiseInvalidInterval_badCmd (e : Sample) (s : State) : (raiseInvalidInterval e s).badCmd = s.badCmd := rfl
@[simp] theorem raiseInvalidInterval_orderErr (e : Sample) (s : State) : (raiseInvalidInterval e s).orderErr = s.orderErr := rfl
@[simp] theorem raiseInvalidInterval_cfgErr (e : Sample) (s : State) : (raiseInvalidInterval e s).cfgErr = s.cfgErr := rfl
@[simp] theorem raiseInvalidInterval_phase (e : Sample) (s : State) : (raiseInvalidInterval e s).phase = .scan := rfl
@[simp] theorem raiseInvalidInterval_bitidx (e : Sample) (s : State) : (raiseInvalidInterval e s).bitidx = s.bitidx := rfl
@[simp] theorem raiseInvalidInterval_synccount (e : Sample) (s : State) : (raiseInvalidInterval e s).synccount = 0#32 := rfl
@[simp] theorem raiseInvalidInterval_pktseq (e : Sample) (s : State) : (raiseInvalidInterval e s).pktseq = s.pktseq := rfl
@[simp] theorem raiseInvalidInterval_cursample (e : Sample) (s : State) : (raiseInvalidInterval e s).cursample = s.cursample := rfl
@[simp] theorem raiseInvalidInterval_curlevel (e : Sample) (s : State) : (raiseInvalidInterval e s).curlevel = s.curlevel := rfl
@[simp] theorem raiseInvalidInterval_runStart (e : Sample) (s : State) : (raiseInvalidInterval e s).runStart = s.runStart := rfl
@[simp] theorem raiseInvalidInterval_l5Start (e : Sample) (s : State) : (raiseInvalidInterval e s).l5Start = s.l5Start := rfl
@[simp] theorem raiseInvalidInterval_byteStart (e : Sample) (s : State) : (raiseInvalidInterval e s).byteStart = s.byteStart := rfl
@[simp] theorem raiseInvalidInterval_byteAcc (e : Sample) (s : State) : (raiseInvalidInterval e s).byteAcc = s.byteAcc := rfl
@[simp] theorem raiseInvalidInterval_lastDataEnd (e : Sample) (s : State) :
    (raiseInvalidInterval e s).lastDataEnd = s.lastDataEnd := rfl
@[simp] theorem raiseInvalidInterval_probeBase (e : Sample) (s : State) : (raiseInvalidInterval e s).probeBase = s.probeBase := rfl
@[simp] theorem raiseInvalidInterval_nextValid (e : Sample) (s : State) : (raiseInvalidInterval e s).nextValid = s.nextValid := rfl
@[simp] theorem raiseInvalidInterval_nextSample (e : Sample) (s : State) :
    (raiseInvalidInterval e s).nextSample = s.nextSample := rfl
@[simp] theorem raiseInvalidInterval_horizon (e : Sample) (s : State) : (raiseInvalidInterval e s).horizon = s.horizon := rfl
@[simp] theorem raiseInvalidInterval_out (e : Sample) (s : State) :
    (raiseInvalidInterval e s).out = s.out ++ [.marker .errorDot e] := rfl
@[simp] theorem raiseInvalidInterval_input (e : Sample) (s : State) : (raiseInvalidInterval e s).input = s.input := rfl
@[simp] theorem raiseInvalidInterval_issuer (e : Sample) (s : State) : (raiseInvalidInterval e s).issuer = s.issuer := rfl

/-! ## raiseStopVerify -/

@[simp] theorem raiseStopVerify_bitrate (s : State) : (raiseStopVerify s).bitrate = s.bitrate := rfl
@[simp] theorem raiseStopVerify_samplerate (s : State) : (raiseStopVerify s).samplerate = s.samplerate := rfl
@[simp] theorem raiseStopVerify_inverted (s : State) : (raiseStopVerify s).inverted = s.inverted := rfl
@[simp] theorem raiseStopVerify_tolsel (s : State) : (raiseStopVerify s).tolsel = s.tolsel := rfl
@[simp] theorem raiseStopVerify_syncbits (s : State) : (raiseStopVerify s).syncbits = s.syncbits := rfl
@[simp] theorem raiseStopVerify_startSample (s : State) : (raiseStopVerify s).startSample = s.startSample := rfl
@[simp] theorem raiseStopVerify_startLevel (s : State) : (raiseStopVerify s).startLevel = s.startLevel := rfl
@[simp] theorem raiseStopVerify_halfbit (s : State) : (raiseStopVerify s).halfbit = s.halfbit := rfl
@[simp] theorem raiseStopVerify_tol (s : State) : (raiseStopVerify s).tol = s.tol := rfl
@[simp] theorem raiseStopVerify_rsync (s : State) : (raiseStopVerify s).rsync = s.rsync := rfl
@[simp] theorem raiseStopVerify_invL (s : State) : (raiseStopVerify s).invL = s.invL := rfl
@[simp] theorem raiseStopVerify_srL (s : State) : (raiseStopVerify s).srL = s.srL := rfl
@[simp] theorem raiseStopVerify_running (s : State) : (raiseStopVerify s).running = s.running := rfl
@[simp] theorem raiseStopVerify_badCmd (s : State) : (raiseStopVerify s).badCmd = s.badCmd := rfl
@[simp] theorem raiseStopVerify_orderErr (s : State) : (raiseStopVerify s).orderErr = s.orderErr := rfl
@[simp] theorem raiseStopVerify_cfgErr (s : State) : (raiseStopVerify s).cfgErr = s.cfgErr := rfl
@[simp] theorem raiseStopVerify_phase (s : State) : (raiseStopVerify s).phase = .scan := rfl
@[simp] theorem raiseStopVerify_bitidx (s : State) : (raiseStopVerify s).bitidx = s.bitidx := rfl
@[simp] theorem raiseStopVerify_synccount (s : State) : (raiseStopVerify s).synccount = 0#32 := rfl
@[simp] theorem raiseStopVerify_pktseq (s : State) : (raiseStopVerify s).pktseq = s.pktseq := rfl
@[simp] theorem raiseStopVerify_cursample (s : State) : (raiseStopVerify s).cursample = s.cursample := rfl
@[simp] theorem raiseStopVerify_curlevel (s : State) : (raiseStopVerify s).curlevel = s.curlevel := rfl
@[simp] theorem raiseStopVerify_runStart (s : State) : (raiseStopVerify s).runStart = s.runStart := rfl
@[simp] theorem raiseStopVerify_l5Start (s : State) : (raiseStopVerify s).l5Start = s.l5Start := rfl
@[simp] theorem raiseStopVerify_byteStart (s : State) : (raiseStopVerify s).byteStart = s.byteStart := rfl
@[simp] theorem raiseStopVerify_byteAcc (s : State) : (raiseStopVerify s).byteAcc = s.byteAcc := rfl
@[simp] theorem raiseStopVerify_lastDataEnd (s : State) : (raiseStopVerify s).lastDataEnd = s.lastDataEnd := rfl
@[simp] theorem raiseStopVerify_probeBase (s : State) : (raiseStopVerify s).probeBase = s.probeBase := rfl
@[simp] theorem raiseStopVerify_nextValid (s : State) : (raiseStopVerify s).nextValid = s.nextValid := rfl
@[simp] theorem raiseStopVerify_nextSample (s : State) : (raiseStopVerify s).nextSample = s.nextSample := rfl
@[simp] theorem raiseStopVerify_horizon (s : State) : (raiseStopVerify s).horizon = s.horizon := rfl
@[simp] theorem raiseStopVerify_out (s : State) : (raiseStopVerify s).out = s.out ++ [.marker .errorDot s.probeBase] := rfl
@[simp] theorem raiseStopVerify_input (s : State) : (raiseStopVerify s).input = s.input := rfl
@[simp] theorem raiseStopVerify_issuer (s : State) : (raiseStopVerify s).issuer = s.issuer := rfl

/-! ## raiseInvalidStart -/

@[simp] theorem raiseInvalidStart_bitrate (s : State) : (raiseInvalidStart s).bitrate = s.bitrate := rfl
@[simp] theorem raiseInvalidStart_samplerate (s : State) : (raiseInvalidStart s).samplerate = s.samplerate := rfl
@[simp] theorem raiseInvalidStart_inverted (s : State) : (raiseInvalidStart s).inverted = s.inverted := rfl
@[simp] theorem raiseInvalidStart_tolsel (s : State) : (raiseInvalidStart s).tolsel = s.tolsel := rfl
@[simp] theorem raiseInvalidStart_syncbits (s : State) : (raiseInvalidStart s).syncbits = s.syncbits := rfl
@[simp] theorem raiseInvalidStart_startSample (s : State) : (raiseInvalidStart s).startSample = s.startSample := rfl
@[simp] theorem raiseInvalidStart_startLevel (s : State) : (raiseInvalidStart s).startLevel = s.startLevel := rfl
@[simp] theorem raiseInvalidStart_halfbit (s : State) : (raiseInvalidStart s).halfbit = s.halfbit := rfl
@[simp] theorem raiseInvalidStart_tol (s : State) : (raiseInvalidStart s).tol = s.tol := rfl
@[simp] theorem raiseInvalidStart_rsync (s : State) : (raiseInvalidStart s).rsync = s.rsync := rfl
@[simp] theorem raiseInvalidStart_invL (s : State) : (raiseInvalidStart s).invL = s.invL := rfl
@[simp] theorem raiseInvalidStart_srL (s : State) : (raiseInvalidStart s).srL = s.srL := rfl
@[simp] theorem raiseInvalidStart_running (s : State) : (raiseInvalidStart s).running = s.running := rfl
@[simp] theorem raiseInvalidStart_badCmd (s : State) : (raiseInvalidStart s).badCmd = s.badCmd := rfl
@[simp] theorem raiseInvalidStart_orderErr (s : State) : (raiseInvalidStart s).orderErr = s.orderErr := rfl
@[simp] theorem raiseInvalidStart_cfgErr (s : State) : (raiseInvalidStart s).cfgErr = s.cfgErr := rfl
@[simp] theorem raiseInvalidStart_phase (s : State) : (raiseInvalidStart s).phase = .scan := rfl
@[simp] theorem raiseInvalidStart_bitidx (s : State) : (raiseInvalidStart s).bitidx = s.bitidx := rfl
@[simp] theorem raiseInvalidStart_synccount (s : State) : (raiseInvalidStart s).synccount = 0#32 := rfl
@[simp] theorem raiseInvalidStart_pktseq (s : State) : (raiseInvalidStart s).pktseq = s.pktseq := rfl
@[simp] theorem raiseInvalidStart_cursample (s : State) : (raiseInvalidStart s).cursample = s.cursample := rfl
@[simp] theorem raiseInvalidStart_curlevel (s : State) : (raiseInvalidStart s).curlevel = s.curlevel := rfl
@[simp] theorem raiseInvalidStart_runStart (s : State) : (raiseInvalidStart s).runStart = s.runStart := rfl
@[simp] theorem raiseInvalidStart_l5Start (s : State) : (raiseInvalidStart s).l5Start = s.l5Start := rfl
@[simp] theorem raiseInvalidStart_byteStart (s : State) : (raiseInvalidStart s).byteStart = s.byteStart := rfl
@[simp] theorem raiseInvalidStart_byteAcc (s : State) : (raiseInvalidStart s).byteAcc = s.byteAcc := rfl
@[simp] theorem raiseInvalidStart_lastDataEnd (s : State) : (raiseInvalidStart s).lastDataEnd = s.lastDataEnd := rfl
@[simp] theorem raiseInvalidStart_probeBase (s : State) : (raiseInvalidStart s).probeBase = s.probeBase := rfl
@[simp] theorem raiseInvalidStart_nextValid (s : State) : (raiseInvalidStart s).nextValid = s.nextValid := rfl
@[simp] theorem raiseInvalidStart_nextSample (s : State) : (raiseInvalidStart s).nextSample = s.nextSample := rfl
@[simp] theorem raiseInvalidStart_horizon (s : State) : (raiseInvalidStart s).horizon = s.horizon := rfl
@[simp] theorem raiseInvalidStart_out (s : State) : (raiseInvalidStart s).out = s.out := by simp [raiseInvalidStart, recover]
@[simp] theorem raiseInvalidStart_input (s : State) : (raiseInvalidStart s).input = s.input := rfl
@[simp] theorem raiseInvalidStart_issuer (s : State) : (raiseInvalidStart s).issuer = s.issuer := rfl

/-! ## orderFault -/

@[simp] theorem orderFault_bitrate (s : State) : (orderFault s).bitrate = s.bitrate := rfl
@[simp] theorem orderFault_samplerate (s : State) : (orderFault s).samplerate = s.samplerate := rfl
@[simp] theorem orderFault_inverted (s : State) : (orderFault s).inverted = s.inverted := rfl
@[simp] theorem orderFault_tolsel (s : State) : (orderFault s).tolsel = s.tolsel := rfl
@[simp] theorem orderFault_syncbits (s : State) : (orderFault s).syncbits = s.syncbits := rfl
@[simp] theorem orderFault_startSample (s : State) : (orderFault s).startSample = s.startSample := rfl
@[simp] theorem orderFault_startLevel (s : State) : (orderFault s).startLevel = s.startLevel := rfl
@[simp] theorem orderFault_halfbit (s : State) : (orderFault s).halfbit = s.halfbit := rfl
@[simp] theorem orderFault_tol (s : State) : (orderFault s).tol = s.tol := rfl
@[simp] theorem orderFault_rsync (s : State) : (orderFault s).rsync = s.rsync := rfl
@[simp] theorem orderFault_invL (s : State) : (orderFault s).invL = s.invL := rfl
@[simp] theorem orderFault_srL (s : State) : (orderFault s).srL = s.srL := rfl
@[simp] theorem orderFault_running (s : State) : (orderFault s).running = false := rfl
@[simp] theorem orderFault_badCmd (s : State) : (orderFault s).badCmd = s.badCmd := rfl
@[simp] theorem orderFault_orderErr (s : State) : (orderFault s).orderErr = true := rfl
@[simp] theorem orderFault_cfgErr (s : State) : (orderFault s).cfgErr = s.cfgErr := rfl
@[simp] theorem orderFault_phase (s : State) : (orderFault s).phase = s.phase := rfl
@[simp] theorem orderFault_bitidx (s : State) : (orderFault s).bitidx = s.bitidx := rfl
@[simp] theorem orderFault_synccount (s : State) : (orderFault s).synccount = s.synccount := rfl
@[simp] theorem orderFault_pktseq (s : State) : (orderFault s).pktseq = s.pktseq := rfl
@[simp] theorem orderFault_cursample (s : State) : (orderFault s).cursample = s.cursample := rfl
@[simp] theorem orderFault_curlevel (s : State) : (orderFault s).curlevel = s.curlevel := rfl
@[simp] theorem orderFault_runStart (s : State) : (orderFault s).runStart = s.runStart := rfl
@[simp] theorem orderFault_l5Start (s : State) : (orderFault s).l5Start = s.l5Start := rfl
@[simp] theorem orderFault_byteStart (s : State) : (orderFault s).byteStart = s.byteStart := rfl
@[simp] theorem orderFault_byteAcc (s : State) : (orderFault s).byteAcc = s.byteAcc := rfl
@[simp] theorem orderFault_lastDataEnd (s : State) : (orderFault s).lastDataEnd = s.lastDataEnd := rfl
@[simp] theorem orderFault_probeBase (s : State) : (orderFault s).probeBase = s.probeBase := rfl
@[simp] theorem orderFault_nextValid (s : State) : (orderFault s).nextValid = false := rfl
@[simp] theorem orderFault_nextSample (s : State) : (orderFault s).nextSample = s.nextSample := rfl
@[simp] theorem orderFault_horizon (s : State) : (orderFault s).horizon = s.horizon := rfl
@[simp] theorem orderFault_out (s : State) : (orderFault s).out = s.out := rfl
@[simp] theorem orderFault_input (s : State) : (orderFault s).input = s.input := rfl
@[simp] theorem orderFault_issuer (s : State) : (orderFault s).issuer = s.issuer := rfl

/-! ## abandonRun -/

@[simp] theorem abandonRun_bitrate (s : State) : (abandonRun s).bitrate = s.bitrate := rfl
@[simp] theorem abandonRun_samplerate (s : State) : (abandonRun s).samplerate = s.samplerate := rfl
@[simp] theorem abandonRun_inverted (s : State) : (abandonRun s).inverted = s.inverted := rfl
@[simp] theorem abandonRun_tolsel (s : State) : (abandonRun s).tolsel = s.tolsel := rfl
@[simp] theorem abandonRun_syncbits (s : State) : (abandonRun s).syncbits = s.syncbits := rfl
@[simp] theorem abandonRun_startSample (s : State) : (abandonRun s).startSample = s.startSample := rfl
@[simp] theorem abandonRun_startLevel (s : State) : (abandonRun s).startLevel = s.startLevel := rfl
@[simp] theorem abandonRun_halfbit (s : State) : (abandonRun s).halfbit = s.halfbit := rfl
@[simp] theorem abandonRun_tol (s : State) : (abandonRun s).tol = s.tol := rfl
@[simp] theorem abandonRun_rsync (s : State) : (abandonRun s).rsync = s.rsync := rfl
@[simp] theorem abandonRun_invL (s : State) : (abandonRun s).invL = s.invL := rfl
@[simp] theorem abandonRun_srL (s : State) : (abandonRun s).srL = s.srL := rfl
@[simp] theorem abandonRun_running (s : State) : (abandonRun s).running = false := rfl
@[simp] theorem abandonRun_badCmd (s : State) : (abandonRun s).badCmd = s.badCmd := rfl
@[simp] theorem abandonRun_orderErr (s : State) : (abandonRun s).orderErr = s.orderErr := rfl
@[simp] theorem abandonRun_cfgErr (s : State) : (abandonRun s).cfgErr = s.cfgErr := rfl
@[simp] theorem abandonRun_phase (s : State) : (abandonRun s).phase = s.phase := rfl
@[simp] theorem abandonRun_bitidx (s : State) : (abandonRun s).bitidx = s.bitidx := rfl
@[simp] theorem abandonRun_synccount (s : State) : (abandonRun s).synccount = s.synccount := rfl
@[simp] theorem abandonRun_pktseq (s : State) : (abandonRun s).pktseq = s.pktseq := rfl
@[simp] theorem abandonRun_cursample (s : State) : (abandonRun s).cursample = s.cursample := rfl
@[simp] theorem abandonRun_curlevel (s : State) : (abandonRun s).curlevel = s.curlevel := rfl
@[simp] theorem abandonRun_runStart (s : State) : (abandonRun s).runStart = s.runStart := rfl
@[simp] theorem abandonRun_l5Start (s : State) : (abandonRun s).l5Start = s.l5Start := rfl
@[simp] theorem abandonRun_byteStart (s : State) : (abandonRun s).byteStart = s.byteStart := rfl
@[simp] theorem abandonRun_byteAcc (s : State) : (abandonRun s).byteAcc = s.byteAcc := rfl
@[simp] theorem abandonRun_lastDataEnd (s : State) : (abandonRun s).lastDataEnd = s.lastDataEnd := rfl
@[simp] theorem abandonRun_probeBase (s : State) : (abandonRun s).probeBase = s.probeBase := rfl
@[simp] theorem abandonRun_nextValid (s : State) : (abandonRun s).nextValid = false := rfl
@[simp] theorem abandonRun_nextSample (s : State) : (abandonRun s).nextSample = s.nextSample := rfl
@[simp] theorem abandonRun_horizon (s : State) : (abandonRun s).horizon = s.horizon := rfl
@[simp] theorem abandonRun_out (s : State) : (abandonRun s).out = s.out := rfl
@[simp] theorem abandonRun_input (s : State) : (abandonRun s).input = s.input := rfl
@[simp] theorem abandonRun_issuer (s : State) : (abandonRun s).issuer = s.issuer := rfl

/-! ## takeBit -/

@[simp] theorem takeBit_bitrate (j : Nat) (e : Sample) (s : State) : (takeBit j e s).bitrate = s.bitrate := rfl
@[simp] theorem takeBit_samplerate (j : Nat) (e : Sample) (s : State) : (takeBit j e s).samplerate = s.samplerate := rfl
@[simp] theorem takeBit_inverted (j : Nat) (e : Sample) (s : State) : (takeBit j e s).inverted = s.inverted := rfl
@[simp] theorem takeBit_tolsel (j : Nat) (e : Sample) (s : State) : (takeBit j e s).tolsel = s.tolsel := rfl
@[simp] theorem takeBit_syncbits (j : Nat) (e : Sample) (s : State) : (takeBit j e s).syncbits = s.syncbits := rfl
@[simp] theorem takeBit_startSample (j : Nat) (e : Sample) (s : State) : (takeBit j e s).startSample = s.startSample := rfl
@[simp] theorem takeBit_startLevel (j : Nat) (e : Sample) (s : State) : (takeBit j e s).startLevel = s.startLevel := rfl
@[simp] theorem takeBit_halfbit (j : Nat) (e : Sample) (s : State) : (takeBit j e s).halfbit = s.halfbit := rfl
@[simp] theorem takeBit_tol (j : Nat) (e : Sample) (s : State) : (takeBit j e s).tol = s.tol := rfl
@[simp] theorem takeBit_rsync (j : Nat) (e : Sample) (s : State) : (takeBit j e s).rsync = s.rsync := rfl
@[simp] theorem takeBit_invL (j : Nat) (e : Sample) (s : State) : (takeBit j e s).invL = s.invL := rfl
@[simp] theorem takeBit_srL (j : Nat) (e : Sample) (s : State) : (takeBit j e s).srL = s.srL := rfl
@[simp] theorem takeBit_running (j : Nat) (e : Sample) (s : State) : (takeBit j e s).running = s.running := rfl
@[simp] theorem takeBit_badCmd (j : Nat) (e : Sample) (s : State) : (takeBit j e s).badCmd = s.badCmd := rfl
@[simp] theorem takeBit_orderErr (j : Nat) (e : Sample) (s : State) : (takeBit j e s).orderErr = s.orderErr := rfl
@[simp] theorem takeBit_cfgErr (j : Nat) (e : Sample) (s : State) : (takeBit j e s).cfgErr = s.cfgErr := rfl
@[simp] theorem takeBit_phase (j : Nat) (e : Sample) (s : State) : (takeBit j e s).phase = s.phase := rfl
@[simp] theorem takeBit_bitidx (j : Nat) (e : Sample) (s : State) : (takeBit j e s).bitidx = BitVec.ofNat 4 j := rfl
@[simp] theorem takeBit_synccount (j : Nat) (e : Sample) (s : State) : (takeBit j e s).synccount = s.synccount := rfl
@[simp] theorem takeBit_pktseq (j : Nat) (e : Sample) (s : State) : (takeBit j e s).pktseq = s.pktseq := rfl
@[simp] theorem takeBit_cursample (j : Nat) (e : Sample) (s : State) : (takeBit j e s).cursample = s.cursample := rfl
@[simp] theorem takeBit_curlevel (j : Nat) (e : Sample) (s : State) : (takeBit j e s).curlevel = s.curlevel := rfl
@[simp] theorem takeBit_runStart (j : Nat) (e : Sample) (s : State) : (takeBit j e s).runStart = s.runStart := rfl
@[simp] theorem takeBit_l5Start (j : Nat) (e : Sample) (s : State) : (takeBit j e s).l5Start = s.l5Start := rfl
@[simp] theorem takeBit_byteStart (j : Nat) (e : Sample) (s : State) :
    (takeBit j e s).byteStart = if j = 1 then trunc64 ((e.toNat : Int) - s.halfbit.toNat) else s.byteStart := rfl
@[simp] theorem takeBit_byteAcc (j : Nat) (e : Sample) (s : State) :
    (takeBit j e s).byteAcc = shiftIn (if j = 1 then 0#8 else s.byteAcc) (bitValue s) := rfl
@[simp] theorem takeBit_lastDataEnd (j : Nat) (e : Sample) (s : State) : (takeBit j e s).lastDataEnd = s.lastDataEnd := rfl
@[simp] theorem takeBit_probeBase (j : Nat) (e : Sample) (s : State) : (takeBit j e s).probeBase = s.probeBase := rfl
@[simp] theorem takeBit_nextValid (j : Nat) (e : Sample) (s : State) : (takeBit j e s).nextValid = s.nextValid := rfl
@[simp] theorem takeBit_nextSample (j : Nat) (e : Sample) (s : State) : (takeBit j e s).nextSample = s.nextSample := rfl
@[simp] theorem takeBit_horizon (j : Nat) (e : Sample) (s : State) : (takeBit j e s).horizon = s.horizon := rfl
@[simp] theorem takeBit_out (j : Nat) (e : Sample) (s : State) :
    (takeBit j e s).out = s.out ++ [.marker (if bitValue s then .one else .zero) e] := rfl
@[simp] theorem takeBit_input (j : Nat) (e : Sample) (s : State) : (takeBit j e s).input = s.input := rfl
@[simp] theorem takeBit_issuer (j : Nat) (e : Sample) (s : State) : (takeBit j e s).issuer = s.issuer := rfl

/-! ## dataComplete -/

@[simp] theorem dataComplete_bitrate (e : Sample) (s : State) : (dataComplete e s).bitrate = s.bitrate := rfl
@[simp] theorem dataComplete_samplerate (e : Sample) (s : State) : (dataComplete e s).samplerate = s.samplerate := rfl
@[simp] theorem dataComplete_inverted (e : Sample) (s : State) : (dataComplete e s).inverted = s.inverted := rfl
@[simp] theorem dataComplete_tolsel (e : Sample) (s : State) : (dataComplete e s).tolsel = s.tolsel := rfl
@[simp] theorem dataComplete_syncbits (e : Sample) (s : State) : (dataComplete e s).syncbits = s.syncbits := rfl
@[simp] theorem dataComplete_startSample (e : Sample) (s : State) : (dataComplete e s).startSample = s.startSample := rfl
@[simp] theorem dataComplete_startLevel (e : Sample) (s : State) : (dataComplete e s).startLevel = s.startLevel := rfl
@[simp] theorem dataComplete_halfbit (e : Sample) (s : State) : (dataComplete e s).halfbit = s.halfbit := rfl
@[simp] theorem dataComplete_tol (e : Sample) (s : State) : (dataComplete e s).tol = s.tol := rfl
@[simp] theorem dataComplete_rsync (e : Sample) (s : State) : (dataComplete e s).rsync = s.rsync := rfl
@[simp] theorem dataComplete_invL (e : Sample) (s : State) : (dataComplete e s).invL = s.invL := rfl
@[simp] theorem dataComplete_srL (e : Sample) (s : State) : (dataComplete e s).srL = s.srL := rfl
@[simp] theorem dataComplete_running (e : Sample) (s : State) : (dataComplete e s).running = s.running := rfl
@[simp] theorem dataComplete_badCmd (e : Sample) (s : State) : (dataComplete e s).badCmd = s.badCmd := rfl
@[simp] theorem dataComplete_orderErr (e : Sample) (s : State) : (dataComplete e s).orderErr = s.orderErr := rfl
@[simp] theorem dataComplete_cfgErr (e : Sample) (s : State) : (dataComplete e s).cfgErr = s.cfgErr := rfl
@[simp] theorem dataComplete_phase (e : Sample) (s : State) : (dataComplete e s).phase = .stopFirst := rfl
@[simp] theorem dataComplete_bitidx (e : Sample) (s : State) : (dataComplete e s).bitidx = s.bitidx := rfl
@[simp] theorem dataComplete_synccount (e : Sample) (s : State) : (dataComplete e s).synccount = s.synccount := rfl
@[simp] theorem dataComplete_pktseq (e : Sample) (s : State) : (dataComplete e s).pktseq = s.pktseq := rfl
@[simp] theorem dataComplete_cursample (e : Sample) (s : State) : (dataComplete e s).cursample = s.cursample := rfl
@[simp] theorem dataComplete_curlevel (e : Sample) (s : State) : (dataComplete e s).curlevel = s.curlevel := rfl
@[simp] theorem dataComplete_runStart (e : Sample) (s : State) : (dataComplete e s).runStart = s.runStart := rfl
@[simp] theorem dataComplete_l5Start (e : Sample) (s : State) : (dataComplete e s).l5Start = s.l5Start := rfl
@[simp] theorem dataComplete_byteStart (e : Sample) (s : State) : (dataComplete e s).byteStart = s.byteStart := rfl
@[simp] theorem dataComplete_byteAcc (e : Sample) (s : State) : (dataComplete e s).byteAcc = s.byteAcc := rfl
@[simp] theorem dataComplete_lastDataEnd (e : Sample) (s : State) :
    (dataComplete e s).lastDataEnd = trunc64 ((e.toNat : Int) + s.halfbit.toNat) := rfl
@[simp] theorem dataComplete_probeBase (e : Sample) (s : State) : (dataComplete e s).probeBase = s.probeBase := rfl
@[simp] theorem dataComplete_nextValid (e : Sample) (s : State) : (dataComplete e s).nextValid = s.nextValid := rfl
@[simp] theorem dataComplete_nextSample (e : Sample) (s : State) : (dataComplete e s).nextSample = s.nextSample := rfl
@[simp] theorem dataComplete_horizon (e : Sample) (s : State) : (dataComplete e s).horizon = s.horizon := rfl
@[simp] theorem dataComplete_out (e : Sample) (s : State) :
    (dataComplete e s).out = s.out ++ frameRecords .data s.byteStart (trunc64 ((e.toNat : Int) + s.halfbit.toNat)) (s.byteAcc.setWidth 64) 0#64 := rfl
@[simp] theorem dataComplete_input (e : Sample) (s : State) : (dataComplete e s).input = s.input := rfl
@[simp] theorem dataComplete_issuer (e : Sample) (s : State) : (dataComplete e s).issuer = s.issuer := rfl

/-! ## synchronize -/

@[simp] theorem synchronize_bitrate (pf : Sample) (s : State) : (synchronize pf s).bitrate = s.bitrate := rfl
@[simp] theorem synchronize_samplerate (pf : Sample) (s : State) : (synchronize pf s).samplerate = s.samplerate := rfl
@[simp] theorem synchronize_inverted (pf : Sample) (s : State) : (synchronize pf s).inverted = s.inverted := rfl
@[simp] theorem synchronize_tolsel (pf : Sample) (s : State) : (synchronize pf s).tolsel = s.tolsel := rfl
@[simp] theorem synchronize_syncbits (pf : Sample) (s : State) : (synchronize pf s).syncbits = s.syncbits := rfl
@[simp] theorem synchronize_startSample (pf : Sample) (s : State) : (synchronize pf s).startSample = s.startSample := rfl
@[simp] theorem synchronize_startLevel (pf : Sample) (s : State) : (synchronize pf s).startLevel = s.startLevel := rfl
@[simp] theorem synchronize_halfbit (pf : Sample) (s : State) : (synchronize pf s).halfbit = s.halfbit := rfl
@[simp] theorem synchronize_tol (pf : Sample) (s : State) : (synchronize pf s).tol = s.tol := rfl
@[simp] theorem synchronize_rsync (pf : Sample) (s : State) : (synchronize pf s).rsync = s.rsync := rfl
@[simp] theorem synchronize_invL (pf : Sample) (s : State) : (synchronize pf s).invL = s.invL := rfl
@[simp] theorem synchronize_srL (pf : Sample) (s : State) : (synchronize pf s).srL = s.srL := rfl
@[simp] theorem synchronize_running (pf : Sample) (s : State) : (synchronize pf s).running = s.running := rfl
@[simp] theorem synchronize_badCmd (pf : Sample) (s : State) : (synchronize pf s).badCmd = s.badCmd := rfl
@[simp] theorem synchronize_orderErr (pf : Sample) (s : State) : (synchronize pf s).orderErr = s.orderErr := rfl
@[simp] theorem synchronize_cfgErr (pf : Sample) (s : State) : (synchronize pf s).cfgErr = s.cfgErr := rfl
@[simp] theorem synchronize_phase (pf : Sample) (s : State) : (synchronize pf s).phase = s.phase := rfl
@[simp] theorem synchronize_bitidx (pf : Sample) (s : State) : (synchronize pf s).bitidx = s.bitidx := rfl
@[simp] theorem synchronize_synccount (pf : Sample) (s : State) : (synchronize pf s).synccount = 0#32 := rfl
@[simp] theorem synchronize_pktseq (pf : Sample) (s : State) : (synchronize pf s).pktseq = s.pktseq + 1#64 := rfl
@[simp] theorem synchronize_cursample (pf : Sample) (s : State) : (synchronize pf s).cursample = s.cursample := rfl
@[simp] theorem synchronize_curlevel (pf : Sample) (s : State) : (synchronize pf s).curlevel = s.curlevel := rfl
@[simp] theorem synchronize_runStart (pf : Sample) (s : State) : (synchronize pf s).runStart = s.runStart := rfl
@[simp] theorem synchronize_l5Start (pf : Sample) (s : State) : (synchronize pf s).l5Start = s.l5Start := rfl
@[simp] theorem synchronize_byteStart (pf : Sample) (s : State) : (synchronize pf s).byteStart = s.byteStart := rfl
@[simp] theorem synchronize_byteAcc (pf : Sample) (s : State) : (synchronize pf s).byteAcc = s.byteAcc := rfl
@[simp] theorem synchronize_lastDataEnd (pf : Sample) (s : State) : (synchronize pf s).lastDataEnd = s.lastDataEnd := rfl
@[simp] theorem synchronize_probeBase (pf : Sample) (s : State) : (synchronize pf s).probeBase = s.probeBase := rfl
@[simp] theorem synchronize_nextValid (pf : Sample) (s : State) : (synchronize pf s).nextValid = s.nextValid := rfl
@[simp] theorem synchronize_nextSample (pf : Sample) (s : State) : (synchronize pf s).nextSample = s.nextSample := rfl
@[simp] theorem synchronize_horizon (pf : Sample) (s : State) : (synchronize pf s).horizon = s.horizon := rfl
@[simp] theorem synchronize_out (pf : Sample) (s : State) :
    (synchronize pf s).out = s.out ++ (syncFrameRecords s ++ startFrameRecords pf (s.pktseq + 1#64) s ++ [.marker .start pf]) := rfl
@[simp] theorem synchronize_input (pf : Sample) (s : State) : (synchronize pf s).input = s.input := rfl
@[simp] theorem synchronize_issuer (pf : Sample) (s : State) : (synchronize pf s).issuer = s.issuer := rfl

/-! ## countHalf -/

@[simp] theorem countHalf_bitrate (iv : Interval) (s : State) : (countHalf iv s).bitrate = s.bitrate := rfl
@[simp] theorem countHalf_samplerate (iv : Interval) (s : State) : (countHalf iv s).samplerate = s.samplerate := rfl
@[simp] theorem countHalf_inverted (iv : Interval) (s : State) : (countHalf iv s).inverted = s.inverted := rfl
@[simp] theorem countHalf_tolsel (iv : Interval) (s : State) : (countHalf iv s).tolsel = s.tolsel := rfl
@[simp] theorem countHalf_syncbits (iv : Interval) (s : State) : (countHalf iv s).syncbits = s.syncbits := rfl
@[simp] theorem countHalf_startSample (iv : Interval) (s : State) : (countHalf iv s).startSample = s.startSample := rfl
@[simp] theorem countHalf_startLevel (iv : Interval) (s : State) : (countHalf iv s).startLevel = s.startLevel := rfl
@[simp] theorem countHalf_halfbit (iv : Interval) (s : State) : (countHalf iv s).halfbit = s.halfbit := rfl
@[simp] theorem countHalf_tol (iv : Interval) (s : State) : (countHalf iv s).tol = s.tol := rfl
@[simp] theorem countHalf_rsync (iv : Interval) (s : State) : (countHalf iv s).rsync = s.rsync := rfl
@[simp] theorem countHalf_invL (iv : Interval) (s : State) : (countHalf iv s).invL = s.invL := rfl
@[simp] theorem countHalf_srL (iv : Interval) (s : State) : (countHalf iv s).srL = s.srL := rfl
@[simp] theorem countHalf_running (iv : Interval) (s : State) : (countHalf iv s).running = s.running := rfl
@[simp] theorem countHalf_badCmd (iv : Interval) (s : State) : (countHalf iv s).badCmd = s.badCmd := rfl
@[simp] theorem countHalf_orderErr (iv : Interval) (s : State) : (countHalf iv s).orderErr = s.orderErr := rfl
@[simp] theorem countHalf_cfgErr (iv : Interval) (s : State) : (countHalf iv s).cfgErr = s.cfgErr := rfl
@[simp] theorem countHalf_phase (iv : Interval) (s : State) : (countHalf iv s).phase = s.phase := rfl
@[simp] theorem countHalf_bitidx (iv : Interval) (s : State) : (countHalf iv s).bitidx = s.bitidx := rfl
@[simp] theorem countHalf_synccount (iv : Interval) (s : State) : (countHalf iv s).synccount = sat32 (s.synccount.toNat + 1) := rfl
@[simp] theorem countHalf_pktseq (iv : Interval) (s : State) : (countHalf iv s).pktseq = s.pktseq := rfl
@[simp] theorem countHalf_cursample (iv : Interval) (s : State) : (countHalf iv s).cursample = s.cursample := rfl
@[simp] theorem countHalf_curlevel (iv : Interval) (s : State) : (countHalf iv s).curlevel = s.curlevel := rfl
@[simp] theorem countHalf_runStart (iv : Interval) (s : State) :
    (countHalf iv s).runStart = if s.synccount = 0#32 then iv.opened else s.runStart := rfl
@[simp] theorem countHalf_l5Start (iv : Interval) (s : State) : (countHalf iv s).l5Start = s.l5Start := rfl
@[simp] theorem countHalf_byteStart (iv : Interval) (s : State) : (countHalf iv s).byteStart = s.byteStart := rfl
@[simp] theorem countHalf_byteAcc (iv : Interval) (s : State) : (countHalf iv s).byteAcc = s.byteAcc := rfl
@[simp] theorem countHalf_lastDataEnd (iv : Interval) (s : State) : (countHalf iv s).lastDataEnd = s.lastDataEnd := rfl
@[simp] theorem countHalf_probeBase (iv : Interval) (s : State) : (countHalf iv s).probeBase = s.probeBase := rfl
@[simp] theorem countHalf_nextValid (iv : Interval) (s : State) : (countHalf iv s).nextValid = s.nextValid := rfl
@[simp] theorem countHalf_nextSample (iv : Interval) (s : State) : (countHalf iv s).nextSample = s.nextSample := rfl
@[simp] theorem countHalf_horizon (iv : Interval) (s : State) : (countHalf iv s).horizon = s.horizon := rfl
@[simp] theorem countHalf_out (iv : Interval) (s : State) : (countHalf iv s).out = s.out := rfl
@[simp] theorem countHalf_input (iv : Interval) (s : State) : (countHalf iv s).input = s.input := rfl
@[simp] theorem countHalf_issuer (iv : Interval) (s : State) : (countHalf iv s).issuer = s.issuer := rfl

/-! ## stopCandidate -/

@[simp] theorem stopCandidate_bitrate (e : Sample) (s : State) : (stopCandidate e s).bitrate = s.bitrate := rfl
@[simp] theorem stopCandidate_samplerate (e : Sample) (s : State) : (stopCandidate e s).samplerate = s.samplerate := rfl
@[simp] theorem stopCandidate_inverted (e : Sample) (s : State) : (stopCandidate e s).inverted = s.inverted := rfl
@[simp] theorem stopCandidate_tolsel (e : Sample) (s : State) : (stopCandidate e s).tolsel = s.tolsel := rfl
@[simp] theorem stopCandidate_syncbits (e : Sample) (s : State) : (stopCandidate e s).syncbits = s.syncbits := rfl
@[simp] theorem stopCandidate_startSample (e : Sample) (s : State) : (stopCandidate e s).startSample = s.startSample := rfl
@[simp] theorem stopCandidate_startLevel (e : Sample) (s : State) : (stopCandidate e s).startLevel = s.startLevel := rfl
@[simp] theorem stopCandidate_halfbit (e : Sample) (s : State) : (stopCandidate e s).halfbit = s.halfbit := rfl
@[simp] theorem stopCandidate_tol (e : Sample) (s : State) : (stopCandidate e s).tol = s.tol := rfl
@[simp] theorem stopCandidate_rsync (e : Sample) (s : State) : (stopCandidate e s).rsync = s.rsync := rfl
@[simp] theorem stopCandidate_invL (e : Sample) (s : State) : (stopCandidate e s).invL = s.invL := rfl
@[simp] theorem stopCandidate_srL (e : Sample) (s : State) : (stopCandidate e s).srL = s.srL := rfl
@[simp] theorem stopCandidate_running (e : Sample) (s : State) : (stopCandidate e s).running = s.running := rfl
@[simp] theorem stopCandidate_badCmd (e : Sample) (s : State) : (stopCandidate e s).badCmd = s.badCmd := rfl
@[simp] theorem stopCandidate_orderErr (e : Sample) (s : State) : (stopCandidate e s).orderErr = s.orderErr := rfl
@[simp] theorem stopCandidate_cfgErr (e : Sample) (s : State) : (stopCandidate e s).cfgErr = s.cfgErr := rfl
@[simp] theorem stopCandidate_phase (e : Sample) (s : State) : (stopCandidate e s).phase = .stopProbe := rfl
@[simp] theorem stopCandidate_bitidx (e : Sample) (s : State) : (stopCandidate e s).bitidx = s.bitidx := rfl
@[simp] theorem stopCandidate_synccount (e : Sample) (s : State) : (stopCandidate e s).synccount = s.synccount := rfl
@[simp] theorem stopCandidate_pktseq (e : Sample) (s : State) : (stopCandidate e s).pktseq = s.pktseq := rfl
@[simp] theorem stopCandidate_cursample (e : Sample) (s : State) : (stopCandidate e s).cursample = s.cursample := rfl
@[simp] theorem stopCandidate_curlevel (e : Sample) (s : State) : (stopCandidate e s).curlevel = s.curlevel := rfl
@[simp] theorem stopCandidate_runStart (e : Sample) (s : State) : (stopCandidate e s).runStart = s.runStart := rfl
@[simp] theorem stopCandidate_l5Start (e : Sample) (s : State) : (stopCandidate e s).l5Start = s.l5Start := rfl
@[simp] theorem stopCandidate_byteStart (e : Sample) (s : State) : (stopCandidate e s).byteStart = s.byteStart := rfl
@[simp] theorem stopCandidate_byteAcc (e : Sample) (s : State) : (stopCandidate e s).byteAcc = s.byteAcc := rfl
@[simp] theorem stopCandidate_lastDataEnd (e : Sample) (s : State) : (stopCandidate e s).lastDataEnd = s.lastDataEnd := rfl
@[simp] theorem stopCandidate_probeBase (e : Sample) (s : State) : (stopCandidate e s).probeBase = e := rfl
@[simp] theorem stopCandidate_nextValid (e : Sample) (s : State) : (stopCandidate e s).nextValid = s.nextValid := rfl
@[simp] theorem stopCandidate_nextSample (e : Sample) (s : State) : (stopCandidate e s).nextSample = s.nextSample := rfl
@[simp] theorem stopCandidate_horizon (e : Sample) (s : State) : (stopCandidate e s).horizon = s.horizon := rfl
@[simp] theorem stopCandidate_out (e : Sample) (s : State) : (stopCandidate e s).out = s.out := rfl
@[simp] theorem stopCandidate_input (e : Sample) (s : State) : (stopCandidate e s).input = s.input := rfl
@[simp] theorem stopCandidate_issuer (e : Sample) (s : State) : (stopCandidate e s).issuer = s.issuer := rfl

/-! ## stopConfirmed -/

@[simp] theorem stopConfirmed_bitrate (s : State) : (stopConfirmed s).bitrate = s.bitrate := rfl
@[simp] theorem stopConfirmed_samplerate (s : State) : (stopConfirmed s).samplerate = s.samplerate := rfl
@[simp] theorem stopConfirmed_inverted (s : State) : (stopConfirmed s).inverted = s.inverted := rfl
@[simp] theorem stopConfirmed_tolsel (s : State) : (stopConfirmed s).tolsel = s.tolsel := rfl
@[simp] theorem stopConfirmed_syncbits (s : State) : (stopConfirmed s).syncbits = s.syncbits := rfl
@[simp] theorem stopConfirmed_startSample (s : State) : (stopConfirmed s).startSample = s.startSample := rfl
@[simp] theorem stopConfirmed_startLevel (s : State) : (stopConfirmed s).startLevel = s.startLevel := rfl
@[simp] theorem stopConfirmed_halfbit (s : State) : (stopConfirmed s).halfbit = s.halfbit := rfl
@[simp] theorem stopConfirmed_tol (s : State) : (stopConfirmed s).tol = s.tol := rfl
@[simp] theorem stopConfirmed_rsync (s : State) : (stopConfirmed s).rsync = s.rsync := rfl
@[simp] theorem stopConfirmed_invL (s : State) : (stopConfirmed s).invL = s.invL := rfl
@[simp] theorem stopConfirmed_srL (s : State) : (stopConfirmed s).srL = s.srL := rfl
@[simp] theorem stopConfirmed_running (s : State) : (stopConfirmed s).running = s.running := rfl
@[simp] theorem stopConfirmed_badCmd (s : State) : (stopConfirmed s).badCmd = s.badCmd := rfl
@[simp] theorem stopConfirmed_orderErr (s : State) : (stopConfirmed s).orderErr = s.orderErr := rfl
@[simp] theorem stopConfirmed_cfgErr (s : State) : (stopConfirmed s).cfgErr = s.cfgErr := rfl
@[simp] theorem stopConfirmed_phase (s : State) : (stopConfirmed s).phase = .scan := rfl
@[simp] theorem stopConfirmed_bitidx (s : State) : (stopConfirmed s).bitidx = s.bitidx := rfl
@[simp] theorem stopConfirmed_synccount (s : State) : (stopConfirmed s).synccount = 0#32 := rfl
@[simp] theorem stopConfirmed_pktseq (s : State) : (stopConfirmed s).pktseq = s.pktseq := rfl
@[simp] theorem stopConfirmed_cursample (s : State) : (stopConfirmed s).cursample = s.cursample := rfl
@[simp] theorem stopConfirmed_curlevel (s : State) : (stopConfirmed s).curlevel = s.curlevel := rfl
@[simp] theorem stopConfirmed_runStart (s : State) : (stopConfirmed s).runStart = s.runStart := rfl
@[simp] theorem stopConfirmed_l5Start (s : State) : (stopConfirmed s).l5Start = s.l5Start := rfl
@[simp] theorem stopConfirmed_byteStart (s : State) : (stopConfirmed s).byteStart = s.byteStart := rfl
@[simp] theorem stopConfirmed_byteAcc (s : State) : (stopConfirmed s).byteAcc = s.byteAcc := rfl
@[simp] theorem stopConfirmed_lastDataEnd (s : State) : (stopConfirmed s).lastDataEnd = s.lastDataEnd := rfl
@[simp] theorem stopConfirmed_probeBase (s : State) : (stopConfirmed s).probeBase = s.probeBase := rfl
@[simp] theorem stopConfirmed_nextValid (s : State) : (stopConfirmed s).nextValid = s.nextValid := rfl
@[simp] theorem stopConfirmed_nextSample (s : State) : (stopConfirmed s).nextSample = s.nextSample := rfl
@[simp] theorem stopConfirmed_horizon (s : State) : (stopConfirmed s).horizon = s.horizon := rfl
@[simp] theorem stopConfirmed_out (s : State) :
    (stopConfirmed s).out = s.out ++ (frameRecords .stop (trunc64 ((s.lastDataEnd.toNat : Int) + 1))
      (trunc64 ((s.probeBase.toNat : Int) + 2 * s.halfbit.toNat)) 0#64 0#64 ++ [.marker .stop s.probeBase]) := rfl
@[simp] theorem stopConfirmed_input (s : State) : (stopConfirmed s).input = s.input := rfl
@[simp] theorem stopConfirmed_issuer (s : State) : (stopConfirmed s).issuer = s.issuer := rfl

/-! ## raiseHorizon -/

@[simp] theorem raiseHorizon_bitrate (h : Sample) (s : State) : (raiseHorizon h s).bitrate = s.bitrate := rfl
@[simp] theorem raiseHorizon_samplerate (h : Sample) (s : State) : (raiseHorizon h s).samplerate = s.samplerate := rfl
@[simp] theorem raiseHorizon_inverted (h : Sample) (s : State) : (raiseHorizon h s).inverted = s.inverted := rfl
@[simp] theorem raiseHorizon_tolsel (h : Sample) (s : State) : (raiseHorizon h s).tolsel = s.tolsel := rfl
@[simp] theorem raiseHorizon_syncbits (h : Sample) (s : State) : (raiseHorizon h s).syncbits = s.syncbits := rfl
@[simp] theorem raiseHorizon_startSample (h : Sample) (s : State) : (raiseHorizon h s).startSample = s.startSample := rfl
@[simp] theorem raiseHorizon_startLevel (h : Sample) (s : State) : (raiseHorizon h s).startLevel = s.startLevel := rfl
@[simp] theorem raiseHorizon_halfbit (h : Sample) (s : State) : (raiseHorizon h s).halfbit = s.halfbit := rfl
@[simp] theorem raiseHorizon_tol (h : Sample) (s : State) : (raiseHorizon h s).tol = s.tol := rfl
@[simp] theorem raiseHorizon_rsync (h : Sample) (s : State) : (raiseHorizon h s).rsync = s.rsync := rfl
@[simp] theorem raiseHorizon_invL (h : Sample) (s : State) : (raiseHorizon h s).invL = s.invL := rfl
@[simp] theorem raiseHorizon_srL (h : Sample) (s : State) : (raiseHorizon h s).srL = s.srL := rfl
@[simp] theorem raiseHorizon_running (h : Sample) (s : State) : (raiseHorizon h s).running = s.running := rfl
@[simp] theorem raiseHorizon_badCmd (h : Sample) (s : State) : (raiseHorizon h s).badCmd = s.badCmd := rfl
@[simp] theorem raiseHorizon_orderErr (h : Sample) (s : State) : (raiseHorizon h s).orderErr = s.orderErr := rfl
@[simp] theorem raiseHorizon_cfgErr (h : Sample) (s : State) : (raiseHorizon h s).cfgErr = s.cfgErr := rfl
@[simp] theorem raiseHorizon_phase (h : Sample) (s : State) : (raiseHorizon h s).phase = s.phase := rfl
@[simp] theorem raiseHorizon_bitidx (h : Sample) (s : State) : (raiseHorizon h s).bitidx = s.bitidx := rfl
@[simp] theorem raiseHorizon_synccount (h : Sample) (s : State) : (raiseHorizon h s).synccount = s.synccount := rfl
@[simp] theorem raiseHorizon_pktseq (h : Sample) (s : State) : (raiseHorizon h s).pktseq = s.pktseq := rfl
@[simp] theorem raiseHorizon_cursample (h : Sample) (s : State) : (raiseHorizon h s).cursample = s.cursample := rfl
@[simp] theorem raiseHorizon_curlevel (h : Sample) (s : State) : (raiseHorizon h s).curlevel = s.curlevel := rfl
@[simp] theorem raiseHorizon_runStart (h : Sample) (s : State) : (raiseHorizon h s).runStart = s.runStart := rfl
@[simp] theorem raiseHorizon_l5Start (h : Sample) (s : State) : (raiseHorizon h s).l5Start = s.l5Start := rfl
@[simp] theorem raiseHorizon_byteStart (h : Sample) (s : State) : (raiseHorizon h s).byteStart = s.byteStart := rfl
@[simp] theorem raiseHorizon_byteAcc (h : Sample) (s : State) : (raiseHorizon h s).byteAcc = s.byteAcc := rfl
@[simp] theorem raiseHorizon_lastDataEnd (h : Sample) (s : State) : (raiseHorizon h s).lastDataEnd = s.lastDataEnd := rfl
@[simp] theorem raiseHorizon_probeBase (h : Sample) (s : State) : (raiseHorizon h s).probeBase = s.probeBase := rfl
@[simp] theorem raiseHorizon_nextValid (h : Sample) (s : State) : (raiseHorizon h s).nextValid = s.nextValid := rfl
@[simp] theorem raiseHorizon_nextSample (h : Sample) (s : State) : (raiseHorizon h s).nextSample = s.nextSample := rfl
@[simp] theorem raiseHorizon_horizon (h : Sample) (s : State) :
    (raiseHorizon h s).horizon = if s.horizon.toNat < h.toNat then h else s.horizon := rfl
@[simp] theorem raiseHorizon_out (h : Sample) (s : State) : (raiseHorizon h s).out = s.out := rfl
@[simp] theorem raiseHorizon_input (h : Sample) (s : State) : (raiseHorizon h s).input = s.input := rfl
@[simp] theorem raiseHorizon_issuer (h : Sample) (s : State) : (raiseHorizon h s).issuer = s.issuer := rfl

/-! ## hardReset -/

@[simp] theorem hardReset_bitrate (s : State) : (hardReset s).bitrate = State.reset.bitrate := rfl
@[simp] theorem hardReset_samplerate (s : State) : (hardReset s).samplerate = State.reset.samplerate := rfl
@[simp] theorem hardReset_inverted (s : State) : (hardReset s).inverted = State.reset.inverted := rfl
@[simp] theorem hardReset_tolsel (s : State) : (hardReset s).tolsel = State.reset.tolsel := rfl
@[simp] theorem hardReset_syncbits (s : State) : (hardReset s).syncbits = State.reset.syncbits := rfl
@[simp] theorem hardReset_startSample (s : State) : (hardReset s).startSample = State.reset.startSample := rfl
@[simp] theorem hardReset_startLevel (s : State) : (hardReset s).startLevel = State.reset.startLevel := rfl
@[simp] theorem hardReset_halfbit (s : State) : (hardReset s).halfbit = State.reset.halfbit := rfl
@[simp] theorem hardReset_tol (s : State) : (hardReset s).tol = State.reset.tol := rfl
@[simp] theorem hardReset_rsync (s : State) : (hardReset s).rsync = State.reset.rsync := rfl
@[simp] theorem hardReset_invL (s : State) : (hardReset s).invL = State.reset.invL := rfl
@[simp] theorem hardReset_srL (s : State) : (hardReset s).srL = State.reset.srL := rfl
@[simp] theorem hardReset_running (s : State) : (hardReset s).running = State.reset.running := rfl
@[simp] theorem hardReset_badCmd (s : State) : (hardReset s).badCmd = State.reset.badCmd := rfl
@[simp] theorem hardReset_orderErr (s : State) : (hardReset s).orderErr = State.reset.orderErr := rfl
@[simp] theorem hardReset_cfgErr (s : State) : (hardReset s).cfgErr = State.reset.cfgErr := rfl
@[simp] theorem hardReset_phase (s : State) : (hardReset s).phase = State.reset.phase := rfl
@[simp] theorem hardReset_bitidx (s : State) : (hardReset s).bitidx = State.reset.bitidx := rfl
@[simp] theorem hardReset_synccount (s : State) : (hardReset s).synccount = State.reset.synccount := rfl
@[simp] theorem hardReset_pktseq (s : State) : (hardReset s).pktseq = State.reset.pktseq := rfl
@[simp] theorem hardReset_cursample (s : State) : (hardReset s).cursample = State.reset.cursample := rfl
@[simp] theorem hardReset_curlevel (s : State) : (hardReset s).curlevel = State.reset.curlevel := rfl
@[simp] theorem hardReset_runStart (s : State) : (hardReset s).runStart = State.reset.runStart := rfl
@[simp] theorem hardReset_l5Start (s : State) : (hardReset s).l5Start = State.reset.l5Start := rfl
@[simp] theorem hardReset_byteStart (s : State) : (hardReset s).byteStart = State.reset.byteStart := rfl
@[simp] theorem hardReset_byteAcc (s : State) : (hardReset s).byteAcc = State.reset.byteAcc := rfl
@[simp] theorem hardReset_lastDataEnd (s : State) : (hardReset s).lastDataEnd = State.reset.lastDataEnd := rfl
@[simp] theorem hardReset_probeBase (s : State) : (hardReset s).probeBase = State.reset.probeBase := rfl
@[simp] theorem hardReset_nextValid (s : State) : (hardReset s).nextValid = State.reset.nextValid := rfl
@[simp] theorem hardReset_nextSample (s : State) : (hardReset s).nextSample = State.reset.nextSample := rfl
@[simp] theorem hardReset_horizon (s : State) : (hardReset s).horizon = State.reset.horizon := rfl
@[simp] theorem hardReset_out (s : State) : (hardReset s).out = State.reset.out := rfl
@[simp] theorem hardReset_input (s : State) : (hardReset s).input = s.input := rfl
@[simp] theorem hardReset_issuer (s : State) : (hardReset s).issuer = State.reset.issuer := rfl

/-! ## readBit: the fields that no bit touches -/

@[simp] theorem readBit_bitrate (j : Nat) (e : Sample) (s : State) : (readBit j e s).bitrate = s.bitrate := by
  unfold readBit; split <;> simp
@[simp] theorem readBit_samplerate (j : Nat) (e : Sample) (s : State) : (readBit j e s).samplerate = s.samplerate := by
  unfold readBit; split <;> simp
@[simp] theorem readBit_inverted (j : Nat) (e : Sample) (s : State) : (readBit j e s).inverted = s.inverted := by
  unfold readBit; split <;> simp
@[simp] theorem readBit_tolsel (j : Nat) (e : Sample) (s : State) : (readBit j e s).tolsel = s.tolsel := by
  unfold readBit; split <;> simp
@[simp] theorem readBit_syncbits (j : Nat) (e : Sample) (s : State) : (readBit j e s).syncbits = s.syncbits := by
  unfold readBit; split <;> simp
@[simp] theorem readBit_startSample (j : Nat) (e : Sample) (s : State) : (readBit j e s).startSample = s.startSample := by
  unfold readBit; split <;> simp
@[simp] theorem readBit_startLevel (j : Nat) (e : Sample) (s : State) : (readBit j e s).startLevel = s.startLevel := by
  unfold readBit; split <;> simp
@[simp] theorem readBit_halfbit (j : Nat) (e : Sample) (s : State) : (readBit j e s).halfbit = s.halfbit := by
  unfold readBit; split <;> simp
@[simp] theorem readBit_tol (j : Nat) (e : Sample) (s : State) : (readBit j e s).tol = s.tol := by
  unfold readBit; split <;> simp
@[simp] theorem readBit_rsync (j : Nat) (e : Sample) (s : State) : (readBit j e s).rsync = s.rsync := by
  unfold readBit; split <;> simp
@[simp] theorem readBit_invL (j : Nat) (e : Sample) (s : State) : (readBit j e s).invL = s.invL := by
  unfold readBit; split <;> simp
@[simp] theorem readBit_srL (j : Nat) (e : Sample) (s : State) : (readBit j e s).srL = s.srL := by
  unfold readBit; split <;> simp
@[simp] theorem readBit_running (j : Nat) (e : Sample) (s : State) : (readBit j e s).running = s.running := by
  unfold readBit; split <;> simp
@[simp] theorem readBit_badCmd (j : Nat) (e : Sample) (s : State) : (readBit j e s).badCmd = s.badCmd := by
  unfold readBit; split <;> simp
@[simp] theorem readBit_orderErr (j : Nat) (e : Sample) (s : State) : (readBit j e s).orderErr = s.orderErr := by
  unfold readBit; split <;> simp
@[simp] theorem readBit_cfgErr (j : Nat) (e : Sample) (s : State) : (readBit j e s).cfgErr = s.cfgErr := by
  unfold readBit; split <;> simp
@[simp] theorem readBit_synccount (j : Nat) (e : Sample) (s : State) : (readBit j e s).synccount = s.synccount := by
  unfold readBit; split <;> simp
@[simp] theorem readBit_pktseq (j : Nat) (e : Sample) (s : State) : (readBit j e s).pktseq = s.pktseq := by
  unfold readBit; split <;> simp
@[simp] theorem readBit_cursample (j : Nat) (e : Sample) (s : State) : (readBit j e s).cursample = s.cursample := by
  unfold readBit; split <;> simp
@[simp] theorem readBit_curlevel (j : Nat) (e : Sample) (s : State) : (readBit j e s).curlevel = s.curlevel := by
  unfold readBit; split <;> simp
@[simp] theorem readBit_runStart (j : Nat) (e : Sample) (s : State) : (readBit j e s).runStart = s.runStart := by
  unfold readBit; split <;> simp
@[simp] theorem readBit_l5Start (j : Nat) (e : Sample) (s : State) : (readBit j e s).l5Start = s.l5Start := by
  unfold readBit; split <;> simp
@[simp] theorem readBit_probeBase (j : Nat) (e : Sample) (s : State) : (readBit j e s).probeBase = s.probeBase := by
  unfold readBit; split <;> simp
@[simp] theorem readBit_nextValid (j : Nat) (e : Sample) (s : State) : (readBit j e s).nextValid = s.nextValid := by
  unfold readBit; split <;> simp
@[simp] theorem readBit_nextSample (j : Nat) (e : Sample) (s : State) : (readBit j e s).nextSample = s.nextSample := by
  unfold readBit; split <;> simp
@[simp] theorem readBit_horizon (j : Nat) (e : Sample) (s : State) : (readBit j e s).horizon = s.horizon := by
  unfold readBit; split <;> simp
@[simp] theorem readBit_input (j : Nat) (e : Sample) (s : State) : (readBit j e s).input = s.input := by
  unfold readBit; split <;> simp
@[simp] theorem readBit_issuer (j : Nat) (e : Sample) (s : State) : (readBit j e s).issuer = s.issuer := by
  unfold readBit; split <;> simp

end Sys2Proof.Machine
end

