-- ==== Sys2Proof/Laws/Ops.lean ====
section
/-! SUPPORT. One lemma per shared operation that says once everything it can do. -/

namespace Sys2Proof.Machine

/-! ## Words and levels -/

@[simp] theorem otherLevel_other (l : Level) : otherLevel (otherLevel l) = l := by cases l <;> rfl

theorem otherLevel_eq (l : Level) : otherLevel l = if l = .low then .high else .low := by cases l <;> rfl

theorem oneLevel_eq (s : State) : oneLevel s = if s.invL = true then .high else .low := by
  unfold oneLevel levelOfBit; cases s.invL <;> rfl

theorem bitValue_iff (s : State) : bitValue s = true ↔ s.curlevel = oneLevel s := by simp [bitValue]

/-- A natural number below 2^64 is not changed by `trunc64`. -/
theorem trunc64_toNat (v : Int) (h0 : 0 ≤ v) (h : v < 2 ^ 64) : (trunc64 v).toNat = v.toNat := by
  unfold trunc64
  rw [BitVec.toNat_ofInt]
  congr 1
  exact Int.emod_eq_of_lt h0 (by simpa using h)

/-- `trunc64` of a natural number is that number's 64 low bits. -/
theorem trunc64_natCast (n : Nat) : trunc64 (n : Int) = BitVec.ofNat 64 n := by
  unfold trunc64
  exact BitVec.ofInt_natCast 64 n

theorem shiftIn_toNat (acc : Byte) (b : Bool) : (shiftIn acc b).toNat = (2 * acc.toNat + b.toNat) % 256 := by
  unfold shiftIn
  simp only [BitVec.extractLsb'_toNat, BitVec.toNat_append, BitVec.toNat_ofBool, Nat.shiftRight_zero]
  rw [← Nat.shiftLeft_add_eq_or_of_lt (by cases b <;> simp), Nat.shiftLeft_eq, Nat.mul_comm]

/-- Below saturation SYNCCOUNT rises by 1; at 2^32 - 1 it stays. -/
theorem sat32_succ (c : BitVec 32) : sat32 (c.toNat + 1) = if c = 0xFFFFFFFF#32 then c else c + 1#32 := by
  unfold sat32
  split
  · next h => subst h; rfl
  · next h =>
    have : c.toNat ≠ 2 ^ 32 - 1 := fun hc => h (BitVec.eq_of_toNat_eq (by simpa using hc))
    apply BitVec.eq_of_toNat_eq
    have := c.isLt
    simp [BitVec.toNat_add]
    omega

theorem sat32_succ_toNat (c : BitVec 32) : (sat32 (c.toNat + 1)).toNat = min (c.toNat + 1) (2 ^ 32 - 1) := by
  have := c.isLt
  unfold sat32; simp

/-! ## Registers -/

/-- The six writable numbers, the eight read-only ones, and nothing else (30_encoding.md R86). -/
theorem regOfNumber_eq (n : BitVec 8) :
    regOfNumber n =
      if n = 0x00#8 then some .bitrate else if n = 0x01#8 then some .samplerate else if n = 0x02#8 then some .ctrl
      else if n = 0x03#8 then some .syncbits else if n = 0x04#8 then some .startSample else if n = 0x05#8 then some .startLevel
      else if n = 0x10#8 then some .halfbit else if n = 0x11#8 then some .tol else if n = 0x12#8 then some .rsync
      else if n = 0x13#8 then some .status else if n = 0x14#8 then some .synccount else if n = 0x15#8 then some .pktseq
      else if n = 0x16#8 then some .cursample else if n = 0x17#8 then some .curlevel else none := by
  revert n; decide

@[simp] theorem regOfNumber_regNumber (r : Reg) : regOfNumber (regNumber r) = some r := by cases r <;> rfl

/-- A number that names a register is that register's number. -/
theorem regNumber_of_regOfNumber (n : BitVec 8) (r : Reg) (h : regOfNumber n = some r) : n = regNumber r := by
  have := List.find?_some h
  simp at this
  exact this.symm

/-- `writeReg` answers exactly for the registers that R86 marks RW. -/
theorem writeReg_isSome (r : Reg) (v : Word64) (s : State) : (writeReg r v s).isSome = regWritable r := by cases r <;> rfl

/-! ## The classifier -/

/-- The window test on an interval from the cursor is `intervalIn` of the class's multiple (41_classifier.md R131). -/
theorem inWindow_intervalTo (e : Sample) (s : State) (c : IntervalClass) :
    inWindow s.halfbit.toNat s.tol.toNat (intervalTo e s).length c = intervalIn (classMultiple c) e s := by
  unfold inWindow intervalTo intervalIn
  apply decide_eq_decide.mpr
  constructor
  · rintro ⟨h1, h2⟩
    constructor <;> zify <;> linarith
  · rintro ⟨h1, h2⟩
    zify at h1 h2
    constructor <;> linarith

/-- What each phase can see in an interval (41_classifier.md R134, R135). -/
theorem classifyIn_scan (e : Sample) (s : State) :
    classifyIn .scan (intervalTo e s) s =
      if intervalIn 1 e s then some .half else if intervalIn 5 e s then some .long5 else none := by
  simp only [classifyIn, classify, candidates, classPriority, List.find?_cons, List.find?_nil, inWindow_intervalTo, classMultiple]
  cases intervalIn 1 e s <;> cases intervalIn 5 e s <;> rfl


theorem classifyIn_startNext (e : Sample) (s : State) :
    classifyIn .startNext (intervalTo e s) s =
      if intervalIn 4 e s then some .long4 else if intervalIn 5 e s then some .long5 else none := by
  simp only [classifyIn, classify, candidates, classPriority, List.find?_cons, List.find?_nil, inWindow_intervalTo, classMultiple]
  cases intervalIn 4 e s <;> cases intervalIn 5 e s <;> rfl

theorem classifyIn_startHalf (e : Sample) (s : State) :
    classifyIn .startHalf (intervalTo e s) s = if intervalIn 1 e s then some .half else none := by
  simp only [classifyIn, classify, candidates, classPriority, List.find?_cons, List.find?_nil, inWindow_intervalTo, classMultiple]
  cases intervalIn 1 e s <;> rfl

theorem classifyIn_bitFirst (e : Sample) (s : State) :
    classifyIn .bitFirst (intervalTo e s) s =
      if intervalIn 1 e s then some .half else if intervalIn 2 e s then some .full else none := by
  simp only [classifyIn, classify, candidates, classPriority, List.find?_cons, List.find?_nil, inWindow_intervalTo, classMultiple]
  cases intervalIn 1 e s <;> cases intervalIn 2 e s <;> rfl

theorem classifyIn_bitSecond (e : Sample) (s : State) :
    classifyIn .bitSecond (intervalTo e s) s = if intervalIn 1 e s then some .half else none := by
  simp only [classifyIn, classify, candidates, classPriority, List.find?_cons, List.find?_nil, inWindow_intervalTo, classMultiple]
  cases intervalIn 1 e s <;> rfl

theorem classifyIn_stopFirst (e : Sample) (s : State) :
    classifyIn .stopFirst (intervalTo e s) s =
      if intervalIn 1 e s then some .half else if intervalIn 2 e s then some .full
      else if intervalIn 4 e s then some .long4 else if intervalIn 5 e s then some .long5 else none := by
  simp only [classifyIn, classify, candidates, classPriority, List.find?_cons, List.find?_nil, inWindow_intervalTo, classMultiple]
  cases intervalIn 1 e s <;> cases intervalIn 2 e s <;> cases intervalIn 4 e s <;> cases intervalIn 5 e s <;> rfl

theorem classifyIn_stopSecond (e : Sample) (s : State) :
    classifyIn .stopSecond (intervalTo e s) s =
      if intervalIn 1 e s then some .half else if intervalIn 4 e s then some .long4 else none := by
  simp only [classifyIn, classify, candidates, classPriority, List.find?_cons, List.find?_nil, inWindow_intervalTo, classMultiple]
  cases intervalIn 1 e s <;> cases intervalIn 4 e s <;> rfl

/-- A rule reads the interval after the cursor has moved; the classification needs only T and TOL. -/
@[simp] theorem classifyIn_moveCursor (ph : Phase) (iv : Interval) (e : Sample) (s : State) :
    classifyIn ph iv (moveCursor e s) = classifyIn ph iv s := rfl

@[simp] theorem classifyIn_emptied (ph : Phase) (iv : Interval) (b : Bool) (s : State) :
    classifyIn ph iv { s with nextValid := b } = classifyIn ph iv s := rfl

/-! ## The Timing Model -/

/-- The three divisors and no other (10_state.md R23). -/
theorem tolDivisor_eq_some (ts : BitVec 2) (d : Nat) :
    tolDivisor ts = some d ↔ ts = 0#2 ∧ d = 2 ∨ ts = 1#2 ∧ d = 10 ∨ ts = 2#2 ∧ d = 100 := by
  unfold tolDivisor
  have : ∀ t : BitVec 2, t = 0#2 ∨ t = 1#2 ∨ t = 2#2 ∨ t = 3#2 := by decide
  rcases this ts with rfl | rfl | rfl | rfl <;> simp [eq_comm]

/-- START's checks pass exactly here, and this is what it derives (40_control.md R103 to R105). -/
theorem deriveTiming_eq_some (br sr : BitVec 32) (ts : BitVec 2) (tm : Timing) :
    deriveTiming br sr ts = some tm ↔
      ∃ d, tolDivisor ts = some d ∧ 1 ≤ br.toNat ∧ br.toNat ≤ maxBitRate ∧ minRateRatio * br.toNat ≤ sr.toNat ∧
        tm = { halfbit := BitVec.ofNat 32 (halfBitSamples br.toNat sr.toNat)
               tol := BitVec.ofNat 32 (toleranceSamples (halfBitSamples br.toNat sr.toNat) d) } := by
  unfold deriveTiming
  cases tolDivisor ts with
  | none => simp
  | some d =>
    simp only [Option.some.injEq, exists_eq_left']
    split
    · next h =>
      simp only [reduceCtorEq, false_iff]
      rintro ⟨h1, h2, h3, -⟩
      omega
    · next h =>
      simp only [Option.some.injEq]
      constructor
      · rintro rfl
        exact ⟨by omega, by omega, by omega, rfl⟩
      · rintro ⟨-, -, -, rfl⟩
        rfl

/-- The half-bit period of a legal configuration fits HALFBIT and is at least 4 (40_control.md R108). -/
theorem halfBitSamples_bounds (br sr : Nat) (h1 : 1 ≤ br) (h2 : 8 * br ≤ sr) (h3 : sr < 2 ^ 32) :
    4 ≤ halfBitSamples br sr ∧ halfBitSamples br sr ≤ 2 ^ 31 := by
  unfold halfBitSamples
  constructor
  · rw [Nat.le_div_iff_mul_le (by omega)]
    omega
  · rw [← Nat.lt_succ_iff, Nat.div_lt_iff_lt_mul (by omega)]
    have : 2 ^ 32 * 1 ≤ 2 ^ 32 * br := Nat.mul_le_mul_left _ h1
    omega

/-! ## Reading bits -/

/-- Reading a bit before the eighth (44_byte_decode.md R201). -/
theorem readBit_of_lt (j : Nat) (e : Sample) (s : State) (h : j < 8) : readBit j e s = { takeBit j e s with phase := .bitFirst } := by
  simp [readBit, h]

/-- Reading the eighth bit (44_byte_decode.md R201). -/
theorem readBit_of_ge (j : Nat) (e : Sample) (s : State) (h : 8 ≤ j) : readBit j e s = dataComplete e (takeBit j e s) := by
  have : ¬j < 8 := by omega
  simp [readBit, this]

/-- Reading a bit appends one marker, or after the eighth bit a marker and a Data frame with its commit and progress. -/
theorem readBit_out (j : Nat) (e : Sample) (s : State) :
    (readBit j e s).out = s.out ++ (.marker (if bitValue s then .one else .zero) e ::
      if j < 8 then []
      else frameRecords .data (takeBit j e s).byteStart (trunc64 ((e.toNat : Int) + s.halfbit.toNat))
        ((takeBit j e s).byteAcc.setWidth 64) 0#64) := by
  unfold readBit
  split <;> simp [takeBit, dataComplete]

theorem readBit_phase (j : Nat) (e : Sample) (s : State) :
    (readBit j e s).phase = if j < 8 then .bitFirst else .stopFirst := by
  unfold readBit
  split <;> simp [dataComplete]

theorem readBit_lastDataEnd (j : Nat) (e : Sample) (s : State) :
    (readBit j e s).lastDataEnd = if j < 8 then s.lastDataEnd else trunc64 ((e.toNat : Int) + s.halfbit.toNat) := by
  unfold readBit
  split <;> simp [dataComplete, takeBit]

theorem readBit_bitidx (j : Nat) (e : Sample) (s : State) : (readBit j e s).bitidx = BitVec.ofNat 4 j := by
  unfold readBit
  split <;> simp [dataComplete, takeBit]

theorem readBit_byteAcc (j : Nat) (e : Sample) (s : State) :
    (readBit j e s).byteAcc = shiftIn (if j = 1 then 0#8 else s.byteAcc) (bitValue s) := by
  unfold readBit
  split <;> simp [dataComplete, takeBit]

theorem readBit_byteStart (j : Nat) (e : Sample) (s : State) :
    (readBit j e s).byteStart = if j = 1 then trunc64 ((e.toNat : Int) - s.halfbit.toNat) else s.byteStart := by
  unfold readBit
  split <;> simp [dataComplete, takeBit]

/-! ## The probe -/

/-- With a transition held, the probe answers at once (42_edge_input.md R159). -/
theorem probe_of_held (n : Nat) (s : State) (h : s.nextValid = true) :
    probe n s = if s.nextSample.toNat ≤ s.cursample.toNat + n then .cross else .noCross := by simp [probe, h]

/-- With none held, the probe answers when the horizon reaches the end of the span (42_edge_input.md R159). -/
theorem probe_of_empty (n : Nat) (s : State) (h : s.nextValid = false) :
    probe n s = if s.cursample.toNat + n ≤ s.horizon.toNat then .noCross else .wait := by simp [probe, h]

/-- With nothing held there is nothing to replay (42_edge_input.md R158). -/
theorem replay_of_empty (s : State) (h : s.nextValid = false) : replay s = s := by simp [replay, h]

/-- The held transition is consumed in SCAN (42_edge_input.md R158). -/
theorem replay_of_held (s : State) (h : s.nextValid = true) :
    replay s = scanEdge (intervalTo s.nextSample s) (moveCursor s.nextSample { s with nextValid := false }) := by
  simp [replay, h, intervalTo]

/-! ## EDGE -/

/-- A measured transition takes one of three ways in SCAN: counted, the START symbol opened, or the run cleared. -/
theorem scanEdge_cases (iv : Interval) (s : State) :
    scanEdge iv s = countHalf iv s ∨ scanEdge iv s = { s with l5Start := iv.opened, phase := .startNext } ∧ startQualifies s = true ∨
      scanEdge iv s = raiseInvalidStart s := by
  unfold scanEdge
  split
  · exact .inl rfl
  · split
    · next h => exact .inr (.inl ⟨rfl, h⟩)
    · exact .inr (.inr rfl)
  · exact .inr (.inr rfl)

/-- No rule of SCAN emits a record (43_preamble_scan.md R171). -/
@[simp] theorem scanEdge_out (iv : Interval) (s : State) : (scanEdge iv s).out = s.out := by
  rcases scanEdge_cases iv s with h | ⟨h, -⟩ | h <;> simp [h, countHalf]

/-- The replay emits nothing (42_edge_input.md R158). -/
@[simp] theorem replay_out (s : State) : (replay s).out = s.out := by
  unfold replay
  split <;> simp

/-- EDGE is discarded, faults, or is accepted (42_edge_input.md R150 to R152). -/
theorem execEdge_cases (e : Sample) (s : State) :
    s.running = false ∧ execEdge e s = .next s ∨
      s.running = true ∧ (e.toNat ≤ s.cursample.toNat ∨ e.toNat ≤ s.horizon.toNat) ∧ execEdge e s = .next (orderFault s) ∨
      EdgeAccepted e s ∧ execEdge e s = .next (acceptEdge e s) := by
  unfold execEdge
  cases hr : s.running with
  | false => simp
  | true =>
    by_cases hb : e.toNat ≤ s.cursample.toNat ∨ e.toNat ≤ s.horizon.toNat
    · simp [breaksOrder, hb]
    · refine .inr (.inr ⟨⟨hr, by omega, by omega⟩, ?_⟩)
      simp [breaksOrder, hb]

theorem execEdge_accepted (e : Sample) (s : State) (h : EdgeAccepted e s) : execEdge e s = .next (acceptEdge e s) := by
  obtain ⟨hr, h1, h2⟩ := h
  have : ¬(e.toNat ≤ s.cursample.toNat ∨ e.toNat ≤ s.horizon.toNat) := by omega
  simp [execEdge, hr, breaksOrder, this]

/-- Outside STOP_PROBE an accepted EDGE is measured by the rule of its phase (42_edge_input.md R154). -/
theorem acceptEdge_of_rule (e : Sample) (s t : State) (h : intervalRule s.phase (intervalTo e s) (moveCursor e s) = some t) :
    acceptEdge e s = t := by simp [acceptEdge, h]

/-- In STOP_PROBE an accepted EDGE is held and settles the probe (42_edge_input.md R155). -/
theorem acceptEdge_of_probe (e : Sample) (s : State) (h : s.phase = .stopProbe) :
    acceptEdge e s = probeStep { s with nextValid := true, nextSample := e } := by simp [acceptEdge, h, intervalRule]

/-- QUIET is discarded, raises the horizon, or also asks the probe (42_edge_input.md R156). -/
theorem execQuiet_cases (h : Sample) (s : State) :
    s.running = false ∧ execQuiet h s = .next s ∨
      s.running = true ∧ s.phase ≠ .stopProbe ∧ execQuiet h s = .next (raiseHorizon h s) ∨
      s.running = true ∧ s.phase = .stopProbe ∧ execQuiet h s = .next (probeStep (raiseHorizon h s)) := by
  unfold execQuiet
  cases hr : s.running with
  | false => simp
  | true => by_cases hp : s.phase = .stopProbe <;> simp [hp]

/-- The probe waits, confirms or fails (45_stop_detect.md R224). -/
theorem probeStep_cases (s : State) :
    probe (probeSamples s) s = .wait ∧ probeStep s = s ∨
      probe (probeSamples s) s = .noCross ∧ probeStep s = replay (stopConfirmed s) ∨
      probe (probeSamples s) s = .cross ∧ probeStep s = replay (raiseStopVerify s) := by
  unfold probeStep
  cases probe (probeSamples s) s <;> simp

/-! ## Output records -/

/-- The block's own record is appended, the host's is malformed (46_output_records.md R240, 30_encoding.md R91). -/
theorem transmit_eq (r : Record) (s : State) :
    transmit r s = if s.issuer = .block then emit r s else discardMalformed s := by
  unfold transmit
  cases s.issuer <;> simp

/-! ## Steps -/

/-- What a step can be: a wait, a reset, a performed row, or a discarded transaction (60_exceptions.md R260). -/
theorem step_cases (s : State) :
    s.input = [] ∧ step s = .next s ∨
      (∃ rest, s.input = .reset :: rest ∧ step s = .next { State.reset with input := rest }) ∨
      (∃ t rest i, s.input = .transaction t :: rest ∧ decode t = .ok i ∧
        step s = exec i { s with input := rest, issuer := .host }) ∨
      ∃ t rest err, s.input = .transaction t :: rest ∧ decode t = .error err ∧
        step s = .next (discardMalformed { s with input := rest, issuer := .host }) := by
  unfold step performNext fetch
  rcases hi : s.input with _ | ⟨_ | _, rest⟩
  · simp
  · next t =>
    cases hd : decode t with
    | ok i => simp [performEvent, performTransaction, hd]
    | error err => simp [performEvent, performTransaction, hd]
  · simp [performEvent, hardReset]

end Sys2Proof.Machine
end

