-- ==== Sys2Proof/Laws/PerInstr.lean ====
section
/-! SUPPORT. Statements made once per row of the opcode table. -/

namespace Sys2Proof.Laws.WellShaped

/-- A header with RSV = 0 has its opcode, its ARG and RSV in their places (30_encoding.md R81). -/
theorem header_fields (op : Opcode) (arg : BitVec 8) :
    headerOpc (makeHeader (opcodeByte op) arg) = opcodeByte op ∧ headerArg (makeHeader (opcodeByte op) arg) = arg ∧
      headerRsv (makeHeader (opcodeByte op) arg) = 0#16 := by
  revert arg
  cases op <;> decide

/-- Each assigned OPC value names its own opcode (30_encoding.md R82). -/
theorem opcodeOfByte_opcodeByte (op : Opcode) : opcodeOfByte (opcodeByte op) = some op := by
  cases op <;> rfl

/-- The words of a row have RSV = 0, an assigned opcode, and the payload count of that opcode; a host command has an opcode below 0x80, an
output record one above (30_encoding.md R81, R82, R87). -/
def Statement (i : Instr) : Prop :=
  headerRsv (encode i).header = 0#16 ∧
    ∃ op, opcodeOfByte (headerOpc (encode i).header) = some op ∧ (encode i).payload.length = payloadCount op ∧
      opcodeIsCommand op = i.isHostCommand ∧ (headerOpc (encode i).header).getLsbD 7 = !i.isHostCommand

/-- What a transaction made from an opcode, ARG and the right number of words is. -/
theorem of_make (i : Instr) (op : Opcode) (arg : BitVec 8) (payload : List Word64)
    (he : encode i = makeTransaction op arg payload) (hp : payload.length = payloadCount op)
    (hc : opcodeIsCommand op = i.isHostCommand) : Statement i := by
  obtain ⟨ho, -, hr⟩ := header_fields op arg
  refine ⟨by rw [he]; exact hr, op, ?_, by rw [he]; exact hp, hc, ?_⟩
  · rw [he]
    exact (congrArg opcodeOfByte ho).trans (opcodeOfByte_opcodeByte op)
  · rw [he, ← hc]
    exact (congrArg (BitVec.getLsbD · 7) ho).trans (by cases op <;> rfl)

theorem cfgWrite (reg : BitVec 8) (value : Word64) : Statement (.cfgWrite reg value) := of_make _ _ _ _ rfl rfl rfl
theorem regRead (reg : BitVec 8) : Statement (.regRead reg) := of_make _ _ _ _ rfl rfl rfl
theorem start : Statement (.start) := of_make _ _ _ _ rfl rfl rfl
theorem cancel : Statement (.cancel) := of_make _ _ _ _ rfl rfl rfl
theorem edge (sample : Sample) : Statement (.edge sample) := of_make _ _ _ _ rfl rfl rfl
theorem quiet (horizon : Sample) : Statement (.quiet horizon) := of_make _ _ _ _ rfl rfl rfl
theorem frameSync (a b : Sample) (p q : Word64) (f : Word32) : Statement (.frameSync a b p q f) := of_make _ _ _ _ rfl rfl rfl
theorem frameStart (a b : Sample) (p q : Word64) (f : Word32) : Statement (.frameStart a b p q f) := of_make _ _ _ _ rfl rfl rfl
theorem frameData (a b : Sample) (p q : Word64) (f : Word32) : Statement (.frameData a b p q f) := of_make _ _ _ _ rfl rfl rfl
theorem frameStop (a b : Sample) (p q : Word64) (f : Word32) : Statement (.frameStop a b p q f) := of_make _ _ _ _ rfl rfl rfl
theorem markerOne (sample : Sample) : Statement (.markerOne sample) := of_make _ _ _ _ rfl rfl rfl
theorem markerZero (sample : Sample) : Statement (.markerZero sample) := of_make _ _ _ _ rfl rfl rfl
theorem markerStart (sample : Sample) : Statement (.markerStart sample) := of_make _ _ _ _ rfl rfl rfl
theorem markerStop (sample : Sample) : Statement (.markerStop sample) := of_make _ _ _ _ rfl rfl rfl
theorem markerErrorDot (sample : Sample) : Statement (.markerErrorDot sample) := of_make _ _ _ _ rfl rfl rfl
theorem commit : Statement (.commit) := of_make _ _ _ _ rfl rfl rfl
theorem progress (sample : Sample) : Statement (.progress sample) := of_make _ _ _ _ rfl rfl rfl
theorem regValue (reg : BitVec 8) (value : Word64) : Statement (.regValue reg value) := of_make _ _ _ _ rfl rfl rfl

end Sys2Proof.Laws.WellShaped
end

