-- ==== Sys2Proof/Machine/Assembler.lean ====
section
/-! DEFINITION. The text syntax of transactions and the two pseudo-transactions (30_encoding.md R93, R94). They exist in text only: no
state and no step depends on this file. -/

namespace Sys2Proof.Machine

/-! ## Names -/

/-- A register's name (R86). -/
def regName : Reg → String
  | .bitrate => "BITRATE"
  | .samplerate => "SAMPLERATE"
  | .ctrl => "CTRL"
  | .syncbits => "SYNCBITS"
  | .startSample => "START_SAMPLE"
  | .startLevel => "START_LEVEL"
  | .halfbit => "HALFBIT"
  | .tol => "TOL"
  | .rsync => "RSYNC"
  | .status => "STATUS"
  | .synccount => "SYNCCOUNT"
  | .pktseq => "PKTSEQ"
  | .cursample => "CURSAMPLE"
  | .curlevel => "CURLEVEL"

/-- A frame kind's name (R84). -/
def frameKindName : FrameKind → String
  | .sync => "Sync"
  | .start => "Start"
  | .data => "Data"
  | .stop => "Stop"

/-- A marker kind's name (R85). -/
def markerKindName : MarkerKind → String
  | .one => "One"
  | .zero => "Zero"
  | .start => "Start"
  | .stop => "Stop"
  | .errorDot => "ErrorDot"

/-! ## Writing (R93) -/

/-- An output record as text (R93). R93 lets a number be decimal or hexadecimal; every number is written in decimal (DESIGN CHOICE,
notes/assumptions/18.md, safe). -/
def recordText : Record → String
  | .frame k a b p q f =>
    "FRAME " ++ frameKindName k ++ " [" ++ toString a.toNat ++ ", " ++ toString b.toNat ++ "] p=" ++ toString p.toNat ++ " s="
      ++ toString q.toNat ++ " f=" ++ toString f.toNat
  | .marker k sample => "MARKER " ++ markerKindName k ++ " @" ++ toString sample.toNat
  | .commit => "COMMIT"
  | .progress sample => "PROGRESS " ++ toString sample.toNat
  | .regValue reg value => "REG_VALUE " ++ regName reg ++ ", " ++ toString value.toNat

/-! ## Reading (R93) -/

/-- The pieces of a text between separators. -/
def splitAtChar (sep : Char) : List Char → List (List Char)
  | [] => [[]]
  | c :: cs =>
    if c = sep then [] :: splitAtChar sep cs
    else
      match splitAtChar sep cs with
      | [] => [[c]]
      | piece :: pieces => (c :: piece) :: pieces

/-- A text without the spaces around it. -/
def trimSpaces (cs : List Char) : List Char :=
  ((cs.dropWhile (· == ' ')).reverse.dropWhile (· == ' ')).reverse

/-- The value of a digit in a base of at most 16. -/
def digitValue (base : Nat) (c : Char) : Option Nat :=
  let v :=
    if '0' ≤ c ∧ c ≤ '9' then some (c.toNat - '0'.toNat)
    else if 'a' ≤ c ∧ c ≤ 'f' then some (c.toNat - 'a'.toNat + 10)
    else if 'A' ≤ c ∧ c ≤ 'F' then some (c.toNat - 'A'.toNat + 10)
    else none
  v.filter (· < base)

/-- Digits after an accumulated value. -/
def readDigits (base acc : Nat) : List Char → Option Nat
  | [] => some acc
  | c :: cs => (digitValue base c).bind fun v => readDigits base (acc * base + v) cs

/-- A number: decimal, or hexadecimal with a `0x` prefix (R93). -/
def readNumber : List Char → Option Nat
  | '0' :: 'x' :: c :: cs => readDigits 16 0 (c :: cs)
  | c :: cs => readDigits 10 0 (c :: cs)
  | [] => none

/-- A number that fits a payload word. -/
def readWord (cs : List Char) : Option Word64 :=
  (readNumber cs).bind fun n => if n < 2 ^ 64 then some (BitVec.ofNat 64 n) else none

/-- A register operand: its name from R86, or its number (R93). -/
def readReg8 (cs : List Char) : Option (BitVec 8) :=
  match allRegs.find? fun r => regName r == String.ofList cs with
  | some r => some (regNumber r)
  | none => (readNumber cs).bind fun n => if n < 256 then some (BitVec.ofNat 8 n) else none

/-- An operand of EDGES: a distance `d`, or `d*n` for `n` copies (R94). That `n` may be 0, for no copy, is a DESIGN CHOICE
(notes/assumptions/19.md, safe). -/
def readCopies (cs : List Char) : Option (List Nat) :=
  match splitAtChar '*' cs with
  | [d] => (readNumber (trimSpaces d)).map fun v => [v]
  | [d, n] => (readNumber (trimSpaces d)).bind fun v => (readNumber (trimSpaces n)).map fun k => List.replicate k v
  | _ => none

/-- A line of text: a transaction, or a pseudo-transaction (R93, R94). -/
inductive AsmLine where
  | blank
  | transaction (i : Instr)
  | config (bitrate samplerate inverted tolsel syncbits startSample startLevel : Word64)
  | edges (distances : List Nat)
  deriving DecidableEq, Repr

/-- A mnemonic with its operands (R93, R94). EDGES takes at least one operand, as R94 writes it; that the line without one is refused is
a DESIGN CHOICE (notes/assumptions/19.md, safe). -/
def readOperation (mnemonic : String) (operands : List (List Char)) : Option AsmLine :=
  match mnemonic, operands with
  | "CFG_WRITE", [r, v] => (readReg8 r).bind fun reg => (readWord v).map fun w => .transaction (.cfgWrite reg w)
  | "REG_READ", [r] => (readReg8 r).map fun reg => .transaction (.regRead reg)
  | "START", [] => some (.transaction .start)
  | "CANCEL", [] => some (.transaction .cancel)
  | "EDGE", [s] => (readWord s).map fun w => .transaction (.edge w)
  | "QUIET", [h] => (readWord h).map fun w => .transaction (.quiet w)
  | "CONFIG", [a, b, c, d, e, f, g] =>
    match readWord a, readWord b, readWord c, readWord d, readWord e, readWord f, readWord g with
    | some a, some b, some c, some d, some e, some f, some g => some (.config a b c d e f g)
    | _, _, _, _, _, _, _ => none
  | "EDGES", d :: ds => ((d :: ds).mapM readCopies).map fun copies => .edges copies.flatten
  | _, _ => none

/-- One line: `;` starts a comment, the mnemonic comes first, commas separate the operands (R93). -/
def readLine (line : List Char) : Option AsmLine :=
  match trimSpaces (line.takeWhile (· != ';')) with
  | [] => some .blank
  | text =>
    let mnemonic := text.takeWhile (· != ' ')
    let rest := trimSpaces (text.dropWhile (· != ' '))
    readOperation (String.ofList mnemonic) (if rest.isEmpty then [] else (splitAtChar ',' rest).map trimSpaces)

/-! ## Pseudo-transactions (R94) -/

/-- CONFIG: six CFG_WRITEs, to registers 0x00 to 0x05 in that order; CTRL is `{tolsel[1:0], inverted[0]}` (R94). -/
def expandConfig (bitrate samplerate inverted tolsel syncbits startSample startLevel : Word64) : List Instr :=
  [.cfgWrite (regNumber .bitrate) bitrate, .cfgWrite (regNumber .samplerate) samplerate,
    .cfgWrite (regNumber .ctrl) (0#61 ++ tolsel.extractLsb' 0 2 ++ inverted.extractLsb' 0 1),
    .cfgWrite (regNumber .syncbits) syncbits, .cfgWrite (regNumber .startSample) startSample,
    .cfgWrite (regNumber .startLevel) startLevel]

/-- EDGES: one EDGE per distance, each from the one before; `none` where a sample does not fit a payload word (R94). -/
def expandEdges (base : Nat) : List Nat → Option (List Instr)
  | [] => some []
  | d :: ds =>
    if base + d < 2 ^ 64 then (expandEdges (base + d) ds).map (.edge (BitVec.ofNat 64 (base + d)) :: ·) else none

/-- What EDGES counts from: the previous EDGE of the text, else the start sample of the last CONFIG (R94). -/
structure AsmBase where
  lastEdge : Option Nat
  lastConfig : Option Nat
  deriving DecidableEq, Repr

/-- The base of the next EDGES (R94). -/
def AsmBase.value (b : AsmBase) : Option Nat := b.lastEdge.orElse fun _ => b.lastConfig

/-- A line's transactions, and the base after it (R94). -/
def expandLine (b : AsmBase) : AsmLine → Option (List Instr × AsmBase)
  | .blank => some ([], b)
  | .transaction (.edge s) => some ([.edge s], { b with lastEdge := some s.toNat })
  | .transaction i => some ([i], b)
  | .config br sr inv ts sb start level =>
    some (expandConfig br sr inv ts sb start level, { b with lastConfig := some start.toNat })
  | .edges ds =>
    b.value.bind fun base => (expandEdges base ds).map fun is =>
      (is, if ds.isEmpty then b else { b with lastEdge := some (base + ds.sum) })

/-- The transactions of a text, line by line (R93, R94). -/
def assembleFrom (b : AsmBase) : List (List Char) → Option (List Instr)
  | [] => some []
  | line :: lines =>
    (readLine line).bind fun l => (expandLine b l).bind fun (is, b') => (assembleFrom b' lines).map (is ++ ·)

/-- The transactions of a text: one transaction per line (R93). -/
def assemble (text : List Char) : Option (List Instr) :=
  assembleFrom { lastEdge := none, lastConfig := none } (splitAtChar '\n' text)

end Sys2Proof.Machine
end

