-- ==== Sys2Proof/Tests/Slice0.lean ====
section
/-! SUPPORT. The model's own tests. Expected values come from the spec: words from 30_encoding.md R95 or written out from R81 to R86,
results from the vectors of 95_test_vectors.md, named in each comment. The last part shows that the hypotheses of each obligation can be
met. -/

namespace Sys2Proof.Tests

open Sys2Proof.Machine

/-! ## Ill-formed rows are refused (30_encoding.md R88, R89) -/

theorem test_cfgWrite_readOnly_refused : (Instr.cfgWrite 0x10#8 0#64).wellFormed = false := by decide
theorem test_cfgWrite_unassigned_refused : (Instr.cfgWrite 0x06#8 0#64).wellFormed = false := by decide
theorem test_cfgWrite_last_accepted : (Instr.cfgWrite 0x05#8 0#64).wellFormed = true := by decide
theorem test_regRead_unassigned_refused : (Instr.regRead 0x18#8).wellFormed = false := by decide
theorem test_regRead_gap_refused : (Instr.regRead 0x0F#8).wellFormed = false := by decide
theorem test_regValue_unassigned_refused : (Instr.regValue 0x06#8 0#64).wellFormed = false := by decide

/-! ## Decoding of words written out from the tables -/

/-- OPC 00000001, ARG 00000011 (SYNCBITS), RSV 0; one payload word. -/
theorem test_decode_cfgWrite :
    decode { header := 0b00000001000000110000000000000000#32, payload := [5#64] } = .ok (.cfgWrite 0x03#8 5#64) := rfl
/-- OPC 00000010, ARG 00010111 (CURLEVEL), RSV 0. -/
theorem test_decode_regRead :
    decode { header := 0b00000010000101110000000000000000#32, payload := [] } = .ok (.regRead 0x17#8) := rfl
/-- OPC 00000011. -/
theorem test_decode_start : decode { header := 0b00000011000000000000000000000000#32, payload := [] } = .ok .start := rfl
/-- OPC 00000100. -/
theorem test_decode_cancel : decode { header := 0b00000100000000000000000000000000#32, payload := [] } = .ok .cancel := rfl
/-- OPC 00000101. -/
theorem test_decode_edge :
    decode { header := 0b00000101000000000000000000000000#32, payload := [296#64] } = .ok (.edge 296#64) := rfl
/-- OPC 00000110. -/
theorem test_decode_quiet :
    decode { header := 0b00000110000000000000000000000000#32, payload := [504#64] } = .ok (.quiet 504#64) := rfl
/-- OPC 10000001, kinds 0 to 3; five payload words, the fifth the flags. -/
theorem test_decode_frameSync :
    decode { header := 0b10000001000000000000000000000000#32, payload := [1#64, 2#64, 3#64, 4#64, 5#64] } =
      .ok (.frameSync 1#64 2#64 3#64 4#64 5#32) := rfl
theorem test_decode_frameStart :
    decode { header := 0b10000001000000010000000000000000#32, payload := [1#64, 2#64, 3#64, 4#64, 5#64] } =
      .ok (.frameStart 1#64 2#64 3#64 4#64 5#32) := rfl
theorem test_decode_frameData :
    decode { header := 0b10000001000000100000000000000000#32, payload := [1#64, 2#64, 3#64, 4#64, 5#64] } =
      .ok (.frameData 1#64 2#64 3#64 4#64 5#32) := rfl
theorem test_decode_frameStop :
    decode { header := 0b10000001000000110000000000000000#32, payload := [1#64, 2#64, 3#64, 4#64, 5#64] } =
      .ok (.frameStop 1#64 2#64 3#64 4#64 5#32) := rfl
/-- OPC 10000010, kinds 0 to 4. -/
theorem test_decode_markerOne :
    decode { header := 0b10000010000000000000000000000000#32, payload := [7#64] } = .ok (.markerOne 7#64) := rfl
theorem test_decode_markerZero :
    decode { header := 0b10000010000000010000000000000000#32, payload := [7#64] } = .ok (.markerZero 7#64) := rfl
theorem test_decode_markerStart :
    decode { header := 0b10000010000000100000000000000000#32, payload := [7#64] } = .ok (.markerStart 7#64) := rfl
theorem test_decode_markerStop :
    decode { header := 0b10000010000000110000000000000000#32, payload := [7#64] } = .ok (.markerStop 7#64) := rfl
theorem test_decode_markerErrorDot :
    decode { header := 0b10000010000001000000000000000000#32, payload := [500#64] } = .ok (.markerErrorDot 500#64) := rfl
/-- OPC 10000011. -/
theorem test_decode_commit : decode { header := 0b10000011000000000000000000000000#32, payload := [] } = .ok .commit := rfl
/-- OPC 10000100. -/
theorem test_decode_progress :
    decode { header := 0b10000100000000000000000000000000#32, payload := [456#64] } = .ok (.progress 456#64) := rfl
/-- OPC 10000101, ARG 00010011 (STATUS). -/
theorem test_decode_regValue :
    decode { header := 0b10000101000100110000000000000000#32, payload := [0x1303#64] } = .ok (.regValue 0x13#8 0x1303#64) := rfl

/-! ## Rejections by name -/

theorem test_reject_reserved : decode { header := 0x07000000#32, payload := [] } = .error (.reservedOpcode 0x07#8) := rfl
theorem test_reject_rsv : decode { header := 0x03000001#32, payload := [] } = .error (.reservedBitsSet 1#16) := rfl
theorem test_reject_count : decode { header := 0x05000000#32, payload := [] } = .error (.wrongPayloadCount 1 0) := rfl
theorem test_reject_arg : decode { header := 0x05010000#32, payload := [1#64] } = .error (.argNotZero 1#8) := rfl
theorem test_reject_readOnly : decode { header := 0x01160000#32, payload := [1#64] } = .error (.registerNotWritable 0x16#8) := rfl
theorem test_reject_register : decode { header := 0x02180000#32, payload := [] } = .error (.registerUnassigned 0x18#8) := rfl
theorem test_reject_markerKind : decode { header := 0x82050000#32, payload := [1#64] } = .error (.unknownKind 5#8) := rfl
theorem test_reject_bytes : decodeBytes [0x00#8, 0x00#8, 0x03#8] = .error (.partialTransaction 3) := rfl

/-! ## Bytes and table words -/

/-- 20_memory.md R63: EDGE 296 as bytes, each word least significant byte first. -/
theorem test_bytes_edge :
    transactionBytes { header := 0x05000000#32, payload := [0x128#64] } =
      [0x00#8, 0x00#8, 0x00#8, 0x05#8, 0x28#8, 0x01#8, 0x00#8, 0x00#8, 0x00#8, 0x00#8, 0x00#8, 0x00#8] := by decide
/-- A table word of CFG_WRITE: the header's 32 bits, the payload from bit 32 on. -/
theorem test_tableWord_cfgWrite : decodeTableWord 96 0x00000000000F424001000000 = some (.cfgWrite 0x00#8 1000000#64) := rfl
/-- Bits above `nbits` are 0. -/
theorem test_tableWord_short : decodeTableWord 32 0x00000000000F424001000000 = some (.cfgWrite 0x00#8 0#64) := rfl

/-! ## The text syntax (30_encoding.md R93, R94) -/

/-- The first line of P3 and an EDGES line. -/
theorem test_assemble :
    assemble "CFG_WRITE BITRATE, 0x10 ; rate\nEDGE 100\nEDGES 8*2, 40".toList =
      some [.cfgWrite 0x00#8 16#64, .edge 100#64, .edge 108#64, .edge 116#64, .edge 156#64] := by decide

/-- EDGES takes an operand; with no copies of a distance it stands for no EDGE (notes/assumptions/19.md). -/
theorem test_assemble_edges_operand :
    assemble "EDGE 100\nEDGES".toList = none ∧ assemble "EDGE 100\nEDGES 8*0".toList = some [.edge 100#64] := by decide

/-! ## States to step from: the packet of V-SYNC-1 and V-BYTE-1, T = 8, TOL = 4, RSYNC = 16, ONE_LEVEL LOW -/

/-- The state after `exec`, or the same state where it stops. -/
def after (i : Instr) (s : State) : State :=
  match exec i s with
  | .next t => t
  | .fault _ => s
  | .refused _ => s

/-- The records a performed row adds. -/
def added (i : Instr) (s : State) : List Record := (after i s).out.drop s.out.length

/-- After START. -/
def started : State :=
  { State.reset with
    bitrate := 1000000#32, samplerate := 16000000#32, startLevel := .high, halfbit := 8#32, tol := 4#32, rsync := 16#16,
    srL := 16000000#32, curlevel := .high, running := true }

/-- After 32 `Half` intervals. -/
def inRun : State := { started with cursample := 256#64, synccount := 32#32 }

/-- After the first `Long5`. -/
def inStartNext : State := { inRun with cursample := 296#64, curlevel := .low, l5Start := 256#64, phase := .startNext }

/-- After a `Long4` (V-SYNC-2). -/
def inStartHalf : State := { inStartNext with cursample := 328#64, curlevel := .high, phase := .startHalf }

/-- After bit 1 of 0x5A. -/
def inBitFirst : State :=
  { inRun with
    cursample := 336#64, synccount := 0#32, l5Start := 256#64, pktseq := 1#64, bitidx := 1#4, byteStart := 328#64,
    phase := .bitFirst }

/-- After bit 7 of 0x5A. -/
def beforeLastBit : State := { inBitFirst with cursample := 432#64, curlevel := .low, bitidx := 7#4, byteAcc := 0x2D#8 }

/-- Between the two `Half`s of bit 5 of 0x5A. -/
def inBitSecond : State := { inBitFirst with cursample := 392#64, bitidx := 4#4, byteAcc := 0x05#8, phase := .bitSecond }

/-- After the byte 0x5A, its Data frame in OUT. -/
def inStopFirst : State :=
  { inBitFirst with
    cursample := 448#64, bitidx := 8#4, byteAcc := 0x5A#8, lastDataEnd := 456#64, phase := .stopFirst,
    out := [.frame .data 328#64 456#64 0x5A#64 0#64 0#32, .commit, .progress 456#64] }

/-- One `Half` later. -/
def inStopSecond : State := { inStopFirst with cursample := 456#64, curlevel := .low, phase := .stopSecond }

/-- After the `Long5` of a STOP. -/
def inStopProbe : State := { inStopFirst with cursample := 488#64, curlevel := .low, probeBase := 488#64, phase := .stopProbe }

/-! ## One step each -/

/-- V-CTL-3: reserved bits of CTRL are dropped. -/
theorem test_cfgWrite_ctrl : readReg .ctrl (after (.cfgWrite 0x02#8 0xFF#64) State.reset) = 0x7#64 := by decide
/-- 30_encoding.md R92: a read-only register is not written. -/
theorem test_cfgWrite_readOnly : after (.cfgWrite 0x10#8 9#64) State.reset = { State.reset with badCmd := true } := by decide
/-- V-SYNC-1: STATUS 0x1303. -/
theorem test_regRead_status : added (.regRead 0x13#8) inBitFirst = [.regValue .status 0x1303#64] := by decide
/-- V-EDGE-4: CURSAMPLE. -/
theorem test_regRead_cursample : added (.regRead 0x16#8) { started with cursample := 108#64 } = [.regValue .cursample 0x6C#64] := by
  decide
/-- V-CTL-1: 4.5 rounds up to 5, and TOL is at least 3. -/
theorem test_start_rounds :
    let s := after .start { started with samplerate := 9000000#32, running := false }
    (s.halfbit, s.tol, s.rsync, s.running) = (5#32, 3#32, 16#16, true) := by decide
/-- V-CTL-2: one sample too slow. -/
theorem test_start_refused :
    statusWord (after .start { State.reset with bitrate := 1000000#32, samplerate := 7999999#32 }) = 0x10#64 := by decide
/-- V-CTL-4: CANCEL keeps the registers. -/
theorem test_cancel : after .cancel inBitFirst = { inBitFirst with running := false } := by decide
/-- V-SYNC-1: the `Long5` in START_NEXT. -/
theorem test_edge_synchronizes :
    added (.edge 336#64) inStartNext =
      [.frame .sync 0#64 263#64 16#64 1000000#64 0#32, .commit, .progress 263#64, .frame .start 264#64 327#64 1#64 0#64 0#32,
        .commit, .progress 327#64, .marker .start 336#64, .marker .zero 336#64] := by decide
/-- V-BYTE-1: the eighth bit. -/
theorem test_edge_byte :
    added (.edge 448#64) beforeLastBit =
      [.marker .zero 448#64, .frame .data 328#64 456#64 90#64 0#64 0#32, .commit, .progress 456#64] := by decide
/-- V-SYNC-8: QUIET 504 confirms STOP at 488. -/
theorem test_quiet_confirms :
    added (.quiet 504#64) inStopProbe =
      [.frame .stop 457#64 504#64 0#64 0#64 0#32, .commit, .progress 504#64, .marker .stop 488#64] := by decide
/-- One sample less waits (45_stop_detect.md R224). -/
theorem test_quiet_waits : (after (.quiet 503#64) inStopProbe).phase = .stopProbe := by decide
/-- 46_output_records.md R240, 30_encoding.md R91: the block's own record and the host's. -/
theorem test_frameSync_block :
    added (.frameSync 0#64 263#64 16#64 1000000#64 0#32) { started with issuer := .block } =
      [.frame .sync 0#64 263#64 16#64 1000000#64 0#32] := by decide
theorem test_frameStart_block :
    added (.frameStart 264#64 327#64 1#64 0#64 0#32) { started with issuer := .block } =
      [.frame .start 264#64 327#64 1#64 0#64 0#32] := by decide
theorem test_frameData_block :
    added (.frameData 328#64 456#64 90#64 0#64 0#32) { started with issuer := .block } =
      [.frame .data 328#64 456#64 90#64 0#64 0#32] := by decide
theorem test_frameStop_block :
    added (.frameStop 457#64 504#64 0#64 0#64 0#32) { started with issuer := .block } =
      [.frame .stop 457#64 504#64 0#64 0#64 0#32] := by decide
theorem test_markerOne_block : added (.markerOne 352#64) { started with issuer := .block } = [.marker .one 352#64] := by decide
theorem test_markerZero_block : added (.markerZero 336#64) { started with issuer := .block } = [.marker .zero 336#64] := by decide
theorem test_markerStart_block : added (.markerStart 336#64) { started with issuer := .block } = [.marker .start 336#64] := by decide
theorem test_markerStop_block : added (.markerStop 488#64) { started with issuer := .block } = [.marker .stop 488#64] := by decide
theorem test_markerErrorDot_block :
    added (.markerErrorDot 376#64) { started with issuer := .block } = [.marker .errorDot 376#64] := by decide
theorem test_commit_block : added .commit { started with issuer := .block } = [.commit] := by decide
theorem test_progress_block : added (.progress 263#64) { started with issuer := .block } = [.progress 263#64] := by decide
theorem test_regValue_block :
    added (.regValue 0x10#8 8#64) { started with issuer := .block } = [.regValue .halfbit 8#64] := by decide
/-- notes/assumptions/17.md: a number that is no register. -/
theorem test_regValue_unassigned :
    after (.regValue 0x06#8 8#64) { started with issuer := .block } = { started with issuer := .block, badCmd := true } := by decide
/-- A record from the host is discarded (30_encoding.md R91). -/
theorem test_commit_host : after .commit started = { started with badCmd := true } := by decide
/-- The host's placing of a word: step runs it next (V-CTL-1, START refused after reset: BITRATE is 0). -/
theorem test_withFetchWord_start :
    (match step (State.reset.withFetchWord 32 0x03000000) with
      | .next t => t.cfgErr
      | .fault _ => false
      | .refused _ => false) = true := by decide

/-! ## The hypotheses of the obligations can be met -/

/-- A transaction as the next host event. -/
def send (t : Transaction) (s : State) : State := { s with input := [.transaction t] }

theorem started_consistent : Consistent started := by
  constructor <;> simp [started, State.reset, TimingLegal, phaseIsSynced]

theorem inRun_consistent : Consistent inRun := by
  constructor <;> simp [inRun, started, State.reset, TimingLegal, phaseIsSynced]

theorem inStartNext_consistent : Consistent inStartNext := by
  constructor <;> simp [inStartNext, inRun, started, State.reset, TimingLegal, phaseIsSynced]

theorem inStartHalf_consistent : Consistent inStartHalf := by
  constructor <;> simp [inStartHalf, inStartNext, inRun, started, State.reset, TimingLegal, phaseIsSynced]

theorem inBitFirst_consistent : Consistent inBitFirst := by
  constructor <;> simp [inBitFirst, inRun, started, State.reset, TimingLegal, phaseIsSynced]

theorem beforeLastBit_consistent : Consistent beforeLastBit := by
  constructor <;> simp [beforeLastBit, inBitFirst, inRun, started, State.reset, TimingLegal, phaseIsSynced]

theorem inStopFirst_consistent : Consistent inStopFirst := by
  constructor <;> simp [inStopFirst, inBitFirst, inRun, started, State.reset, TimingLegal, phaseIsSynced]

theorem inStopProbe_consistent : Consistent inStopProbe := by
  constructor <;> simp [inStopProbe, inStopFirst, inBitFirst, inRun, started, State.reset, TimingLegal, phaseIsSynced]

theorem witness_ResetPutsEveryValueOfTheTable : { inStopFirst with input := [.reset, .reset] }.input = .reset :: [.reset] := rfl

/-- A successful START and a refused one. -/
theorem witness_SyncedExactlyInByteAndStopPhases :
    (∃ t, exec .start inBitFirst = .next t ∧ t.running = true) ∧
      ∃ t, exec .start { inBitFirst with bitrate := 0#32 } = .next t ∧ t.running = false ∧ t.phase = .bitFirst :=
  ⟨⟨_, rfl, rfl⟩, _, rfl, rfl, rfl⟩

/-- Register operands at both ends of each range. -/
theorem witness_DecodeAfterEncode :
    (Instr.cfgWrite 0x00#8 0#64).wellFormed = true ∧ (Instr.cfgWrite 0x05#8 (BitVec.allOnes 64)).wellFormed = true ∧
      (Instr.regRead 0x10#8).wellFormed = true ∧ (Instr.regRead 0x17#8).wellFormed = true ∧
      (Instr.regValue 0x00#8 0#64).wellFormed = true ∧ (Instr.frameStop 0#64 0#64 0#64 0#64 (BitVec.allOnes 32)).wellFormed = true := by
  decide

/-- A command, and a FRAME with every bit of its flags set. -/
theorem witness_EncodeAfterDecode :
    decode { header := 0x02170000#32, payload := [] } = .ok (.regRead 0x17#8) ∧
      decode { header := 0x81030000#32, payload := [1#64, 2#64, 3#64, 4#64, 0xFFFFFFFF#64] } =
        .ok (.frameStop 1#64 2#64 3#64 4#64 0xFFFFFFFF#32) := ⟨rfl, rfl⟩

/-- Each clause at both ends of its range of OPC. -/
theorem witness_EveryHeaderHasItsClass :
    (headerOpc 0x81FFFFFF#32).toNat = 0x81 ∧ (headerOpc 0x85000000#32).toNat = 0x85 ∧ (headerOpc 0x01000000#32).toNat = 1 ∧
      (headerOpc 0x06000000#32).toNat = 6 ∧ (headerOpc 0x00000000#32).toNat = 0 ∧ (headerOpc 0x07000000#32).toNat = 7 ∧
      (headerOpc 0x80000000#32).toNat = 0x80 ∧ (headerOpc 0x86000000#32).toNat = 0x86 := by decide

theorem witness_BytesCarryATransaction :
    let t : Transaction := { header := 0x81020000#32, payload := [0x148#64, 0x1C8#64, 0x5A#64, 0#64, 0#64] }
    t.payload[0]? = some 0x148#64 ∧ t.payload[4]? = some 0#64 := by decide

theorem witness_StepRunsTheDecodedTransaction :
    (send { header := 0x05000000#32, payload := [336#64] } inStartNext).input =
        [.transaction { header := 0x05000000#32, payload := [336#64] }] ∧
      decode { header := 0x05000000#32, payload := [336#64] } = .ok (.edge 336#64) := ⟨rfl, rfl⟩

/-- A reserved header, a command with RSV set, and an output record (V-EXC-1's three sorts). -/
theorem witness_MalformedTransactionsOnlySetBadCmd :
    (send { header := 0x07000000#32, payload := [] } started).input = [.transaction { header := 0x07000000#32, payload := [] }] ∧
      classOfTransaction { header := 0x07000000#32, payload := [] } ≠ .wellFormedCommand ∧
      classOfTransaction { header := 0x03000001#32, payload := [] } ≠ .wellFormedCommand ∧
      classOfTransaction { header := 0x83000000#32, payload := [] } ≠ .wellFormedCommand := by decide

theorem witness_WaitingHoldsTheState : inStopProbe.input = [] := rfl

theorem witness_StepKeepsConsistency :
    Consistent (send { header := 0x05000000#32, payload := [336#64] } inStartNext) ∧
      ∃ t, step (send { header := 0x05000000#32, payload := [336#64] } inStartNext) = .next t ∧ t.phase = .bitFirst := by
  refine ⟨?_, _, rfl, rfl⟩
  obtain ⟨h1, h2, h3, h4, h5, h6, h7, h8, h9, h10, h11, h12⟩ := inStartNext_consistent
  exact ⟨h1, h2, h3, h4, h5, h6, h7, h8, h9, h10, h11, h12⟩

theorem witness_StepKeepsCommitDiscipline :
    commitDiscipline (send { header := 0x06000000#32, payload := [504#64] } inStopProbe).out = true ∧
      ∃ t, step (send { header := 0x06000000#32, payload := [504#64] } inStopProbe) = .next t ∧ t.out.length = 7 :=
  ⟨rfl, _, rfl, rfl⟩

theorem witness_OnlyResetClearsTheStickyBits :
    let s := send { header := 0x03000000#32, payload := [] } { started with badCmd := true, orderErr := true }
    (∀ rest, s.input ≠ .reset :: rest) ∧ s.badCmd = true ∧ s.orderErr = true ∧ ∃ t, step s = .next t ∧ t.running = true :=
  ⟨by simp [send], rfl, rfl, _, rfl, rfl⟩

theorem witness_CursorNeverGoesBack :
    Consistent inRun ∧ Instr.edge 264#64 ≠ .start ∧ ∃ t, exec (.edge 264#64) inRun = .next t ∧ t.cursample = 264#64 :=
  ⟨inRun_consistent, by decide, _, rfl, rfl⟩

/-- A step with a Start frame, and one without. -/
theorem witness_PacketNumberRisesOnlyWithAStartFrame :
    inStartNext.issuer = .host ∧ (∃ t, exec (.edge 336#64) inStartNext = .next t ∧ t.pktseq = 1#64) ∧
      ∃ t, exec (.edge 332#64) inStartNext = .next t ∧ t.pktseq = 0#64 := ⟨rfl, ⟨_, rfl, rfl⟩, _, rfl, rfl⟩

/-- An ErrorDot at the transition (V-SYNC-7), and one at the probe base. -/
theorem witness_AnErrorDotEndsInScan :
    (Consistent inStartHalf ∧ inStartHalf.issuer = .host ∧
      ∃ t, exec (.edge 344#64) inStartHalf = .next t ∧ t.out = inStartHalf.out ++ [.marker .errorDot 344#64]) ∧
    Consistent inStopProbe ∧ inStopProbe.issuer = .host ∧
      ∃ t, exec (.edge 504#64) inStopProbe = .next t ∧ t.out = inStopProbe.out ++ [.marker .errorDot 488#64] :=
  ⟨⟨inStartHalf_consistent, rfl, _, rfl, rfl⟩, inStopProbe_consistent, rfl, _, rfl, rfl⟩

/-- The clause on other numbers starts at 6. -/
theorem witness_CfgWriteStoresTheDefinedBits : 5 < (0x06#8).toNat ∧ 5 < (0xFF#8).toNat := by decide

/-- The clauses on other numbers, at their ends. -/
theorem witness_RegReadEmitsTheValue :
    (5 < (0x06#8).toNat ∧ (0x06#8).toNat < 0x10) ∧ (5 < (0x0F#8).toNat ∧ (0x0F#8).toNat < 0x10) ∧ 0x17 < (0x18#8).toNat := by decide

/-- V-CTL-2: each ground of refusal alone. -/
theorem witness_StartRefusesAnInvalidConfiguration :
    { started with bitrate := 0#32 }.bitrate.toNat < 1 ∧ 100000000 < { started with bitrate := 100000001#32 }.bitrate.toNat ∧
      { started with tolsel := 3#2 }.tolsel = 3#2 ∧
      { started with samplerate := 7999999#32 }.samplerate.toNat < 8 * { started with samplerate := 7999999#32 }.bitrate.toNat := by
  decide

/-- V-CTL-1: the greatest rate, the least rate, and the least ratio. -/
theorem witness_StartBeginsARun :
    let s := { started with bitrate := 100000000#32, samplerate := 800000000#32, tolsel := 2#2 }
    let r := { started with bitrate := 1#32, samplerate := 8#32, tolsel := 1#2 }
    (1 ≤ s.bitrate.toNat ∧ s.bitrate.toNat ≤ 100000000 ∧ s.tolsel ≠ 3#2 ∧ 8 * s.bitrate.toNat ≤ s.samplerate.toNat) ∧
      1 ≤ r.bitrate.toNat ∧ r.bitrate.toNat ≤ 100000000 ∧ r.tolsel ≠ 3#2 ∧ 8 * r.bitrate.toNat ≤ r.samplerate.toNat := by decide

theorem witness_StartLeavesLegalTiming :
    ∃ t, exec .start { started with bitrate := 1#32, samplerate := 8#32 } = .next t ∧ t.running = true ∧ t.halfbit = 4#32 :=
  ⟨_, rfl, rfl, rfl⟩

theorem witness_ConfigurationWaitsForStart :
    (∃ s1, writeReg .startLevel 0#64 inRun = some s1 ∧ s1.startLevel = .low) ∧ ∃ e, Instr.edge 264#64 = .edge e :=
  ⟨⟨_, rfl, rfl⟩, _, rfl⟩

/-- The smallest timing, T = 4 and TOL = 3 (V-CLS-3). -/
theorem witness_UpperBoundBelongsToItsClass : 4 ≤ 4 ∧ 3 + 1 ≤ 4 ∧ IntervalClass.full ∈ candidates .bitFirst := by decide

/-- Windows that share a distance (T = 8, TOL = 4: 12), and windows that share none. -/
theorem witness_OnlyNeighbouringWindowsOverlap :
    classMultiple .half < classMultiple .full ∧ inWindow 8 4 12 .half = true ∧ inWindow 8 4 12 .full = true ∧
      classMultiple .full < classMultiple .long4 ∧ ¬(classMultiple .long4 - classMultiple .full) * 8 ≤ 2 * 4 := by decide

theorem witness_StoppedBlockDiscardsEdges : { inRun with running := false }.running = false := rfl

/-- V-EDGE-2 and V-EDGE-3: at the cursor, and at the horizon. -/
theorem witness_EdgeOutOfOrderStopsTheDecoder :
    inRun.running = true ∧ (256#64).toNat ≤ inRun.cursample.toNat ∧
      (300#64).toNat ≤ { inRun with horizon := 300#64 }.horizon.toNat ∧ inRun.cursample.toNat < (300#64).toNat := by decide

/-- In a phase that measures, and in the probe. -/
theorem witness_AcceptedEdgeIsConsumedOnce :
    (EdgeAccepted 257#64 inRun ∧ inRun.nextValid = false) ∧ EdgeAccepted 489#64 inStopProbe ∧ inStopProbe.nextValid = false := by
  decide

theorem witness_QuietRaisesTheHorizon : inRun.running = true ∧ inRun.phase ≠ .stopProbe := by decide

theorem witness_QuietSettlesTheProbe :
    inStopProbe.running = true ∧ inStopProbe.phase = .stopProbe ∧ inStopProbe.nextValid = false ∧
      inStopProbe.probeBase = inStopProbe.cursample ∧ inStopProbe.probeBase.toNat + 2 * inStopProbe.halfbit.toNat = 504 := by decide

/-- The last sample of the span, the first beyond it, and a `Half` (45_stop_detect.md R224). -/
theorem witness_EdgeSettlesTheProbe :
    EdgeAccepted 504#64 inStopProbe ∧ EdgeAccepted 505#64 inStopProbe ∧ EdgeAccepted 500#64 inStopProbe ∧
      intervalIn 1 500#64 inStopProbe = true ∧ intervalIn 1 501#64 inStopProbe = false ∧ TimingLegal inStopProbe ∧
      inStopProbe.phase = .stopProbe ∧ inStopProbe.probeBase = inStopProbe.cursample :=
  ⟨by decide, by decide, by decide, by decide, by decide, by unfold TimingLegal; decide, rfl, rfl⟩

/-- SCAN: the ends of the `Half` and `Long5` windows, and a distance in neither. -/
theorem witness_EdgeInScan :
    EdgeAccepted 268#64 inRun ∧ inRun.phase = .scan ∧ intervalIn 1 268#64 inRun = true ∧ intervalIn 1 269#64 inRun = false ∧
      EdgeAccepted 292#64 inRun ∧ intervalIn 5 291#64 inRun = false ∧ intervalIn 5 292#64 inRun = true ∧
      2 * inRun.rsync.toNat ≤ inRun.synccount.toNat ∧ otherLevel inRun.curlevel = .low ∧ inRun.invL = false := by decide

/-- START_NEXT: 36 is a `Long4`, 37 a `Long5`, 45 neither (V-SYNC-10). -/
theorem witness_EdgeInStartNext :
    EdgeAccepted 332#64 inStartNext ∧ inStartNext.phase = .startNext ∧ intervalIn 4 332#64 inStartNext = true ∧
      intervalIn 4 333#64 inStartNext = false ∧ intervalIn 5 333#64 inStartNext = true ∧ intervalIn 5 341#64 inStartNext = false ∧
      EdgeAccepted 341#64 inStartNext := by decide

theorem witness_EdgeInStartHalf :
    EdgeAccepted 332#64 inStartHalf ∧ inStartHalf.phase = .startHalf ∧ intervalIn 1 332#64 inStartHalf = true ∧
      EdgeAccepted 341#64 inStartHalf ∧ intervalIn 1 341#64 inStartHalf = false := by decide

theorem witness_SynchronizationEmitsEightRecords : inStartNext.runStart.toNat < inStartNext.l5Start.toNat := by decide

theorem witness_StartLookaheadSpansAreNonEmpty :
    (Consistent inStartNext ∧ EdgeAccepted 332#64 inStartNext ∧ inStartNext.phase = .startNext ∧
      intervalIn 5 332#64 inStartNext = true) ∧
    Consistent inStartHalf ∧ EdgeAccepted 332#64 inStartHalf ∧ inStartHalf.phase = .startHalf ∧
      intervalIn 1 332#64 inStartHalf = true :=
  ⟨⟨inStartNext_consistent, by decide, rfl, by decide⟩, inStartHalf_consistent, by decide, rfl, by decide⟩

theorem witness_ReadingABitShiftsItIn : (1 ≤ 1 ∧ 1 < 8) ∧ 1 ≤ 7 ∧ 7 < 8 := by decide

/-- BIT_FIRST: 12 is a `Half`, 13 and 20 a `Full`, 21 neither (V-CLS-1). -/
theorem witness_EdgeInBitFirst :
    EdgeAccepted 348#64 inBitFirst ∧ inBitFirst.phase = .bitFirst ∧ intervalIn 1 348#64 inBitFirst = true ∧
      intervalIn 1 349#64 inBitFirst = false ∧ intervalIn 2 349#64 inBitFirst = true ∧ intervalIn 2 356#64 inBitFirst = true ∧
      intervalIn 2 357#64 inBitFirst = false ∧ EdgeAccepted 357#64 inBitFirst := by decide

theorem witness_EdgeInBitSecond :
    EdgeAccepted 404#64 inBitSecond ∧ inBitSecond.phase = .bitSecond ∧ intervalIn 1 404#64 inBitSecond = true ∧
      EdgeAccepted 405#64 inBitSecond ∧ intervalIn 1 405#64 inBitSecond = false := by decide

/-- STOP_FIRST: 12 `Half`, 20 `Full`, 36 `Long4`, 37 and 44 `Long5`, 45 none. -/
theorem witness_EdgeInStopFirst :
    EdgeAccepted 460#64 inStopFirst ∧ inStopFirst.phase = .stopFirst ∧ intervalIn 1 460#64 inStopFirst = true ∧
      intervalIn 2 468#64 inStopFirst = true ∧ intervalIn 4 484#64 inStopFirst = true ∧ intervalIn 5 484#64 inStopFirst = true ∧
      intervalIn 4 485#64 inStopFirst = false ∧ intervalIn 5 485#64 inStopFirst = true ∧ intervalIn 5 493#64 inStopFirst = false ∧
      EdgeAccepted 493#64 inStopFirst := by decide

theorem witness_EdgeInStopSecond :
    EdgeAccepted 468#64 inStopSecond ∧ inStopSecond.phase = .stopSecond ∧ intervalIn 1 468#64 inStopSecond = true ∧
      intervalIn 4 484#64 inStopSecond = true ∧ intervalIn 4 492#64 inStopSecond = true ∧ intervalIn 4 493#64 inStopSecond = false ∧
      EdgeAccepted 493#64 inStopSecond := by decide

/-- The hypothesis of BlockEmitsFrames, BlockEmitsMarkers and BlockEmitsCommitProgressAndValues. -/
theorem witness_BlockEmits : { inStopProbe with issuer := .block }.issuer = .block := rfl

theorem witness_HostCannotInjectRecords :
    inBitFirst.issuer = .host ∧ (Instr.frameSync 0#64 0#64 0#64 0#64 0#32).isHostCommand = false ∧
      (Instr.regValue 0x17#8 0#64).isHostCommand = false := by decide

theorem witness_CommitPublishesWhatStandsBefore : Record.commit ∉ [Record.marker .stop 488#64, .progress 1#64] := by decide

theorem witness_EveryFrameIsPublished :
    commitDiscipline inStopFirst.out = true ∧ Record.frame .data 328#64 456#64 0x5A#64 0#64 0#32 ∈ inStopFirst.out := by decide

/-- The greatest start sample in range. -/
theorem witness_StartBeginsAnOrderedRun :
    ∃ t, exec .start { started with startSample := 0x7FFFFFFFFFFFFFFF#64 } = .next t ∧ t.running = true ∧
      { started with startSample := 0x7FFFFFFFFFFFFFFF#64 }.startSample.toNat < 2 ^ 63 := ⟨_, rfl, rfl, by decide⟩

theorem inStopFirst_framesOrdered : FramesOrdered 0 inStopFirst := by
  constructor <;> simp [inStopFirst, inBitFirst, inRun, started, State.reset, SpansRise, frameSpans]

theorem witness_StepKeepsFramesOrdered :
    let s := send { header := 0x05000000#32, payload := [464#64] } inStopFirst
    Consistent s ∧ FramesOrdered 0 s ∧ (∀ e ∈ s.input, continuesRun e = true) ∧ ∃ t, step s = .next t ∧ t.phase = .bitFirst := by
  refine ⟨?_, ?_, by decide, _, rfl, rfl⟩
  · obtain ⟨h1, h2, h3, h4, h5, h6, h7, h8, h9, h10, h11, h12⟩ := inStopFirst_consistent
    exact ⟨h1, h2, h3, h4, h5, h6, h7, h8, h9, h10, h11, h12⟩
  · obtain ⟨h1, h2, h3, h4, h5, h6, h7, h8, h9, h10, h11⟩ := inStopFirst_framesOrdered
    exact ⟨h1, h2, h3, h4, h5, h6, h7, h8, h9, h10, h11⟩

/-- A run with one `Half` and one step after it. -/
theorem witness_FramesOfARunRise :
    ∃ s0 t, exec .start (send { header := 0x05000000#32, payload := [8#64] } { started with running := false }) = .next s0 ∧
      s0.running = true ∧ { started with running := false }.startSample.toNat < 2 ^ 63 ∧
      (∀ e ∈ s0.input, continuesRun e = true) ∧ Sys2Proof.core.run 1 s0 = .next t ∧ t.synccount = 1#32 :=
  ⟨_, _, rfl, rfl, by decide, by decide, rfl, rfl⟩

/-- The byte 0x5A after START, its first intervals those of V-SYNC-9, settled by an EDGE just beyond the probe or a QUIET at its end. -/
theorem witness_JitteredPacketDecodesToItsBytes :
    let distances := 12 :: List.replicate 31 8 ++ [44, 37, 13, 20, 16, 4, 12, 16, 16, 16, 37]
    started.running = true ∧ TimingLegal started ∧ started.phase = .scan ∧ started.synccount = 0#32 ∧ started.nextValid = false ∧
      started.horizon.toNat ≤ started.cursample.toNat ∧ [0x5A#8] ≠ [] ∧
      List.Forall₂ (distanceFits started.halfbit.toNat started.tol.toNat)
        (packetIntervals started.rsync.toNat (oneLevel started) started.curlevel [0x5A#8]) distances ∧
      started.cursample.toNat + distances.sum + 2 * started.halfbit.toNat = (507#64).toNat ∧
      started.cursample.toNat + distances.sum + 2 * started.halfbit.toNat < (508#64).toNat ∧ (508#64).toNat < 2 ^ 63 :=
  ⟨rfl, by unfold TimingLegal; decide, rfl, rfl, rfl, by decide, by decide, by unfold distanceFits; decide, by decide, by decide,
    by decide⟩

/-- The byte 0x5A from the state after START. -/
theorem witness_ValidPacketDecodesToItsBytes :
    started.running = true ∧ TimingLegal started ∧ started.phase = .scan ∧ started.synccount = 0#32 ∧ started.nextValid = false ∧
      started.horizon.toNat ≤ started.cursample.toNat ∧ [0x5A#8] ≠ [] ∧
      started.cursample.toNat +
          (packetIntervals started.rsync.toNat (oneLevel started) started.curlevel [0x5A#8]).sum * started.halfbit.toNat +
        2 * started.halfbit.toNat < 2 ^ 63 :=
  ⟨rfl, by unfold TimingLegal; decide, rfl, rfl, rfl, by decide, by decide, by decide⟩

end Sys2Proof.Tests
end

