-- ==== Sys2Proof/Proofs/DecoderState.lean ====
section
/-! PROOF. `DecoderState` (10_state.md R31): when a state is Synchronized, how STATUS shows it, and what START leaves. -/

namespace Sys2Proof.Machine

/-! ## The predicate -/

theorem phaseIsSynced_iff (p : Phase) :
    phaseIsSynced p = true ↔
      p = .bitFirst ∨ p = .bitSecond ∨ p = .stopFirst ∨ p = .stopSecond ∨ p = .stopProbe := by
  cases p <;> decide

theorem synced_iff (s : State) : synced s = true ↔ s.running = true ∧ phaseIsSynced s.phase = true := by
  simp [synced]

/-- A stopped decoder is Unsynchronized, whatever phase it stopped in. -/
theorem synced_of_stopped {s : State} (h : s.running = false) : synced s = false := by
  simp [synced, h]

/-- In SCAN, where every run begins, the decoder is Unsynchronized. -/
theorem synced_of_scan {s : State} (h : s.phase = .scan) : synced s = false := by
  simp [synced, h, phaseIsSynced]

/-! ## STATUS -/

/-- Of two flags appended to a word, the first is bit 1. -/
theorem append_ofBool_ofBool_getLsbD_one {n : Nat} (w : BitVec n) (a b : Bool) :
    (w ++ BitVec.ofBool a ++ BitVec.ofBool b).getLsbD 1 = a := by
  simp [BitVec.getElem_append]

/-- STATUS.SYNCED stands just above STATUS.RUNNING (R30). -/
theorem statusWord_getLsbD_one (s : State) : (statusWord s).getLsbD 1 = synced s :=
  append_ofBool_ofBool_getLsbD_one _ (synced s) s.running

/-! ## START -/

theorem exec_start (s : State) : exec .start s = execStart s := rfl

/-- Everything START can do (40_control.md R103 to R106): the timing is refused and the run abandoned with CFG_ERR, or a run begins with
the derived timing. -/
theorem exec_start_cases {s t : State} (h : exec .start s = .next t) :
    (deriveTiming s.bitrate s.samplerate s.tolsel = none ∧ t = { abandonRun s with cfgErr := true }) ∨
      ∃ tm, deriveTiming s.bitrate s.samplerate s.tolsel = some tm ∧
        t = beginRun tm { abandonRun s with cfgErr := false } := by
  rw [exec_start, execStart] at h
  split at h
  · next hd => exact .inl ⟨hd, (Host.Outcome.next.inj h).symm⟩
  · next tm hd => exact .inr ⟨tm, hd, (Host.Outcome.next.inj h).symm⟩

/-- A refused START leaves the block stopped, an accepted one leaves it in SCAN. -/
theorem exec_start_unsynced {s t : State} (h : exec .start s = .next t) : synced t = false := by
  obtain ⟨-, rfl⟩ | ⟨tm, -, rfl⟩ := exec_start_cases h
  · exact synced_of_stopped rfl
  · exact synced_of_scan rfl

/-- Settles O4: the predicate read off its definition, bit 1 of STATUS, and the two outcomes of START. -/
theorem syncedExactlyInByteAndStopPhases : Obligations.SyncedExactlyInByteAndStopPhases := by
  unfold Obligations.SyncedExactlyInByteAndStopPhases
  intro s
  refine ⟨?_, statusWord_getLsbD_one s, fun _ => exec_start_unsynced⟩
  rw [synced_iff, phaseIsSynced_iff]

end Sys2Proof.Machine
end

