-- ==== Sys2Proof/Proofs/TransactionClasses.lean ====
section
/-! PROOF. The class of every transaction (30_encoding.md R88), and the worked words of R95. First the decoder's parts, in the order of
their definitions: which OPC bytes are opcodes, which register numbers fit, what each row's decoder accepts. -/

namespace Sys2Proof

open Machine (regOfNumber regWritable regOfNumber_eq)

/-! ## The opcode map (R82, R90) -/

/-- An opcode is found only at its own OPC value. -/
theorem opcodeByte_of_opcodeOfByte {b : BitVec 8} {op : Opcode} (h : opcodeOfByte b = some op) : opcodeByte op = b := by
  simpa using List.find?_some h

/-- The assigned OPC values are 0x01 to 0x06 and 0x81 to 0x85. -/
theorem opcodeOfByte_isSome_iff (b : BitVec 8) :
    (opcodeOfByte b).isSome = true ↔ 1 ≤ b.toNat ∧ b.toNat ≤ 6 ∨ 0x81 ≤ b.toNat ∧ b.toNat ≤ 0x85 := by
  revert b; decide

/-- Of the assigned OPC values the host commands are those up to 0x06. -/
theorem opcodeIsCommand_eq (op : Opcode) : opcodeIsCommand op = decide ((opcodeByte op).toNat ≤ 6) := by
  cases op <;> rfl

/-- A host command has one payload word when it is CFG_WRITE, EDGE or QUIET, and none otherwise. -/
theorem payloadCount_of_command {op : Opcode} (hc : opcodeIsCommand op = true) :
    payloadCount op =
      if (opcodeByte op).toNat = 1 ∨ (opcodeByte op).toNat = 5 ∨ (opcodeByte op).toNat = 6 then 1 else 0 := by
  revert hc
  cases op <;> decide

/-! ## Register numbers (R86) -/

theorem regOfNumber_any_writable_iff (n : BitVec 8) : (regOfNumber n).any regWritable = true ↔ n.toNat ≤ 5 := by
  rw [regOfNumber_eq]
  revert n; decide

theorem regOfNumber_isSome_iff (n : BitVec 8) :
    (regOfNumber n).isSome = true ↔ n.toNat ≤ 5 ∨ 0x10 ≤ n.toNat ∧ n.toNat ≤ 0x17 := by
  rw [regOfNumber_eq]
  revert n; decide

/-! ## What each row's decoder accepts -/

@[simp] theorem decodeCfgWrite_eq_ok {arg : BitVec 8} {v : Word64} {i : Instr} :
    decodeCfgWrite arg v = .ok i ↔ (regOfNumber arg).any regWritable = true ∧ .cfgWrite arg v = i := by
  unfold decodeCfgWrite; split <;> simp_all

@[simp] theorem decodeWithReg_eq_ok {arg : BitVec 8} {i j : Instr} :
    decodeWithReg arg i = .ok j ↔ (regOfNumber arg).isSome = true ∧ i = j := by
  unfold decodeWithReg; split <;> simp_all

@[simp] theorem decodeWithoutArg_eq_ok {arg : BitVec 8} {i j : Instr} :
    decodeWithoutArg arg i = .ok j ↔ arg = 0#8 ∧ i = j := by
  unfold decodeWithoutArg; split <;> simp_all

@[simp] theorem frameInstr_isHostCommand (k : FrameKind) (a b : Sample) (p q : Word64) (f : Word32) :
    (frameInstr k a b p q f).isHostCommand = false := by
  cases k <;> rfl

@[simp] theorem markerInstr_isHostCommand (k : MarkerKind) (a : Sample) : (markerInstr k a).isHostCommand = false := by
  cases k <;> rfl

theorem isHostCommand_of_decodeFrame {arg : BitVec 8} {a b : Sample} {p q f : Word64} {i : Instr}
    (h : decodeFrame arg a b p q f = .ok i) : i.isHostCommand = false := by
  unfold decodeFrame at h
  split at h
  · cases h
  · split at h
    · cases h; exact frameInstr_isHostCommand ..
    · cases h

theorem isHostCommand_of_decodeMarker {arg : BitVec 8} {a : Sample} {i : Instr}
    (h : decodeMarker arg a = .ok i) : i.isHostCommand = false := by
  unfold decodeMarker at h
  split at h
  · cases h
  · cases h; exact markerInstr_isHostCommand ..

/-! ## The payload against the word count (R87) -/

section
variable (arg : BitVec 8)

@[simp] theorem decodePayload_cfgWrite (v : Word64) : decodePayload .cfgWrite arg [v] = decodeCfgWrite arg v := rfl
@[simp] theorem decodePayload_regRead : decodePayload .regRead arg [] = decodeWithReg arg (.regRead arg) := rfl
@[simp] theorem decodePayload_start : decodePayload .start arg [] = decodeWithoutArg arg .start := rfl
@[simp] theorem decodePayload_cancel : decodePayload .cancel arg [] = decodeWithoutArg arg .cancel := rfl
@[simp] theorem decodePayload_edge (s : Sample) : decodePayload .edge arg [s] = decodeWithoutArg arg (.edge s) := rfl
@[simp] theorem decodePayload_quiet (h : Sample) : decodePayload .quiet arg [h] = decodeWithoutArg arg (.quiet h) := rfl
@[simp] theorem decodePayload_frame (a b : Sample) (p q f : Word64) :
    decodePayload .frame arg [a, b, p, q, f] = decodeFrame arg a b p q f := rfl
@[simp] theorem decodePayload_marker (s : Sample) : decodePayload .marker arg [s] = decodeMarker arg s := rfl
@[simp] theorem decodePayload_commit : decodePayload .commit arg [] = decodeWithoutArg arg .commit := rfl
@[simp] theorem decodePayload_progress (s : Sample) :
    decodePayload .progress arg [s] = decodeWithoutArg arg (.progress s) := rfl
@[simp] theorem decodePayload_regValue (v : Word64) :
    decodePayload .regValue arg [v] = decodeWithReg arg (.regValue arg v) := rfl

/-- Another word count than the opcode's is rejected, whatever ARG is. -/
theorem decodePayload_of_wrong_count {op : Opcode} {payload : List Word64} (h : payload.length ≠ payloadCount op) :
    decodePayload op arg payload = .error (.wrongPayloadCount (payloadCount op) payload.length) := by
  cases op
  case regRead | start | cancel | commit =>
    obtain ⟨w, ws, rfl⟩ := List.exists_cons_of_ne_nil (List.length_eq_zero_iff.not.mp h)
    rfl
  case cfgWrite | edge | quiet | marker | progress | regValue =>
    match payload, h with
    | [], _ | _ :: _ :: _, _ => rfl
    | [_], h => exact absurd rfl h
  case frame =>
    match payload, h with
    | [], _ | [_], _ | [_, _], _ | [_, _, _], _ | [_, _, _, _], _ | _ :: _ :: _ :: _ :: _ :: _ :: _, _ => rfl
    | [_, _, _, _, _], h => exact absurd rfl h

end

/-- What the decoder accepts has the payload count of its opcode. -/
theorem length_of_decodePayload {op : Opcode} {arg : BitVec 8} {payload : List Word64} {i : Instr}
    (h : decodePayload op arg payload = .ok i) : payload.length = payloadCount op := by
  by_contra hl
  rw [decodePayload_of_wrong_count arg hl] at h
  cases h

/-- What the decoder accepts is a host command exactly when its opcode is one. -/
theorem isHostCommand_of_decodePayload {op : Opcode} {arg : BitVec 8} {payload : List Word64} {i : Instr}
    (h : decodePayload op arg payload = .ok i) : i.isHostCommand = opcodeIsCommand op := by
  have hl := length_of_decodePayload h
  cases op
  case cfgWrite =>
    obtain ⟨v, rfl⟩ := List.length_eq_one_iff.mp hl
    obtain ⟨-, rfl⟩ := decodeCfgWrite_eq_ok.mp h
    rfl
  case regRead =>
    obtain rfl := List.length_eq_zero_iff.mp hl
    obtain ⟨-, rfl⟩ := decodeWithReg_eq_ok.mp h
    rfl
  case regValue =>
    obtain ⟨v, rfl⟩ := List.length_eq_one_iff.mp hl
    obtain ⟨-, rfl⟩ := decodeWithReg_eq_ok.mp h
    rfl
  case start | cancel | commit =>
    obtain rfl := List.length_eq_zero_iff.mp hl
    obtain ⟨-, rfl⟩ := decodeWithoutArg_eq_ok.mp h
    rfl
  case edge | quiet | progress =>
    obtain ⟨v, rfl⟩ := List.length_eq_one_iff.mp hl
    obtain ⟨-, rfl⟩ := decodeWithoutArg_eq_ok.mp h
    rfl
  case frame =>
    match payload, hl, h with
    | [_, _, _, _, _], _, h => exact isHostCommand_of_decodeFrame h
  case marker =>
    obtain ⟨a, rfl⟩ := List.length_eq_one_iff.mp hl
    exact isHostCommand_of_decodeMarker h

/-! ## Well-formed commands (R88) -/

/-- R88's condition on ARG, by OPC value: a writable register for CFG_WRITE, an assigned one for REG_READ, else 0. -/
def CommandArgFits (opc arg : Nat) : Prop :=
  if opc = 1 then arg ≤ 5 else if opc = 2 then arg ≤ 5 ∨ 0x10 ≤ arg ∧ arg ≤ 0x17 else arg = 0

/-- With the payload count right, a command is accepted exactly when its ARG fits. -/
theorem decodePayload_accepts_iff_argFits {op : Opcode} (hc : opcodeIsCommand op = true) (arg : BitVec 8)
    {payload : List Word64} (hl : payload.length = payloadCount op) :
    (∃ i, decodePayload op arg payload = .ok i) ↔ CommandArgFits (opcodeByte op).toNat arg.toNat := by
  have zero_iff : arg = 0#8 ↔ arg.toNat = 0 := BitVec.toNat_inj.symm
  cases op
  case cfgWrite =>
    obtain ⟨v, rfl⟩ := List.length_eq_one_iff.mp hl
    simp [regOfNumber_any_writable_iff, CommandArgFits, opcodeByte]
  case regRead =>
    obtain rfl := List.length_eq_zero_iff.mp hl
    simp [regOfNumber_isSome_iff, CommandArgFits, opcodeByte]
  case start | cancel =>
    obtain rfl := List.length_eq_zero_iff.mp hl
    simp [zero_iff, CommandArgFits, opcodeByte]
  case edge | quiet =>
    obtain ⟨v, rfl⟩ := List.length_eq_one_iff.mp hl
    simp [zero_iff, CommandArgFits, opcodeByte]
  all_goals cases hc

theorem decode_eq_ok_iff {t : Transaction} {op : Opcode} (ho : opcodeOfByte (headerOpc t.header) = some op) {i : Instr} :
    decode t = .ok i ↔ headerRsv t.header = 0#16 ∧ decodePayload op (headerArg t.header) t.payload = .ok i := by
  unfold decode
  rw [ho]
  by_cases hr : headerRsv t.header = 0#16 <;> simp [hr]

/-- R88, second point: what the decoder asks of a command is RSV = 0, the payload count, and a fitting ARG. -/
theorem decode_accepts_iff_of_command {t : Transaction} {op : Opcode}
    (ho : opcodeOfByte (headerOpc t.header) = some op) (hc : opcodeIsCommand op = true) :
    (∃ i, decode t = .ok i) ↔
      headerRsv t.header = 0#16 ∧ t.payload.length = payloadCount op ∧
        CommandArgFits (opcodeByte op).toNat (headerArg t.header).toNat := by
  simp only [decode_eq_ok_iff ho]
  constructor
  · rintro ⟨i, hr, hi⟩
    have hl := length_of_decodePayload hi
    exact ⟨hr, hl, (decodePayload_accepts_iff_argFits hc _ hl).mp ⟨i, hi⟩⟩
  · rintro ⟨hr, hl, ha⟩
    obtain ⟨i, hi⟩ := (decodePayload_accepts_iff_argFits hc _ hl).mpr ha
    exact ⟨i, hr, hi⟩

/-! ## The four classes -/

theorem classOfTransaction_of_none {t : Transaction} (ho : opcodeOfByte (headerOpc t.header) = none) :
    classOfTransaction t = .reserved := by
  rw [classOfTransaction, ho]

theorem classOfTransaction_of_output {t : Transaction} {op : Opcode} (ho : opcodeOfByte (headerOpc t.header) = some op)
    (hc : opcodeIsCommand op = false) : classOfTransaction t = .outputRecord := by
  simp [classOfTransaction, ho, hc]

/-- A command opcode is well formed when the decoder accepts the transaction, malformed when it does not. -/
theorem classOfTransaction_of_command {t : Transaction} {op : Opcode} (ho : opcodeOfByte (headerOpc t.header) = some op)
    (hc : opcodeIsCommand op = true) :
    (∃ i, decode t = .ok i) ∧ classOfTransaction t = .wellFormedCommand ∨
      (¬∃ i, decode t = .ok i) ∧ classOfTransaction t = .malformedCommand := by
  cases hd : decode t with
  | ok i => exact .inl ⟨⟨i, rfl⟩, by simp [classOfTransaction, ho, hc, hd]⟩
  | error err => exact .inr ⟨by simp, by simp [classOfTransaction, ho, hc, hd]⟩

/-- The well-formed commands are what the decoder reads as a host command. -/
theorem classOfTransaction_eq_wellFormedCommand_iff (t : Transaction) :
    classOfTransaction t = .wellFormedCommand ↔ ∃ i, decode t = .ok i ∧ i.isHostCommand = true := by
  cases ho : opcodeOfByte (headerOpc t.header) with
  | none => simp [classOfTransaction_of_none ho, decode, ho]
  | some op =>
    have direction {i} (hi : decode t = .ok i) : i.isHostCommand = opcodeIsCommand op :=
      isHostCommand_of_decodePayload ((decode_eq_ok_iff ho).mp hi).2
    cases hc : opcodeIsCommand op with
    | false =>
      rw [classOfTransaction_of_output ho hc]
      exact iff_of_false nofun fun ⟨i, hi, hh⟩ => by simp [direction hi, hc] at hh
    | true =>
      obtain ⟨⟨i, hi⟩, hw⟩ | ⟨hn, hm⟩ := classOfTransaction_of_command ho hc
      · exact iff_of_true hw ⟨i, hi, (direction hi).trans hc⟩
      · rw [hm]
        exact iff_of_false nofun fun ⟨i, hi, _⟩ => hn ⟨i, hi⟩

/-- Settles O7: the opcode map cuts OPC into the ranges of R88, and the decoder accepts a command exactly on R88's conditions. -/
theorem everyHeaderHasItsClass : Obligations.EveryHeaderHasItsClass := by
  unfold Obligations.EveryHeaderHasItsClass
  intro t opc
  have assigned := opcodeOfByte_isSome_iff (headerOpc t.header)
  refine ⟨fun hout => ?_, fun hcmd => ?_, fun hres => ?_, classOfTransaction_eq_wellFormedCommand_iff t⟩
  · obtain ⟨op, ho⟩ := Option.isSome_iff_exists.mp (assigned.mpr (.inr hout))
    refine classOfTransaction_of_output ho ?_
    rw [opcodeIsCommand_eq, opcodeByte_of_opcodeOfByte ho, decide_eq_false_iff_not]
    omega
  · obtain ⟨op, ho⟩ := Option.isSome_iff_exists.mp (assigned.mpr (.inl hcmd))
    have hb := opcodeByte_of_opcodeOfByte ho
    have hc : opcodeIsCommand op = true := by
      rw [opcodeIsCommand_eq, hb, decide_eq_true_iff]
      exact hcmd.2
    have accepts := decode_accepts_iff_of_command ho hc
    rw [payloadCount_of_command hc, hb] at accepts
    obtain ⟨hok, hw⟩ | ⟨hno, hm⟩ := classOfTransaction_of_command ho hc
    · exact hw.trans (if_pos (accepts.mp hok)).symm
    · exact hm.trans (if_neg (mt accepts.mpr hno)).symm
  · refine classOfTransaction_of_none (Option.not_isSome_iff_eq_none.mp ?_)
    rw [assigned]
    omega

/-! ## The worked words (R95) -/

/-- Settles O9: the bytes of EDGE 296, then the seven examples in the order of R95, each a closed evaluation of the decoder. -/
theorem workedWordsDecode : Obligations.WorkedWordsDecode := by
  unfold Obligations.WorkedWordsDecode
  refine ⟨?bytesOfEdge, ?edge, ?cfgWrite, ?regRead, ?start, ?cancel, ?markerErrorDot, ?frameData⟩
  case bytesOfEdge => decide
  all_goals rfl

end Sys2Proof
end

