-- ==== Sys2Proof/Proofs/Control.lean ====
section
/-! PROOF. The control family (40_control.md R101 to R108): what CFG_WRITE and REG_READ do with a fit and an unfit register number, the
Timing Model that START derives and the bounds it meets, and CANCEL. -/

namespace Sys2Proof.Machine

/-! ## CFG_WRITE (R101) -/

/-- CFG_WRITE of a register that takes the value leaves what `writeReg` answers. -/
theorem exec_cfgWrite_of_writeReg {r : Reg} {v : Word64} {s t : State} (h : writeReg r v s = some t) :
    exec (.cfgWrite (regNumber r) v) s = .next t := by
  simp [exec, execCfgWrite, h]

/-- CFG_WRITE of a read-only or unassigned number is malformed (30_encoding.md R92). -/
theorem exec_cfgWrite_of_not_writable {n : BitVec 8} (h : ¬ (regOfNumber n).any regWritable = true) (v : Word64) (s : State) :
    exec (.cfgWrite n v) s = .next (discardMalformed s) := by
  have hnone : ((regOfNumber n).bind fun r => writeReg r v s) = none := by
    cases hr : regOfNumber n with
    | none => rfl
    | some r =>
      have hw : regWritable r = false := by simpa [hr] using h
      rw [← writeReg_isSome r v s] at hw
      simpa using hw
  simp [exec, execCfgWrite, hnone]

theorem levelOfBit_eq (b : Bool) : levelOfBit b = if b then .high else .low := by cases b <;> rfl

/-- Settles O22: one register after the other, then the numbers above the six writable ones. -/
theorem cfgWriteStoresTheDefinedBits : Obligations.CfgWriteStoresTheDefinedBits := by
  unfold Obligations.CfgWriteStoresTheDefinedBits
  intro s v
  refine ⟨exec_cfgWrite_of_writeReg (r := .bitrate) rfl, exec_cfgWrite_of_writeReg (r := .samplerate) rfl,
    exec_cfgWrite_of_writeReg (r := .ctrl) rfl, exec_cfgWrite_of_writeReg (r := .syncbits) rfl,
    exec_cfgWrite_of_writeReg (r := .startSample) rfl, ?startLevel, fun r hr => ?unfit⟩
  case startLevel =>
    rw [← levelOfBit_eq]
    exact exec_cfgWrite_of_writeReg (r := .startLevel) rfl
  case unfit => exact exec_cfgWrite_of_not_writable (by rw [regOfNumber_any_writable_iff]; omega) v s

/-! ## REG_READ (R102) -/

/-- REG_READ of a register's number emits its value. -/
theorem exec_regRead_regNumber (r : Reg) (s : State) :
    exec (.regRead (regNumber r)) s = .next (emit (.regValue r (readReg r s)) s) := by
  simp [exec, execRegRead]

/-- REG_READ of an unassigned number is malformed (30_encoding.md R92). -/
theorem exec_regRead_of_unassigned {n : BitVec 8} (h : ¬ (regOfNumber n).isSome = true) (s : State) :
    exec (.regRead n) s = .next (discardMalformed s) := by
  simp [exec, execRegRead, Option.not_isSome_iff_eq_none.mp h]

/-- Settles O23: the 14 pairs of the statement are the table of R86, every register beside its number. -/
theorem regReadEmitsTheValue : Obligations.RegReadEmitsTheValue := by
  unfold Obligations.RegReadEmitsTheValue
  intro s
  refine ⟨?assigned, fun r hr => ?unassigned⟩
  case assigned =>
    show ∀ p ∈ allRegs.map fun r => (regNumber r, r), _
    exact List.forall_mem_map.mpr fun r _ => exec_regRead_regNumber r s
  case unassigned => exact exec_regRead_of_unassigned (by rw [regOfNumber_isSome_iff]; omega) s

/-! ## The Timing Model (R103 to R105) -/

/-- Every selector but the reserved one has its divisor (10_state.md R23). -/
theorem tolDivisor_of_ne_reserved {ts : BitVec 2} (h : ts ≠ 3#2) :
    tolDivisor ts = some (if ts = 0#2 then 2 else if ts = 1#2 then 10 else 100) := by
  revert ts; decide

theorem two_le_of_tolDivisor {ts : BitVec 2} {d : Nat} (h : tolDivisor ts = some d) : 2 ≤ d := by
  rw [tolDivisor_eq_some] at h
  omega

/-- The tolerance lies below the half-bit period: `t div d ≤ t - 1` for a divisor of at least 2, and 3 does for a period of at least 4
(R108). -/
theorem toleranceSamples_bounds {t d : Nat} (ht : 4 ≤ t) (hd : 2 ≤ d) :
    3 ≤ toleranceSamples t d ∧ toleranceSamples t d + 1 ≤ t := by
  have hq : t / d < t := Nat.div_lt_self (by omega) hd
  unfold toleranceSamples tolMin
  omega

/-- The timing of a valid configuration, with the quotient of each selector written out. -/
theorem deriveTiming_of_valid {br sr : BitVec 32} {ts : BitVec 2} (hmin : 1 ≤ br.toNat) (hmax : br.toNat ≤ maxBitRate)
    (hts : ts ≠ 3#2) (hratio : minRateRatio * br.toNat ≤ sr.toNat) :
    deriveTiming br sr ts =
      let t := halfBitSamples br.toNat sr.toNat
      some { halfbit := BitVec.ofNat 32 t
             tol := BitVec.ofNat 32 (max tolMin (if ts = 0#2 then t / 2 else if ts = 1#2 then t / 10 else t / 100)) } := by
  refine (deriveTiming_eq_some br sr ts _).mpr ⟨_, tolDivisor_of_ne_reserved hts, hmin, hmax, hratio, ?_⟩
  simp only [toleranceSamples, apply_ite (halfBitSamples br.toNat sr.toNat / ·)]

/-- Neither constant is cut to its 32 bits, and both are in the range of R108. -/
theorem deriveTiming_bounds {br sr : BitVec 32} {ts : BitVec 2} {tm : Timing} (h : deriveTiming br sr ts = some tm) :
    tm.halfbit.toNat = halfBitSamples br.toNat sr.toNat ∧ 4 ≤ tm.halfbit.toNat ∧ tm.halfbit.toNat ≤ 2 ^ 31 ∧
      3 ≤ tm.tol.toNat ∧ tm.tol.toNat + 1 ≤ tm.halfbit.toNat := by
  obtain ⟨d, hd, hmin, -, hratio, rfl⟩ := (deriveTiming_eq_some br sr ts tm).mp h
  obtain ⟨hlow, hhigh⟩ := halfBitSamples_bounds br.toNat sr.toNat hmin hratio sr.isLt
  obtain ⟨htol, hlt⟩ := toleranceSamples_bounds hlow (two_le_of_tolDivisor hd)
  simp only [BitVec.toNat_ofNat]
  omega

/-! ## START (R103 to R106, R108) -/

/-- The effective preamble is never empty (R106). -/
theorem one_le_effectiveSyncBits (req : BitVec 16) : 1 ≤ (effectiveSyncBits req).toNat := by
  unfold effectiveSyncBits
  split
  · decide
  · next h => exact Nat.pos_of_ne_zero fun h0 => h (BitVec.eq_of_toNat_eq h0)

/-- START with a derived timing begins a run. -/
theorem exec_start_of_deriveTiming {s : State} {tm : Timing} (h : deriveTiming s.bitrate s.samplerate s.tolsel = some tm) :
    exec .start s = .next (beginRun tm { abandonRun s with cfgErr := false }) := by
  simp [exec_start, execStart, h]

/-- A START that leaves the decoder running has derived a timing and begun a run. -/
theorem exec_start_of_running {s t : State} (h : exec .start s = .next t) (hrun : t.running = true) :
    ∃ tm, deriveTiming s.bitrate s.samplerate s.tolsel = some tm ∧ t = beginRun tm { abandonRun s with cfgErr := false } := by
  obtain ⟨-, rfl⟩ | begun := exec_start_cases h
  · exact absurd hrun Bool.false_ne_true
  · exact begun

/-- A run begun with a derived timing has legal latches. -/
theorem timingLegal_beginRun {br sr : BitVec 32} {ts : BitVec 2} {tm : Timing} (h : deriveTiming br sr ts = some tm) (s : State) :
    TimingLegal (beginRun tm s) := by
  obtain ⟨-, hlow, hhigh, htol, hlt⟩ := deriveTiming_bounds h
  exact ⟨hlow, hhigh, htol, hlt, one_le_effectiveSyncBits s.syncbits⟩

/-- With legal timing the window of every class begins at 1 or later (41_classifier.md R131). -/
theorem window_lower_bound {s : State} (h : TimingLegal s) (c : IntervalClass) :
    s.tol.toNat + 1 ≤ classMultiple c * s.halfbit.toNat := by
  obtain ⟨-, -, -, hlt, -⟩ := h
  have hc : 1 ≤ classMultiple c := by cases c <;> decide
  calc s.tol.toNat + 1 ≤ s.halfbit.toNat := hlt
    _ ≤ classMultiple c * s.halfbit.toNat := Nat.le_mul_of_pos_left _ hc

/-- Settles O25: the checks pass, and the state START begins with is written out. -/
theorem startBeginsARun : Obligations.StartBeginsARun := by
  unfold Obligations.StartBeginsARun
  intro s hmin hmax hts hratio
  exact exec_start_of_deriveTiming (deriveTiming_of_valid hmin hmax hts hratio)

/-- Settles O26: a running decoder after START has the derived timing, which is legal. -/
theorem startLeavesLegalTiming : Obligations.StartLeavesLegalTiming := by
  unfold Obligations.StartLeavesLegalTiming
  intro s t h hrun
  obtain ⟨tm, htm, rfl⟩ := exec_start_of_running h hrun
  have hlegal := timingLegal_beginRun htm { abandonRun s with cfgErr := false }
  obtain ⟨hexact, hlow, hhigh, htol, hlt⟩ := deriveTiming_bounds htm
  exact ⟨hlow, Nat.lt_succ_of_le hhigh, htol, Nat.le_sub_one_of_lt hlt, window_lower_bound hlegal, hexact, one_le_effectiveSyncBits s.syncbits⟩

/-! ## CANCEL (R107) -/

/-- Settles O27: a running decoder abandons its run, a stopped one does nothing. -/
theorem cancelOnlyStops : Obligations.CancelOnlyStops := by
  unfold Obligations.CancelOnlyStops
  intro s
  show execCancel s = _
  unfold execCancel
  split
  · rfl
  · rfl

end Sys2Proof.Machine
end

