-- ==== Sys2Proof/Proofs/Classifier.lean ====
section
/-! PROOF. The classifier (41_classifier.md R131 to R137): the window test as inequalities, the priority list as an ascending
list of all classes, and from these when `classify` gives a class, when it gives none, and what it gives at an upper bound. -/

namespace Sys2Proof.Machine

/-! ## Windows (R131) -/

theorem inWindow_iff {t tol : Nat} {d : Int} {c : IntervalClass} :
    inWindow t tol d c = true ↔ (classMultiple c * t : Int) - tol ≤ d ∧ d ≤ (classMultiple c * t : Int) + tol :=
  decide_eq_true_iff

theorem inWindow_upper_bound (t tol : Nat) (c : IntervalClass) : inWindow t tol (classMultiple c * t + tol : Nat) c = true := by
  rw [inWindow_iff]
  push_cast
  omega

/-- A distance above the upper bound of a class is outside its window. -/
theorem inWindow_eq_false_of_upper_bound_lt {t tol n : Nat} {c : IntervalClass} (h : classMultiple c * t + tol < n) :
    inWindow t tol n c = false := by
  rw [Bool.eq_false_iff, ne_eq, inWindow_iff]
  rintro ⟨-, hle⟩
  exact absurd (by exact_mod_cast hle) (Nat.not_le.mpr h)

/-- With a positive period the upper bound of a class lies above that of every smaller class (R137). -/
theorem upper_bound_lt_of_classMultiple_lt {t : Nat} (ht : 0 < t) (tol : Nat) {c c' : IntervalClass}
    (h : classMultiple c' < classMultiple c) : classMultiple c' * t + tol < classMultiple c * t + tol :=
  Nat.add_lt_add_right (Nat.mul_lt_mul_of_pos_right h ht) tol

/-! ## Priority (R132) -/

theorem mem_classPriority (c : IntervalClass) : c ∈ classPriority := by cases c <;> decide

theorem classPriority_ascending : classPriority.Pairwise (classMultiple · < classMultiple ·) := by decide

/-- In a list that ascends in `f`, `find?` gives the element of least `f` that satisfies the test. -/
theorem find?_eq_some_iff_of_ascending {α : Type} {f : α → Nat} {l : List α} (hl : l.Pairwise (f · < f ·)) (p : α → Bool) (a : α) :
    l.find? p = some a ↔ a ∈ l ∧ p a = true ∧ ∀ b ∈ l, f b < f a → p b = false := by
  induction hl with
  | nil => simp
  | @cons x l hx _ ih =>
    by_cases hpx : p x = true
    · rw [List.find?_cons_of_pos hpx]
      have hmin : ∀ b ∈ x :: l, ¬f b < f x := List.forall_mem_cons.mpr ⟨lt_irrefl _, fun b hb => (hx b hb).asymm⟩
      constructor
      · rintro ⟨⟩
        exact ⟨List.mem_cons_self, hpx, fun b hb hlt => absurd hlt (hmin b hb)⟩
      · rintro ⟨ha, -, hleast⟩
        obtain rfl | hal := List.mem_cons.mp ha
        · rfl
        · have hfalse := hleast x List.mem_cons_self (hx a hal)
          exact absurd hpx (Bool.eq_false_iff.mp hfalse)
    · rw [List.find?_cons_of_neg hpx, ih]
      have hne : p a = true → a ≠ x := fun hpa hax => hpx (hax ▸ hpa)
      simp only [List.mem_cons, forall_eq_or_imp]
      constructor
      · rintro ⟨hal, hpa, hleast⟩
        exact ⟨.inr hal, hpa, fun _ => Bool.eq_false_iff.mpr hpx, hleast⟩
      · rintro ⟨ha, hpa, -, hleast⟩
        exact ⟨ha.resolve_left (hne hpa), hpa, hleast⟩

/-! ## `classify` (R134) -/

theorem classify_eq_some_iff (t tol : Nat) (d : Int) (cands : List IntervalClass) (c : IntervalClass) :
    classify t tol d cands = some c ↔
      c ∈ cands ∧ inWindow t tol d c = true ∧ ∀ c' ∈ cands, classMultiple c' < classMultiple c → inWindow t tol d c' = false := by
  unfold classify
  rw [find?_eq_some_iff_of_ascending classPriority_ascending]
  constructor
  · rintro ⟨-, hc, hleast⟩
    obtain ⟨hmem, hin⟩ : c ∈ cands ∧ inWindow t tol d c = true := by simpa using hc
    exact ⟨hmem, hin, fun c' hc' hlt => by simpa [hc'] using hleast c' (mem_classPriority c') hlt⟩
  · rintro ⟨hmem, hin, hleast⟩
    exact ⟨mem_classPriority c, by simp [hmem, hin], fun c' _ hlt => by simpa using fun hc' => hleast c' hc' hlt⟩

theorem classify_eq_none_iff (t tol : Nat) (d : Int) (cands : List IntervalClass) :
    classify t tol d cands = none ↔ ∀ c ∈ cands, inWindow t tol d c = false := by
  simp [classify, mem_classPriority]

/-- Settles O29: both results, with the window tests read as inequalities. -/
theorem classifyPrefersTheSmallestWindow : Obligations.ClassifyPrefersTheSmallestWindow := by
  unfold Obligations.ClassifyPrefersTheSmallestWindow
  intro t tol d cands
  simp only [← inWindow_iff, Bool.not_eq_true]
  refine ⟨fun c => ?_, classify_eq_none_iff t tol d cands⟩
  rw [classify_eq_some_iff, inWindow_iff, and_assoc]

/-- Settles O30: the upper bounds of the windows ascend with the class, so that of `c` is above every smaller window. -/
theorem upperBoundBelongsToItsClass : Obligations.UpperBoundBelongsToItsClass := by
  unfold Obligations.UpperBoundBelongsToItsClass
  intro t tol c cands ht _ hc
  constructor
  · rw [classify_eq_some_iff]
    have hsmaller : ∀ c' ∈ cands, classMultiple c' < classMultiple c →
        inWindow t tol (classMultiple c * t + tol : Nat) c' = false := fun c' _ hlt =>
      inWindow_eq_false_of_upper_bound_lt (upper_bound_lt_of_classMultiple_lt (by omega) tol hlt)
    exact ⟨hc, inWindow_upper_bound t tol c, hsmaller⟩
  · rw [classify_eq_none_iff]
    exact List.forall_mem_singleton.mpr (inWindow_eq_false_of_upper_bound_lt (Nat.lt_succ_self _))

end Sys2Proof.Machine
end

