-- ==== Sys2Proof/Proofs/EdgeInput.lean ====
section
/-! PROOF. The edge-input family (42_edge_input.md R150 to R157): the two checks of EDGE and QUIET before a transition counts, the
stopped check (R151) and the order check (R152). -/

namespace Sys2Proof.Machine

theorem exec_edge (e : Sample) (s : State) : exec (.edge e) s = execEdge e s := rfl

theorem exec_quiet (h : Sample) (s : State) : exec (.quiet h) s = execQuiet h s := rfl

/-! ## The stopped check (R151) -/

theorem execEdge_of_stopped {s : State} (hstop : s.running = false) (e : Sample) : execEdge e s = .next s := by
  rcases execEdge_cases e s with ⟨-, hdiscard⟩ | ⟨hrun, -⟩ | ⟨⟨hrun, -⟩, -⟩
  · exact hdiscard
  · simp [hstop] at hrun
  · simp [hstop] at hrun

theorem execQuiet_of_stopped {s : State} (hstop : s.running = false) (h : Sample) : execQuiet h s = .next s := by
  rcases execQuiet_cases h s with ⟨-, hdiscard⟩ | ⟨hrun, -⟩ | ⟨hrun, -⟩
  · exact hdiscard
  · simp [hstop] at hrun
  · simp [hstop] at hrun

/-- Settles O32: the stopped check of EDGE and of QUIET comes before anything else they do. -/
theorem stoppedBlockDiscardsEdges : Obligations.StoppedBlockDiscardsEdges := by
  unfold Obligations.StoppedBlockDiscardsEdges
  intro s n hstop
  rw [exec_edge, exec_quiet]
  exact ⟨execEdge_of_stopped hstop n, execQuiet_of_stopped hstop n⟩

/-! ## The order check (R152) -/

/-- An EDGE on either ground of R152 is not accepted, whatever the phase. -/
theorem not_edgeAccepted_of_out_of_order {e : Sample} {s : State}
    (hlate : e.toNat ≤ s.cursample.toNat ∨ e.toNat ≤ s.horizon.toNat) : ¬ EdgeAccepted e s := by
  rintro ⟨-, hcursor, hhorizon⟩
  omega

theorem execEdge_of_out_of_order {e : Sample} {s : State} (hrun : s.running = true)
    (hlate : e.toNat ≤ s.cursample.toNat ∨ e.toNat ≤ s.horizon.toNat) : execEdge e s = .next (orderFault s) := by
  rcases execEdge_cases e s with ⟨hstop, -⟩ | ⟨-, -, hfault⟩ | ⟨haccepted, -⟩
  · simp [hrun] at hstop
  · exact hfault
  · exact absurd haccepted (not_edgeAccepted_of_out_of_order hlate)

/-- Settles O33: a running decoder answers an EDGE that breaks the order with the order fault, which writes three fields. -/
theorem edgeOutOfOrderStopsTheDecoder : Obligations.EdgeOutOfOrderStopsTheDecoder := by
  unfold Obligations.EdgeOutOfOrderStopsTheDecoder
  intro s e hrun hlate
  rw [exec_edge, execEdge_of_out_of_order hrun hlate, orderFault]

end Sys2Proof.Machine
end

