-- ==== Sys2Proof/Proofs/PreambleScan.lean ====
section
/-! PROOF. The preamble scan and the START lookahead (43_preamble_scan.md R171 to R176): what the rules of SCAN, START_NEXT and
START_HALF do with the interval from the cursor, by the window it lies in. -/

namespace Sys2Proof.Machine

/-- An accepted EDGE in a phase that measures does what the rule of the phase says (42_edge_input.md R154). -/
theorem exec_edge_of_rule {e : Sample} {s t : State} (haccepted : EdgeAccepted e s)
    (hrule : intervalRule s.phase (intervalTo e s) (moveCursor e s) = some t) : exec (.edge e) s = .next t := by
  rw [exec_edge, execEdge_accepted e s haccepted, acceptEdge_of_rule e s t hrule]

/-! ## The shared effects -/

/-- An invalid START writes SYNCCOUNT and PHASE only (60_exceptions.md R264). -/
theorem raiseInvalidStart_eq (s : State) : raiseInvalidStart s = { s with synccount := 0#32, phase := .scan } := by
  rw [raiseInvalidStart, recover, List.append_nil]

/-- In SCAN it only clears the run (R171). -/
theorem raiseInvalidStart_of_scan {s : State} (hphase : s.phase = .scan) : raiseInvalidStart s = { s with synccount := 0#32 } := by
  rw [raiseInvalidStart_eq, ← hphase]

/-- A `Half` writes RUN_START and SYNCCOUNT only, and SYNCCOUNT does not wrap (R171, R172). -/
theorem countHalf_eq (iv : Interval) (s : State) :
    countHalf iv s =
      { s with
        runStart := if s.synccount = 0#32 then iv.opened else s.runStart
        synccount := if s.synccount = 0xFFFFFFFF#32 then s.synccount else s.synccount + 1#32 } := by
  rw [countHalf, sat32_succ]

/-- R173: the run is long enough, and the level reached is ONE_LEVEL of the latched polarity. -/
theorem startQualifies_iff (s : State) :
    startQualifies s = true ↔
      2 * s.rsync.toNat ≤ s.synccount.toNat ∧ s.curlevel = (if s.invL then .high else .low) := by
  rw [startQualifies, Bool.and_eq_true, decide_eq_true_iff, beq_iff_eq, oneLevel_eq]

/-! ## The rules of the three phases, by window -/

/-- R171, R173, R174: in SCAN a `Long5` opens the START symbol only when the run qualifies, judged at the level the EDGE reaches. -/
theorem scanEdge_intervalTo (e : Sample) (s : State) :
    scanEdge (intervalTo e s) (moveCursor e s) =
      if intervalIn 1 e s then countHalf (intervalTo e s) (moveCursor e s)
      else if intervalIn 5 e s ∧ 2 * s.rsync.toNat ≤ s.synccount.toNat ∧
          otherLevel s.curlevel = (if s.invL then .high else .low) then
        { moveCursor e s with l5Start := s.cursample, phase := .startNext }
      else raiseInvalidStart (moveCursor e s) := by
  rw [scanEdge, classifyIn_moveCursor, classifyIn_scan]
  by_cases hhalf : intervalIn 1 e s
  · simp [hhalf]
  by_cases hlong5 : intervalIn 5 e s
  · rw [if_neg hhalf, if_neg hhalf, if_pos hlong5]
    exact if_congr ((startQualifies_iff (moveCursor e s)).trans (and_iff_right hlong5).symm) rfl rfl
  · simp [hhalf, hlong5]

/-- R175: in START_NEXT the `Long4` window has priority over the `Long5` window. -/
theorem startNextEdge_intervalTo (e : Sample) (s : State) :
    startNextEdge (intervalTo e s) (moveCursor e s) =
      if intervalIn 4 e s then { moveCursor e s with phase := .startHalf }
      else if intervalIn 5 e s then syncSuccess e (moveCursor e s)
      else raiseInvalidStart (moveCursor e s) := by
  rw [startNextEdge, classifyIn_moveCursor, classifyIn_startNext]
  by_cases hlong4 : intervalIn 4 e s
  · simp [hlong4]
  by_cases hlong5 : intervalIn 5 e s
  · simp [hlong4, hlong5, intervalTo]
  · simp [hlong4, hlong5]

/-- R176: in START_HALF only a `Half` is in order. -/
theorem startHalfEdge_intervalTo (e : Sample) (s : State) :
    startHalfEdge (intervalTo e s) (moveCursor e s) =
      if intervalIn 1 e s then syncSuccess e (moveCursor e s) else raiseInvalidInterval e (moveCursor e s) := by
  rw [startHalfEdge, classifyIn_moveCursor, classifyIn_startHalf]
  by_cases hhalf : intervalIn 1 e s
  · simp [hhalf, intervalTo]
  · simp [hhalf, intervalTo]

/-! ## EDGE in the three phases -/

/-- Settles O38: the rule of SCAN by window, with the count, the qualification and the cleared run written out. -/
theorem edgeInScan : Obligations.EdgeInScan := by
  unfold Obligations.EdgeInScan
  intro s e haccepted hphase
  have hrule : intervalRule s.phase (intervalTo e s) (moveCursor e s) = some (scanEdge (intervalTo e s) (moveCursor e s)) := by
    rw [hphase, intervalRule]
  rw [exec_edge_of_rule haccepted hrule, scanEdge_intervalTo, countHalf_eq,
    raiseInvalidStart_of_scan (s := moveCursor e s) hphase, moveCursor, intervalTo]

/-- Settles O39: the rule of START_NEXT by window, with the invalid START written out. -/
theorem edgeInStartNext : Obligations.EdgeInStartNext := by
  unfold Obligations.EdgeInStartNext
  intro s e haccepted hphase
  have hrule : intervalRule s.phase (intervalTo e s) (moveCursor e s) =
      some (startNextEdge (intervalTo e s) (moveCursor e s)) := by
    rw [hphase, intervalRule]
  rw [exec_edge_of_rule haccepted hrule, startNextEdge_intervalTo, raiseInvalidStart_eq, moveCursor]

/-- Settles O40: the rule of START_HALF by window; the error is an invalid interval at the transition. -/
theorem edgeInStartHalf : Obligations.EdgeInStartHalf := by
  unfold Obligations.EdgeInStartHalf
  intro s e haccepted hphase
  have hrule : intervalRule s.phase (intervalTo e s) (moveCursor e s) =
      some (startHalfEdge (intervalTo e s) (moveCursor e s)) := by
    rw [hphase, intervalRule]
  rw [exec_edge_of_rule haccepted hrule, startHalfEdge_intervalTo, raiseInvalidInterval, recover, moveCursor]

end Sys2Proof.Machine
end

