-- ==== Sys2Proof/Proofs/ByteDecode.lean ====
section
/-! PROOF. Byte decoding (44_byte_decode.md R204, R205): what the rules of BIT_FIRST and BIT_SECOND do with the interval from the
cursor, by the window it lies in. -/

namespace Sys2Proof.Machine

/-! ## The rules of the two phases, by window -/

/-- R204: in BIT_FIRST the `Half` window has priority over the `Full` window. -/
theorem bitFirstEdge_intervalTo (e : Sample) (s : State) :
    bitFirstEdge (intervalTo e s) (moveCursor e s) =
      if intervalIn 1 e s then { moveCursor e s with phase := .bitSecond }
      else if intervalIn 2 e s then readBit (s.bitidx.toNat + 1) e (moveCursor e s)
      else raiseInvalidInterval e (moveCursor e s) := by
  rw [bitFirstEdge, classifyIn_moveCursor, classifyIn_bitFirst]
  by_cases hhalf : intervalIn 1 e s
  · simp [hhalf]
  by_cases hfull : intervalIn 2 e s
  · simp [hhalf, hfull, intervalTo]
  · simp [hhalf, hfull, intervalTo]

/-- R205: in BIT_SECOND only a second `Half` is in order. -/
theorem bitSecondEdge_intervalTo (e : Sample) (s : State) :
    bitSecondEdge (intervalTo e s) (moveCursor e s) =
      if intervalIn 1 e s then readBit (s.bitidx.toNat + 1) e (moveCursor e s)
      else raiseInvalidInterval e (moveCursor e s) := by
  rw [bitSecondEdge, classifyIn_moveCursor, classifyIn_bitSecond]
  by_cases hhalf : intervalIn 1 e s
  · simp [hhalf, intervalTo]
  · simp [hhalf, intervalTo]

/-! ## EDGE in the two phases -/

/-- Settles O46: the rule of BIT_FIRST by window, with the cursor's move and the invalid interval written out. -/
theorem edgeInBitFirst : Obligations.EdgeInBitFirst := by
  unfold Obligations.EdgeInBitFirst
  intro s e haccepted hphase
  have hrule : intervalRule s.phase (intervalTo e s) (moveCursor e s) =
      some (bitFirstEdge (intervalTo e s) (moveCursor e s)) := by
    rw [hphase, intervalRule]
  rw [exec_edge_of_rule haccepted hrule, bitFirstEdge_intervalTo, raiseInvalidInterval, recover, moveCursor]

/-- Settles O47: the rule of BIT_SECOND by window, with the cursor's move and the invalid interval written out. -/
theorem edgeInBitSecond : Obligations.EdgeInBitSecond := by
  unfold Obligations.EdgeInBitSecond
  intro s e haccepted hphase
  have hrule : intervalRule s.phase (intervalTo e s) (moveCursor e s) =
      some (bitSecondEdge (intervalTo e s) (moveCursor e s)) := by
    rw [hphase, intervalRule]
  rw [exec_edge_of_rule haccepted hrule, bitSecondEdge_intervalTo, raiseInvalidInterval, recover, moveCursor]

end Sys2Proof.Machine
end

