-- ==== Sys2Proof/Proofs/StopDetect.lean ====
section
/-! PROOF. STOP detection (45_stop_detect.md R221 to R223): what the rules of STOP_FIRST and STOP_SECOND do with the interval from the
cursor, by the window it lies in. -/

namespace Sys2Proof.Machine

/-! ## The rules of the two phases, by window -/

/-- R221: in STOP_FIRST the windows have priority in the order of their classes; a `Long5` is a STOP candidate only outside the
`Long4` window, which is an error here. -/
theorem stopFirstEdge_intervalTo (e : Sample) (s : State) :
    stopFirstEdge (intervalTo e s) (moveCursor e s) =
      if intervalIn 1 e s then { moveCursor e s with phase := .stopSecond }
      else if intervalIn 2 e s then readBit 1 e (moveCursor e s)
      else if intervalIn 5 e s ∧ ¬intervalIn 4 e s then stopCandidate e (moveCursor e s)
      else raiseInvalidInterval e (moveCursor e s) := by
  rw [stopFirstEdge, classifyIn_moveCursor, classifyIn_stopFirst]
  by_cases hhalf : intervalIn 1 e s
  · simp [hhalf]
  by_cases hfull : intervalIn 2 e s
  · simp [hhalf, hfull, intervalTo]
  by_cases hlong4 : intervalIn 4 e s
  · simp [hhalf, hfull, hlong4, intervalTo]
  by_cases hlong5 : intervalIn 5 e s
  · simp [hhalf, hfull, hlong4, hlong5, intervalTo]
  · simp [hhalf, hfull, hlong4, hlong5, intervalTo]

/-- R222: in STOP_SECOND the `Half` window has priority over the `Long4` window, the only STOP candidate here. -/
theorem stopSecondEdge_intervalTo (e : Sample) (s : State) :
    stopSecondEdge (intervalTo e s) (moveCursor e s) =
      if intervalIn 1 e s then readBit 1 e (moveCursor e s)
      else if intervalIn 4 e s then stopCandidate e (moveCursor e s)
      else raiseInvalidInterval e (moveCursor e s) := by
  rw [stopSecondEdge, classifyIn_moveCursor, classifyIn_stopSecond]
  by_cases hhalf : intervalIn 1 e s
  · simp [hhalf, intervalTo]
  by_cases hlong4 : intervalIn 4 e s
  · simp [hhalf, hlong4, intervalTo]
  · simp [hhalf, hlong4, intervalTo]

/-! ## EDGE in the two phases -/

/-- Settles O48: the rule of STOP_FIRST by window, with the cursor's move, the candidate and the invalid interval written out. -/
theorem edgeInStopFirst : Obligations.EdgeInStopFirst := by
  unfold Obligations.EdgeInStopFirst
  intro s e haccepted hphase
  have hrule : intervalRule s.phase (intervalTo e s) (moveCursor e s) =
      some (stopFirstEdge (intervalTo e s) (moveCursor e s)) := by
    rw [hphase, intervalRule]
  rw [exec_edge_of_rule haccepted hrule, stopFirstEdge_intervalTo, stopCandidate, raiseInvalidInterval, recover, moveCursor]

/-- Settles O49: the rule of STOP_SECOND by window, with the cursor's move, the candidate and the invalid interval written out. -/
theorem edgeInStopSecond : Obligations.EdgeInStopSecond := by
  unfold Obligations.EdgeInStopSecond
  intro s e haccepted hphase
  have hrule : intervalRule s.phase (intervalTo e s) (moveCursor e s) =
      some (stopSecondEdge (intervalTo e s) (moveCursor e s)) := by
    rw [hphase, intervalRule]
  rw [exec_edge_of_rule haccepted hrule, stopSecondEdge_intervalTo, stopCandidate, raiseInvalidInterval, recover, moveCursor]

end Sys2Proof.Machine
end

