-- ==== Sys2Proof/Proofs/Exceptions.lean ====
section
/-! PROOF. The configuration refusal (60_exceptions.md R266): on each of its grounds no timing is derived, and START without a timing is
refused. -/

namespace Sys2Proof.Machine

/-! ## The checks (40_control.md R103) -/

/-- The reserved selector has no divisor (10_state.md R23). -/
theorem tolDivisor_of_reserved {ts : BitVec 2} (h : ts = 3#2) : tolDivisor ts = none := by
  subst h
  rfl

/-- On each ground of R266 one of START's checks fails. -/
theorem deriveTiming_of_invalid {br sr : BitVec 32} {ts : BitVec 2}
    (h : br.toNat < 1 ∨ maxBitRate < br.toNat ∨ ts = 3#2 ∨ sr.toNat < minRateRatio * br.toNat) : deriveTiming br sr ts = none := by
  refine Option.eq_none_iff_forall_ne_some.mpr fun tm htm => ?_
  obtain ⟨d, hd, hmin, hmax, hratio, -⟩ := (deriveTiming_eq_some br sr ts tm).mp htm
  rcases h with hzero | hfast | hreserved | hslow
  · exact Nat.not_lt.mpr hmin hzero
  · exact Nat.not_lt.mpr hmax hfast
  · simp [tolDivisor_of_reserved hreserved] at hd
  · exact Nat.not_lt.mpr hratio hslow

/-! ## START (R266) -/

/-- START without a derived timing is refused: the run is abandoned with CFG_ERR. -/
theorem exec_start_of_no_timing {s : State} (h : deriveTiming s.bitrate s.samplerate s.tolsel = none) :
    exec .start s = .next { abandonRun s with cfgErr := true } := by
  simp [exec_start, execStart, h]

/-- Settles O24: no timing is derived on any of the grounds, and the refusal writes RUNNING, the lookahead's flag and CFG_ERR. -/
theorem startRefusesAnInvalidConfiguration : Obligations.StartRefusesAnInvalidConfiguration := by
  unfold Obligations.StartRefusesAnInvalidConfiguration
  intro s hinvalid
  rw [exec_start_of_no_timing (deriveTiming_of_invalid hinvalid), abandonRun]

end Sys2Proof.Machine
end

