-- ==== Sys2Proof/Proofs/Outcomes.lean ====
section
/-! PROOF. What performing a row can do, said once: every row answers a next state, and that state is one of the outcomes named here. The
invariants and the statements over every step go by these cases. A register write is an outcome as a change of the configuration, the part
of the state that only START reads. -/

namespace Sys2Proof.Machine

/-! ## The configuration (10_state.md R21 to R26) -/

/-- The configuration registers (10_state.md R21 to R26). -/
structure Configuration where
  bitrate : BitVec 32
  samplerate : BitVec 32
  inverted : Bool
  tolsel : BitVec 2
  syncbits : BitVec 16
  startSample : Sample
  startLevel : Level

/-- The state with its configuration changed by `f`. -/
def configure (f : Configuration → Configuration) (s : State) : State :=
  let c := f ⟨s.bitrate, s.samplerate, s.inverted, s.tolsel, s.syncbits, s.startSample, s.startLevel⟩
  { s with
    bitrate := c.bitrate, samplerate := c.samplerate, inverted := c.inverted, tolsel := c.tolsel, syncbits := c.syncbits,
    startSample := c.startSample, startLevel := c.startLevel }

/-- A write that a register takes is a change of the configuration, the same in every state. -/
theorem writeReg_eq_configure {r : Reg} (hwritable : regWritable r = true) (v : Word64) :
    ∃ f, ∀ s, writeReg r v s = some (configure f s) := by
  cases r
  case bitrate => exact ⟨fun c => { c with bitrate := v.extractLsb' 0 32 }, fun _ => rfl⟩
  case samplerate => exact ⟨fun c => { c with samplerate := v.extractLsb' 0 32 }, fun _ => rfl⟩
  case ctrl => exact ⟨fun c => { c with inverted := v.getLsbD 0, tolsel := v.extractLsb' 1 2 }, fun _ => rfl⟩
  case syncbits => exact ⟨fun c => { c with syncbits := v.extractLsb' 0 16 }, fun _ => rfl⟩
  case startSample => exact ⟨fun c => { c with startSample := v }, fun _ => rfl⟩
  case startLevel => exact ⟨fun c => { c with startLevel := levelOfBit (v.getLsbD 0) }, fun _ => rfl⟩
  all_goals cases hwritable

/-- What a register takes in one state it takes in every state, as the same change. -/
theorem exists_configure_of_writeReg {r : Reg} {v : Word64} {s t : State} (hwrite : writeReg r v s = some t) :
    ∃ f, t = configure f s ∧ ∀ s', writeReg r v s' = some (configure f s') := by
  have hwritable : regWritable r = true := by rw [← writeReg_isSome r v s, hwrite, Option.isSome_some]
  obtain ⟨f, hf⟩ := writeReg_eq_configure hwritable v
  exact ⟨f, Option.some.inj (hwrite.symm.trans (hf s)), hf⟩

/-! ## An accepted EDGE (42_edge_input.md R153 to R155) -/

/-- The state in which the lookahead holds a transition (R155). -/
def hold (e : Sample) (s : State) : State := { s with nextValid := true, nextSample := e }

@[simp] theorem hold_pktseq (e : Sample) (s : State) : (hold e s).pktseq = s.pktseq := rfl

/-- What an accepted EDGE at `e` can lead to, by the rule of the phase and the window the interval lies in. -/
inductive EdgeOutcome (e : Sample) (s : State) : State → Prop
  | counted (hphase : s.phase = .scan) (hhalf : intervalIn 1 e s = true) :
    EdgeOutcome e s (countHalf (intervalTo e s) (moveCursor e s))
  | opened (hphase : s.phase = .scan) (hlong5 : intervalIn 5 e s = true) (hcount : 2 * s.rsync.toNat ≤ s.synccount.toNat) :
    EdgeOutcome e s { moveCursor e s with l5Start := s.cursample, phase := .startNext }
  | cleared (hphase : s.phase = .scan ∨ s.phase = .startNext) : EdgeOutcome e s (raiseInvalidStart (moveCursor e s))
  | startContinued (hphase : s.phase = .startNext) (hlong4 : intervalIn 4 e s = true) :
    EdgeOutcome e s { moveCursor e s with phase := .startHalf }
  | synchronized
    (hsync : s.phase = .startNext ∧ intervalIn 5 e s = true ∨ s.phase = .startHalf ∧ intervalIn 1 e s = true) :
    EdgeOutcome e s (syncSuccess e (moveCursor e s))
  | invalid
    (hphase : s.phase = .startHalf ∨ s.phase = .bitFirst ∨ s.phase = .bitSecond ∨ s.phase = .stopFirst ∨ s.phase = .stopSecond) :
    EdgeOutcome e s (raiseInvalidInterval e (moveCursor e s))
  | bitHalved (hphase : s.phase = .bitFirst) : EdgeOutcome e s { moveCursor e s with phase := .bitSecond }
  | bitRead (hphase : s.phase = .bitFirst ∨ s.phase = .bitSecond) :
    EdgeOutcome e s (readBit (s.bitidx.toNat + 1) e (moveCursor e s))
  | stopHalved (hphase : s.phase = .stopFirst) (hhalf : intervalIn 1 e s = true) :
    EdgeOutcome e s { moveCursor e s with phase := .stopSecond }
  | byteBegun (hphase : s.phase = .stopFirst ∨ s.phase = .stopSecond) : EdgeOutcome e s (readBit 1 e (moveCursor e s))
  | candidate
    (hlong : s.phase = .stopFirst ∧ intervalIn 5 e s = true ∨ s.phase = .stopSecond ∧ intervalIn 4 e s = true) :
    EdgeOutcome e s (stopCandidate e (moveCursor e s))
  | confirmed (hphase : s.phase = .stopProbe) (hbeyond : s.cursample.toNat + 2 * s.halfbit.toNat < e.toNat) :
    EdgeOutcome e s (replay (stopConfirmed (hold e s)))
  | unverified (hphase : s.phase = .stopProbe) (hwithin : e.toNat ≤ s.cursample.toNat + 2 * s.halfbit.toNat) :
    EdgeOutcome e s (replay (raiseStopVerify (hold e s)))

/-- An EDGE held in STOP_PROBE settles the probe at once: the span is closed at both ends (R159). -/
theorem probeStep_hold (e : Sample) (s : State) :
    probeStep (hold e s) =
      if e.toNat ≤ s.cursample.toNat + 2 * s.halfbit.toNat then replay (raiseStopVerify (hold e s))
      else replay (stopConfirmed (hold e s)) := by
  have hprobe : probe (probeSamples (hold e s)) (hold e s) =
      if e.toNat ≤ s.cursample.toNat + 2 * s.halfbit.toNat then .cross else .noCross := probe_of_held _ _ rfl
  by_cases hwithin : e.toNat ≤ s.cursample.toNat + 2 * s.halfbit.toNat
  · simp [probeStep, hprobe, hwithin]
  · simp [probeStep, hprobe, hwithin]

/-! ### The rule of each phase, by window (R154) -/

section
variable {e : Sample} {s : State}

theorem acceptEdge_in_scan (hphase : s.phase = .scan) :
    acceptEdge e s =
      if intervalIn 1 e s then countHalf (intervalTo e s) (moveCursor e s)
      else if intervalIn 5 e s ∧ 2 * s.rsync.toNat ≤ s.synccount.toNat ∧
          otherLevel s.curlevel = (if s.invL then .high else .low) then
        { moveCursor e s with l5Start := s.cursample, phase := .startNext }
      else raiseInvalidStart (moveCursor e s) := by
  rw [acceptEdge_of_rule e s _ (by rw [hphase, intervalRule]), scanEdge_intervalTo]

theorem acceptEdge_in_startNext (hphase : s.phase = .startNext) :
    acceptEdge e s =
      if intervalIn 4 e s then { moveCursor e s with phase := .startHalf }
      else if intervalIn 5 e s then syncSuccess e (moveCursor e s)
      else raiseInvalidStart (moveCursor e s) := by
  rw [acceptEdge_of_rule e s _ (by rw [hphase, intervalRule]), startNextEdge_intervalTo]

theorem acceptEdge_in_startHalf (hphase : s.phase = .startHalf) :
    acceptEdge e s =
      if intervalIn 1 e s then syncSuccess e (moveCursor e s) else raiseInvalidInterval e (moveCursor e s) := by
  rw [acceptEdge_of_rule e s _ (by rw [hphase, intervalRule]), startHalfEdge_intervalTo]

theorem acceptEdge_in_bitFirst (hphase : s.phase = .bitFirst) :
    acceptEdge e s =
      if intervalIn 1 e s then { moveCursor e s with phase := .bitSecond }
      else if intervalIn 2 e s then readBit (s.bitidx.toNat + 1) e (moveCursor e s)
      else raiseInvalidInterval e (moveCursor e s) := by
  rw [acceptEdge_of_rule e s _ (by rw [hphase, intervalRule]), bitFirstEdge_intervalTo]

theorem acceptEdge_in_bitSecond (hphase : s.phase = .bitSecond) :
    acceptEdge e s =
      if intervalIn 1 e s then readBit (s.bitidx.toNat + 1) e (moveCursor e s)
      else raiseInvalidInterval e (moveCursor e s) := by
  rw [acceptEdge_of_rule e s _ (by rw [hphase, intervalRule]), bitSecondEdge_intervalTo]

theorem acceptEdge_in_stopFirst (hphase : s.phase = .stopFirst) :
    acceptEdge e s =
      if intervalIn 1 e s then { moveCursor e s with phase := .stopSecond }
      else if intervalIn 2 e s then readBit 1 e (moveCursor e s)
      else if intervalIn 5 e s ∧ ¬intervalIn 4 e s then stopCandidate e (moveCursor e s)
      else raiseInvalidInterval e (moveCursor e s) := by
  rw [acceptEdge_of_rule e s _ (by rw [hphase, intervalRule]), stopFirstEdge_intervalTo]

theorem acceptEdge_in_stopSecond (hphase : s.phase = .stopSecond) :
    acceptEdge e s =
      if intervalIn 1 e s then readBit 1 e (moveCursor e s)
      else if intervalIn 4 e s then stopCandidate e (moveCursor e s)
      else raiseInvalidInterval e (moveCursor e s) := by
  rw [acceptEdge_of_rule e s _ (by rw [hphase, intervalRule]), stopSecondEdge_intervalTo]

theorem acceptEdge_in_stopProbe (hphase : s.phase = .stopProbe) :
    acceptEdge e s =
      if e.toNat ≤ s.cursample.toNat + 2 * s.halfbit.toNat then replay (raiseStopVerify (hold e s))
      else replay (stopConfirmed (hold e s)) :=
  (acceptEdge_of_probe e s hphase).trans (probeStep_hold e s)

end

theorem acceptEdge_outcome (e : Sample) (s : State) : EdgeOutcome e s (acceptEdge e s) := by
  cases hphase : s.phase
  case scan =>
    rw [acceptEdge_in_scan hphase]
    by_cases hhalf : intervalIn 1 e s
    · rw [if_pos hhalf]
      exact .counted hphase hhalf
    rw [if_neg hhalf]
    by_cases hopen : intervalIn 5 e s ∧ 2 * s.rsync.toNat ≤ s.synccount.toNat ∧
        otherLevel s.curlevel = (if s.invL then .high else .low)
    · rw [if_pos hopen]
      obtain ⟨hlong5, hcount, -⟩ := hopen
      exact .opened hphase hlong5 hcount
    · rw [if_neg hopen]
      exact .cleared (.inl hphase)
  case startNext =>
    rw [acceptEdge_in_startNext hphase]
    split
    · next hlong4 => exact .startContinued hphase hlong4
    split
    · next hlong5 => exact .synchronized (.inl ⟨hphase, hlong5⟩)
    · exact .cleared (.inr hphase)
  case startHalf =>
    rw [acceptEdge_in_startHalf hphase]
    split
    · next hhalf => exact .synchronized (.inr ⟨hphase, hhalf⟩)
    · exact .invalid (by simp [hphase])
  case bitFirst =>
    rw [acceptEdge_in_bitFirst hphase]
    split
    · exact .bitHalved hphase
    split
    · exact .bitRead (.inl hphase)
    · exact .invalid (by simp [hphase])
  case bitSecond =>
    rw [acceptEdge_in_bitSecond hphase]
    split
    · exact .bitRead (.inr hphase)
    · exact .invalid (by simp [hphase])
  case stopFirst =>
    rw [acceptEdge_in_stopFirst hphase]
    split
    · next hhalf => exact .stopHalved hphase hhalf
    split
    · exact .byteBegun (.inl hphase)
    split
    · next hlong5 => exact .candidate (.inl ⟨hphase, hlong5.1⟩)
    · exact .invalid (by simp [hphase])
  case stopSecond =>
    rw [acceptEdge_in_stopSecond hphase]
    split
    · exact .byteBegun (.inr hphase)
    split
    · next hlong4 => exact .candidate (.inr ⟨hphase, hlong4⟩)
    · exact .invalid (by simp [hphase])
  case stopProbe =>
    rw [acceptEdge_in_stopProbe hphase]
    split
    · next hwithin => exact .unverified hphase hwithin
    · next hbeyond => exact .confirmed hphase (Nat.lt_of_not_le hbeyond)

/-! ## The windows as inequalities (41_classifier.md R131) -/

theorem intervalIn_iff {k : Nat} {e : Sample} {s : State} :
    intervalIn k e s = true ↔
      s.cursample.toNat + k * s.halfbit.toNat ≤ e.toNat + s.tol.toNat ∧
        e.toNat ≤ s.cursample.toNat + k * s.halfbit.toNat + s.tol.toNat :=
  decide_eq_true_iff

/-! ## The rows -/

/-- What performing a row can lead to. -/
inductive RowOutcome (s : State) : Instr → State → Prop
  | configured (r : Reg) (v : Word64) (f : Configuration → Configuration) : RowOutcome s (.cfgWrite (regNumber r) v) (configure f s)
  | valueRead (r : Reg) : RowOutcome s (.regRead (regNumber r)) (emit (.regValue r (readReg r s)) s)
  | malformed (i : Instr) (hrow : i ≠ .start) : RowOutcome s i (discardMalformed s)
  | emitted (i : Instr) (hrow : i ≠ .start) (hblock : s.issuer = .block) (r : Record) : RowOutcome s i (emit r s)
  | refused : RowOutcome s .start { abandonRun s with cfgErr := true }
  | begun {tm : Timing} (htiming : deriveTiming s.bitrate s.samplerate s.tolsel = some tm) :
    RowOutcome s .start (beginRun tm { abandonRun s with cfgErr := false })
  | discarded (i : Instr) (hrow : i ≠ .start) (hstopped : s.running = false) : RowOutcome s i s
  | cancelled (hrun : s.running = true) : RowOutcome s .cancel (abandonRun s)
  | outOfOrder (e : Sample) (hrun : s.running = true) : RowOutcome s (.edge e) (orderFault s)
  | accepted {e : Sample} {t : State} (haccepted : EdgeAccepted e s) (hedge : EdgeOutcome e s t) : RowOutcome s (.edge e) t
  | horizonRaised (h : Sample) (hrun : s.running = true) (hphase : s.phase ≠ .stopProbe) :
    RowOutcome s (.quiet h) (raiseHorizon h s)
  | probeWaits (h : Sample) (hrun : s.running = true) (hphase : s.phase = .stopProbe)
    (hwait : s.nextValid = false → (raiseHorizon h s).horizon.toNat < s.cursample.toNat + 2 * s.halfbit.toNat) :
    RowOutcome s (.quiet h) (raiseHorizon h s)
  | probeConfirmed (h : Sample) (hrun : s.running = true) (hphase : s.phase = .stopProbe)
    (hquiet : s.nextValid = false → s.cursample.toNat + 2 * s.halfbit.toNat ≤ (raiseHorizon h s).horizon.toNat) :
    RowOutcome s (.quiet h) (replay (stopConfirmed (raiseHorizon h s)))
  | probeFailed (h : Sample) (hrun : s.running = true) (hphase : s.phase = .stopProbe) (hheld : s.nextValid = true) :
    RowOutcome s (.quiet h) (replay (raiseStopVerify (raiseHorizon h s)))

/-- QUIET at an open probe with no transition held: it waits, or the STOP is confirmed (R159). -/
theorem probeStep_raiseHorizon {s : State} (hempty : s.nextValid = false) (h : Sample) :
    probeStep (raiseHorizon h s) =
      if s.cursample.toNat + 2 * s.halfbit.toNat ≤ (raiseHorizon h s).horizon.toNat then stopConfirmed (raiseHorizon h s)
      else raiseHorizon h s := by
  have hprobe : probe (probeSamples (raiseHorizon h s)) (raiseHorizon h s) =
      if s.cursample.toNat + 2 * s.halfbit.toNat ≤ (raiseHorizon h s).horizon.toNat then .noCross else .wait :=
    probe_of_empty _ _ hempty
  by_cases hquiet : s.cursample.toNat + 2 * s.halfbit.toNat ≤ (raiseHorizon h s).horizon.toNat
  · rw [if_pos hquiet] at hprobe ⊢
    rw [probeStep, hprobe]
    exact replay_of_empty (stopConfirmed (raiseHorizon h s)) hempty
  · rw [if_neg hquiet] at hprobe ⊢
    rw [probeStep, hprobe]

theorem execQuiet_outcome (h : Sample) (s : State) : ∃ t, execQuiet h s = .next t ∧ RowOutcome s (.quiet h) t := by
  obtain ⟨hstopped, ht⟩ | ⟨hrun, hphase, ht⟩ | ⟨hrun, hphase, ht⟩ := execQuiet_cases h s
  · exact ⟨_, ht, .discarded _ nofun hstopped⟩
  · exact ⟨_, ht, .horizonRaised h hrun hphase⟩
  · refine ⟨_, ht, ?_⟩
    cases hheld : s.nextValid with
    | false =>
      rw [probeStep_raiseHorizon hheld]
      split
      · next hquiet =>
        rw [← replay_of_empty (stopConfirmed (raiseHorizon h s)) hheld]
        exact .probeConfirmed h hrun hphase fun _ => hquiet
      · next hwait => exact .probeWaits h hrun hphase fun _ => Nat.lt_of_not_le hwait
    | true =>
      obtain ⟨hprobe, -⟩ | ⟨-, hstep⟩ | ⟨-, hstep⟩ := probeStep_cases (raiseHorizon h s)
      · rw [probe_of_held _ (raiseHorizon h s) hheld] at hprobe
        split at hprobe <;> cases hprobe
      · rw [hstep]
        exact .probeConfirmed h hrun hphase (by simp [hheld])
      · rw [hstep]
        exact .probeFailed h hrun hphase hheld

theorem execEdge_outcome (e : Sample) (s : State) : ∃ t, execEdge e s = .next t ∧ RowOutcome s (.edge e) t := by
  obtain ⟨hstopped, ht⟩ | ⟨hrun, -, ht⟩ | ⟨haccepted, ht⟩ := execEdge_cases e s
  · exact ⟨_, ht, .discarded _ nofun hstopped⟩
  · exact ⟨_, ht, .outOfOrder e hrun⟩
  · exact ⟨_, ht, .accepted haccepted (acceptEdge_outcome e s)⟩

theorem execCfgWrite_outcome (n : BitVec 8) (v : Word64) (s : State) :
    ∃ t, execCfgWrite n v s = .next t ∧ RowOutcome s (.cfgWrite n v) t := by
  unfold execCfgWrite
  split
  · next t hwrite =>
    obtain ⟨r, hr, hw⟩ := Option.bind_eq_some_iff.mp hwrite
    obtain rfl := regNumber_of_regOfNumber n r hr
    obtain ⟨f, rfl, -⟩ := exists_configure_of_writeReg hw
    exact ⟨_, rfl, .configured r v f⟩
  · exact ⟨_, rfl, .malformed _ nofun⟩

theorem execRegRead_outcome (n : BitVec 8) (s : State) : ∃ t, execRegRead n s = .next t ∧ RowOutcome s (.regRead n) t := by
  unfold execRegRead
  split
  · next r hr =>
    obtain rfl := regNumber_of_regOfNumber n r hr
    exact ⟨_, rfl, .valueRead r⟩
  · exact ⟨_, rfl, .malformed _ nofun⟩

theorem execStart_outcome (s : State) : ∃ t, execStart s = .next t ∧ RowOutcome s .start t := by
  unfold execStart
  split
  · exact ⟨_, rfl, .refused⟩
  · next htiming => exact ⟨_, rfl, .begun htiming⟩

theorem execCancel_outcome (s : State) : ∃ t, execCancel s = .next t ∧ RowOutcome s .cancel t := by
  unfold execCancel
  split
  · next hrun => exact ⟨_, rfl, .cancelled hrun⟩
  · next hstopped => exact ⟨_, rfl, .discarded _ nofun (Bool.eq_false_iff.mpr hstopped)⟩

/-- An output-record row is emitted or malformed (46_output_records.md R240, 30_encoding.md R91). -/
theorem transmit_outcome (i : Instr) (hrow : i ≠ .start) (r : Record) (s : State) : RowOutcome s i (transmit r s) := by
  rw [transmit_eq]
  split
  · next hblock => exact .emitted i hrow hblock r
  · exact .malformed i hrow

theorem execRegValue_outcome (n : BitVec 8) (v : Word64) (s : State) :
    ∃ t, execRegValue n v s = .next t ∧ RowOutcome s (.regValue n v) t := by
  unfold execRegValue
  split
  · next r _ => exact ⟨_, rfl, transmit_outcome (.regValue n v) nofun (.regValue r v) s⟩
  · exact ⟨_, rfl, .malformed _ nofun⟩

/-- Every row answers a next state, one of the outcomes (70_reset_and_hazards.md R304). -/
theorem exec_outcome (i : Instr) (s : State) : ∃ t, exec i s = .next t ∧ RowOutcome s i t := by
  cases i
  case cfgWrite n v => exact execCfgWrite_outcome n v s
  case regRead n => exact execRegRead_outcome n s
  case start => exact execStart_outcome s
  case cancel => exact execCancel_outcome s
  case edge e => exact execEdge_outcome e s
  case quiet h => exact execQuiet_outcome h s
  case regValue n v => exact execRegValue_outcome n v s
  all_goals exact ⟨_, rfl, transmit_outcome _ (by simp) _ s⟩

theorem outcome_of_exec {i : Instr} {s t : State} (h : exec i s = .next t) : RowOutcome s i t := by
  obtain ⟨t', ht', houtcome⟩ := exec_outcome i s
  obtain rfl : t' = t := Host.Outcome.next.inj (ht'.symm.trans h)
  exact houtcome

/-- A step answers a next state: the same state, the reset state, an outcome of the decoded row, or the transaction discarded. -/
theorem step_outcome (s : State) :
    ∃ t, step s = .next t ∧
      (s.input = [] ∧ t = s ∨
        (∃ rest, s.input = .reset :: rest ∧ t = { State.reset with input := rest }) ∨
        (∃ tr rest i, s.input = .transaction tr :: rest ∧ decode tr = .ok i ∧
          RowOutcome { s with input := rest, issuer := .host } i t) ∨
        ∃ tr rest, s.input = .transaction tr :: rest ∧ t = discardMalformed { s with input := rest, issuer := .host }) := by
  obtain ⟨hin, hstep⟩ | ⟨rest, hin, hstep⟩ | ⟨tr, rest, i, hin, hdecode, hstep⟩ | ⟨tr, rest, err, hin, -, hstep⟩ := step_cases s
  · exact ⟨s, hstep, .inl ⟨hin, rfl⟩⟩
  · exact ⟨_, hstep, .inr (.inl ⟨rest, hin, rfl⟩)⟩
  · obtain ⟨t, ht, houtcome⟩ := exec_outcome i { s with input := rest, issuer := .host }
    exact ⟨t, hstep.trans ht, .inr (.inr (.inl ⟨tr, rest, i, hin, hdecode, houtcome⟩))⟩
  · exact ⟨_, hstep, .inr (.inr (.inr ⟨tr, rest, hin, rfl⟩))⟩

end Sys2Proof.Machine
end

