-- ==== Sys2Proof/Proofs/StopProbe.lean ====
section
/-! PROOF. The STOP probe (45_stop_detect.md R224 to R227) and what an accepted EDGE does in every phase (42_edge_input.md R153, R158):
the replay consumes the held transition in SCAN with an empty run, so it counts a `Half` or leaves no run. -/

namespace Sys2Proof.Machine

/-! ## The replay (42_edge_input.md R158) -/

/-- The rule of SCAN writes four fields (43_preamble_scan.md R171 to R174). -/
theorem scanEdge_frame (iv : Interval) (s : State) :
    ∃ (a c : Sample) (b : BitVec 32) (p : Phase),
      scanEdge iv s = { s with runStart := a, synccount := b, l5Start := c, phase := p } := by
  obtain h | ⟨h, -⟩ | h := scanEdge_cases iv s
  · exact ⟨_, _, _, _, h⟩
  · exact ⟨_, _, _, _, h⟩
  · exact ⟨_, _, _, _, h.trans (raiseInvalidStart_eq s)⟩

/-- The replay moves the cursor to the held transition, empties the lookahead, and writes what the rule of SCAN writes. -/
theorem replay_frame {s : State} (hheld : s.nextValid = true) :
    ∃ (a c : Sample) (b : BitVec 32) (p : Phase),
      replay s = { moveCursor s.nextSample s with nextValid := false, runStart := a, synccount := b, l5Start := c, phase := p } := by
  rw [replay_of_held s hheld]
  exact scanEdge_frame _ _

@[simp] theorem replay_pktseq (s : State) : (replay s).pktseq = s.pktseq := by
  cases hheld : s.nextValid with
  | false => rw [replay_of_empty s hheld]
  | true =>
    obtain ⟨_, _, _, _, h⟩ := replay_frame hheld
    rw [h]
    rfl

/-- With an empty run and a preamble to wait for, SCAN counts a `Half` and nothing else (43_preamble_scan.md R171, R173). -/
theorem scanEdge_of_empty_run {s : State} (hempty : s.synccount = 0#32) (hrsync : 1 ≤ s.rsync.toNat) (e : Sample) :
    scanEdge (intervalTo e s) (moveCursor e s) =
      if intervalIn 1 e s then countHalf (intervalTo e s) (moveCursor e s) else raiseInvalidStart (moveCursor e s) := by
  have hshort : ¬ 2 * s.rsync.toNat ≤ s.synccount.toNat := by
    rw [hempty]
    exact Nat.not_le.mpr (by simp; omega)
  rw [scanEdge_intervalTo, if_neg (c := intervalIn 5 e s ∧ _) fun hopen => hshort hopen.2.1]

/-- An interval beyond `2T` is no `Half`. -/
theorem intervalIn_one_eq_false {e : Sample} {s : State} (hlegal : TimingLegal s)
    (hbeyond : s.cursample.toNat + 2 * s.halfbit.toNat < e.toNat) : intervalIn 1 e s = false := by
  obtain ⟨-, -, -, htol, -⟩ := hlegal
  rw [Bool.eq_false_iff, ne_eq, intervalIn_iff]
  omega

/-- A confirmed STOP with the transition beyond the span: it closes no `Half`, so no run begins. -/
theorem replay_stopConfirmed_hold {e : Sample} {s : State} (hlegal : TimingLegal s)
    (hbeyond : s.cursample.toNat + 2 * s.halfbit.toNat < e.toNat) :
    replay (stopConfirmed (hold e s)) = { stopConfirmed (moveCursor e s) with nextValid := false, nextSample := e } := by
  obtain ⟨-, -, -, -, hrsync⟩ := id hlegal
  have hscan := scanEdge_of_empty_run (s := { stopConfirmed (hold e s) with nextValid := false }) rfl hrsync e
  rw [replay_of_held _ rfl]
  refine hscan.trans ((if_neg ?_).trans (raiseInvalidStart_eq _))
  exact Bool.eq_false_iff.mp (intervalIn_one_eq_false hlegal hbeyond)

/-- A failed STOP: the transition within the span begins a run at the probe base when it closes a `Half`, and leaves none otherwise. -/
theorem replay_raiseStopVerify_hold {e : Sample} {s : State} (hlegal : TimingLegal s) :
    replay (raiseStopVerify (hold e s)) =
      if intervalIn 1 e s then
        { raiseStopVerify (moveCursor e s) with nextValid := false, nextSample := e, runStart := s.cursample, synccount := 1#32 }
      else { raiseStopVerify (moveCursor e s) with nextValid := false, nextSample := e } := by
  obtain ⟨-, -, -, -, hrsync⟩ := hlegal
  have hscan := scanEdge_of_empty_run (s := { raiseStopVerify (hold e s) with nextValid := false }) rfl hrsync e
  rw [replay_of_held _ rfl]
  exact hscan.trans (if_congr Iff.rfl (countHalf_eq _ _) (raiseInvalidStart_eq _))

/-- A STOP confirmed by QUIET with nothing held leaves nothing to replay. -/
theorem replay_stopConfirmed_raiseHorizon {s : State} (hempty : s.nextValid = false) (h : Sample) :
    replay (stopConfirmed (raiseHorizon h s)) = stopConfirmed (raiseHorizon h s) :=
  replay_of_empty _ hempty

/-! ## The probe settled -/

/-- Settles O35: outside STOP_PROBE only the horizon is raised. -/
theorem quietRaisesTheHorizon : Obligations.QuietRaisesTheHorizon := by
  unfold Obligations.QuietRaisesTheHorizon
  intro s h hrun hphase
  rw [exec_quiet, execQuiet, if_pos hrun, if_neg hphase, raiseHorizon]

/-- Settles O36: with nothing held the probe answers by the raised horizon, and there is nothing to replay. -/
theorem quietSettlesTheProbe : Obligations.QuietSettlesTheProbe := by
  unfold Obligations.QuietSettlesTheProbe
  intro s h hrun hphase hempty hbase raised stopEnd
  have hprobe := probeStep_raiseHorizon hempty h
  rw [← hbase] at hprobe
  rw [exec_quiet, execQuiet, if_pos hrun, if_pos hphase, hprobe]
  refine congrArg Host.Outcome.next ?_
  by_cases hwait : raised.toNat < s.probeBase.toNat + 2 * s.halfbit.toNat
  · exact (if_neg (Nat.not_le.mpr hwait)).trans (if_pos hwait).symm
  · exact (if_pos (Nat.not_lt.mp hwait)).trans (if_neg hwait).symm

/-- Settles O37: beyond the span the STOP is confirmed, within it the verification fails; the replay is written out. -/
theorem edgeSettlesTheProbe : Obligations.EdgeSettlesTheProbe := by
  unfold Obligations.EdgeSettlesTheProbe
  intro s e haccepted hlegal hphase hbase stopEnd
  rw [exec_edge, execEdge_accepted e s haccepted, acceptEdge_in_stopProbe hphase, hbase]
  by_cases hbeyond : s.cursample.toNat + 2 * s.halfbit.toNat < e.toNat
  · rw [if_neg (Nat.not_le.mpr hbeyond), if_pos hbeyond, replay_stopConfirmed_hold hlegal hbeyond, ← hbase]
    rfl
  · rw [if_pos (Nat.not_lt.mp hbeyond), if_neg hbeyond, replay_raiseStopVerify_hold hlegal, ← hbase]
    split
    · rfl
    · rfl

/-- A QUIET that covers the probe confirms the STOP. -/
theorem exec_quiet_confirms {h : Sample} {s : State} (hrun : s.running = true) (hphase : s.phase = .stopProbe)
    (hempty : s.nextValid = false) (hcovers : s.cursample.toNat + 2 * s.halfbit.toNat ≤ h.toNat) :
    exec (.quiet h) s = .next (stopConfirmed (raiseHorizon h s)) := by
  have hraised : s.cursample.toNat + 2 * s.halfbit.toNat ≤ (raiseHorizon h s).horizon.toNat := by
    rw [raiseHorizon_horizon]
    split
    · exact hcovers
    · next hlater => exact hcovers.trans (Nat.not_lt.mp hlater)
  rw [exec_quiet, execQuiet, if_pos hrun, if_pos hphase, probeStep_raiseHorizon hempty, if_pos hraised]

/-- An EDGE beyond the probe confirms the STOP and is consumed in SCAN. -/
theorem exec_edge_confirms {e : Sample} {s : State} (haccepted : EdgeAccepted e s) (hlegal : TimingLegal s)
    (hphase : s.phase = .stopProbe) (hbeyond : s.cursample.toNat + 2 * s.halfbit.toNat < e.toNat) :
    exec (.edge e) s = .next { stopConfirmed (moveCursor e s) with nextValid := false, nextSample := e } := by
  rw [exec_edge, execEdge_accepted e s haccepted, acceptEdge_in_stopProbe hphase, if_neg (Nat.not_le.mpr hbeyond), replay_stopConfirmed_hold hlegal hbeyond]

/-! ## The fields no transition touches -/

/-- A state with every field that a transition or the probe can write put at its reset value: what is left is the configuration, the
latches, the interface status, the horizon and the model's own fields. -/
def fixedPart (s : State) : State :=
  { s with
    phase := .scan, bitidx := 0#4, synccount := 0#32, pktseq := 0#64, cursample := 0#64, curlevel := .low, runStart := 0#64,
    l5Start := 0#64, byteStart := 0#64, byteAcc := 0#8, lastDataEnd := 0#64, probeBase := 0#64, nextValid := false,
    nextSample := 0#64, out := [] }

/-- States with the same fixed part have the same latches, run flag and horizon, and the same events to come. -/
theorem fields_of_fixedPart_eq {s t : State} (h : fixedPart t = fixedPart s) :
    t.halfbit = s.halfbit ∧ t.tol = s.tol ∧ t.rsync = s.rsync ∧ t.invL = s.invL ∧ t.running = s.running ∧
      t.horizon = s.horizon ∧ t.input = s.input := by
  have hfield {α : Type} (f : State → α) : f (fixedPart t) = f (fixedPart s) := congrArg f h
  exact ⟨hfield (·.halfbit), hfield (·.tol), hfield (·.rsync), hfield (·.invL), hfield (·.running), hfield (·.horizon),
    hfield (·.input)⟩

theorem fixedPart_readBit (j : Nat) (e : Sample) (s : State) : fixedPart (readBit j e s) = fixedPart s := by
  unfold readBit
  split
  · rfl
  · rfl

theorem fixedPart_replay (s : State) : fixedPart (replay s) = fixedPart s := by
  cases hheld : s.nextValid with
  | false => rw [replay_of_empty s hheld]
  | true =>
    obtain ⟨_, _, _, _, h⟩ := replay_frame hheld
    rw [h]
    rfl

/-- No accepted EDGE writes the fixed part. -/
theorem EdgeOutcome.fixedPart_eq {e : Sample} {s t : State} (h : EdgeOutcome e s t) : fixedPart t = fixedPart s := by
  cases h
  case synchronized => exact fixedPart_readBit ..
  case bitRead | byteBegun => exact fixedPart_readBit ..
  case confirmed | unverified => exact fixedPart_replay ..
  all_goals rfl

/-- Every accepted EDGE moves the cursor to it once and inverts the level once (42_edge_input.md R153). -/
theorem EdgeOutcome.cursor_moved {e : Sample} {s t : State} (h : EdgeOutcome e s t) :
    t.cursample = e ∧ t.curlevel = otherLevel s.curlevel := by
  cases h
  case confirmed =>
    obtain ⟨_, _, _, _, h⟩ := replay_frame (s := stopConfirmed (hold e s)) rfl
    rw [h]
    exact ⟨rfl, rfl⟩
  case unverified =>
    obtain ⟨_, _, _, _, h⟩ := replay_frame (s := raiseStopVerify (hold e s)) rfl
    rw [h]
    exact ⟨rfl, rfl⟩
  case synchronized | bitRead | byteBegun => simp [syncSuccess]
  all_goals exact ⟨rfl, rfl⟩

/-- An empty lookahead is empty again after an accepted EDGE (10_state.md R44). -/
theorem EdgeOutcome.lookahead_empty {e : Sample} {s t : State} (h : EdgeOutcome e s t) (hempty : s.nextValid = false) :
    t.nextValid = false := by
  cases h
  case confirmed =>
    obtain ⟨_, _, _, _, h⟩ := replay_frame (s := stopConfirmed (hold e s)) rfl
    rw [h]
  case unverified =>
    obtain ⟨_, _, _, _, h⟩ := replay_frame (s := raiseStopVerify (hold e s)) rfl
    rw [h]
  case synchronized | bitRead | byteBegun => simpa [syncSuccess] using hempty
  all_goals exact hempty

/-- Settles O34: the cursor's move and the empty lookahead, then one field of the fixed part after the other. -/
theorem acceptedEdgeIsConsumedOnce : Obligations.AcceptedEdgeIsConsumedOnce := by
  unfold Obligations.AcceptedEdgeIsConsumedOnce
  intro s e haccepted hempty
  have houtcome := acceptEdge_outcome e s
  have hfixed := houtcome.fixedPart_eq
  obtain ⟨hcursor, hlevel⟩ := houtcome.cursor_moved
  obtain ⟨hrun, -, -⟩ := id haccepted
  have hfield {α : Type} (f : State → α) : f (fixedPart (acceptEdge e s)) = f (fixedPart s) := congrArg f hfixed
  refine ⟨acceptEdge e s, execEdge_accepted e s haccepted, hcursor, hlevel.trans (otherLevel_eq _), houtcome.lookahead_empty hempty,
    hfield (·.bitrate), hfield (·.samplerate), hfield (·.inverted), hfield (·.tolsel), hfield (·.syncbits), hfield (·.startSample),
    hfield (·.startLevel), hfield (·.halfbit), hfield (·.tol), hfield (·.rsync), hfield (·.invL), hfield (·.srL),
    (hfield (·.running)).trans hrun, hfield (·.badCmd), hfield (·.orderErr), hfield (·.cfgErr), hfield (·.horizon),
    hfield (·.input), hfield (·.issuer)⟩

end Sys2Proof.Machine
end

