-- ==== Sys2Proof/Proofs/Consistency.lean ====
section
/-! PROOF. The invariant of every state between two transactions: each phase asks for a few clauses only, so a state is consistent when
the clauses of its own phase hold, and every outcome of a step meets those of the phase it ends in. -/

namespace Sys2Proof.Machine

/-! ## The clauses phase by phase (10_state.md R32) -/

theorem consistent_in_scan {t : State} (hphase : t.phase = .scan) (hempty : t.nextValid = false)
    (htiming : t.running = true → TimingLegal t)
    (hrun : 0 < t.synccount.toNat →
      t.runStart.toNat + t.synccount.toNat * (t.halfbit.toNat - t.tol.toNat) ≤ t.cursample.toNat) : Consistent t where
  lookahead_empty := hempty
  timing := htiming
  bit_phase_index := by simp [hphase]
  stop_phase_index := by simp [hphase]
  byte_value := by simp [hphase]
  synced_run := by simp [hphase, phaseIsSynced]
  byte_start := by simp [hphase, phaseIsSynced]
  scan_run := fun _ => hrun
  start_run := by simp [hphase]
  start_next_span := by simp [hphase]
  start_half_span := by simp [hphase]
  probe_open := by simp [hphase]

theorem consistent_in_start {t : State} (hphase : t.phase = .startNext ∨ t.phase = .startHalf) (hempty : t.nextValid = false)
    (htiming : t.running = true → TimingLegal t)
    (hrun : 2 * t.rsync.toNat ≤ t.synccount.toNat ∧
      t.runStart.toNat + t.synccount.toNat * (t.halfbit.toNat - t.tol.toNat) ≤ t.l5Start.toNat)
    (hnext : t.phase = .startNext → t.l5Start.toNat + 5 * t.halfbit.toNat ≤ t.cursample.toNat + t.tol.toNat)
    (hhalf : t.phase = .startHalf → t.l5Start.toNat + 9 * t.halfbit.toNat ≤ t.cursample.toNat + 2 * t.tol.toNat) :
    Consistent t where
  lookahead_empty := hempty
  timing := htiming
  bit_phase_index := by rcases hphase with h | h <;> simp [h]
  stop_phase_index := by rcases hphase with h | h <;> simp [h]
  byte_value := by rcases hphase with h | h <;> simp [h]
  synced_run := by rcases hphase with h | h <;> simp [h, phaseIsSynced]
  byte_start := by rcases hphase with h | h <;> simp [h, phaseIsSynced]
  scan_run := by rcases hphase with h | h <;> simp [h]
  start_run := fun _ => hrun
  start_next_span := hnext
  start_half_span := hhalf
  probe_open := by rcases hphase with h | h <;> simp [h]

theorem consistent_in_byte {t : State} (hphase : t.phase = .bitFirst ∨ t.phase = .bitSecond) (hempty : t.nextValid = false)
    (htiming : t.running = true → TimingLegal t) (hindex : 1 ≤ t.bitidx.toNat ∧ t.bitidx.toNat ≤ 7)
    (hvalue : t.byteAcc.toNat < 2 ^ t.bitidx.toNat) (hcount : t.synccount = 0#32)
    (hstart : t.byteStart.toNat + t.halfbit.toNat ≤ t.cursample.toNat) : Consistent t where
  lookahead_empty := hempty
  timing := htiming
  bit_phase_index := fun _ => hindex
  stop_phase_index := by rcases hphase with h | h <;> simp [h]
  byte_value := fun _ => hvalue
  synced_run := fun _ => hcount
  byte_start := fun _ => hstart
  scan_run := by rcases hphase with h | h <;> simp [h]
  start_run := by rcases hphase with h | h <;> simp [h]
  start_next_span := by rcases hphase with h | h <;> simp [h]
  start_half_span := by rcases hphase with h | h <;> simp [h]
  probe_open := by rcases hphase with h | h <;> simp [h]

theorem consistent_in_stop {t : State} (hphase : t.phase = .stopFirst ∨ t.phase = .stopSecond ∨ t.phase = .stopProbe)
    (hempty : t.nextValid = false) (htiming : t.running = true → TimingLegal t) (hindex : t.bitidx.toNat = 8)
    (hcount : t.synccount = 0#32) (hstart : t.byteStart.toNat + t.halfbit.toNat ≤ t.cursample.toNat)
    (hprobe : t.phase = .stopProbe → t.probeBase = t.cursample ∧ t.horizon.toNat < t.cursample.toNat + 2 * t.halfbit.toNat) :
    Consistent t where
  lookahead_empty := hempty
  timing := htiming
  bit_phase_index := by rcases hphase with h | h | h <;> simp [h]
  stop_phase_index := fun _ => hindex
  byte_value := by rcases hphase with h | h | h <;> simp [h]
  synced_run := fun _ => hcount
  byte_start := fun _ => hstart
  scan_run := by rcases hphase with h | h | h <;> simp [h]
  start_run := by rcases hphase with h | h | h <;> simp [h]
  start_next_span := by rcases hphase with h | h | h <;> simp [h]
  start_half_span := by rcases hphase with h | h | h <;> simp [h]
  probe_open := hprobe

theorem phaseIsSynced_of_byte {p : Phase} (h : p = .bitFirst ∨ p = .bitSecond) : phaseIsSynced p = true :=
  (phaseIsSynced_iff p).mpr (h.imp_right .inl)

theorem phaseIsSynced_of_stop {p : Phase} (h : p = .stopFirst ∨ p = .stopSecond ∨ p = .stopProbe) : phaseIsSynced p = true :=
  (phaseIsSynced_iff p).mpr (.inr (.inr h))

/-! ## What the invariant does not read -/

/-- A state with every field the invariant does not read put at its reset value. -/
def decoderPart (s : State) : State :=
  { s with
    bitrate := 0#32, samplerate := 0#32, inverted := false, tolsel := 0#2, syncbits := 0#16, startSample := 0#64,
    startLevel := .low, invL := false, srL := 0#32, badCmd := false, orderErr := false, cfgErr := false, pktseq := 0#64,
    curlevel := .low, lastDataEnd := 0#64, nextSample := 0#64, out := [], input := [], issuer := .host }

theorem consistent_decoderPart_iff (s : State) : Consistent (decoderPart s) ↔ Consistent s :=
  ⟨fun ⟨h1, h2, h3, h4, h5, h6, h7, h8, h9, h10, h11, h12⟩ => ⟨h1, h2, h3, h4, h5, h6, h7, h8, h9, h10, h11, h12⟩,
    fun ⟨h1, h2, h3, h4, h5, h6, h7, h8, h9, h10, h11, h12⟩ => ⟨h1, h2, h3, h4, h5, h6, h7, h8, h9, h10, h11, h12⟩⟩

theorem Consistent.of_decoderPart_eq {s t : State} (hs : Consistent s) (h : decoderPart t = decoderPart s) : Consistent t := by
  rwa [← consistent_decoderPart_iff, h, consistent_decoderPart_iff]

/-- An abandoned run leaves the phase and its fields as they stand (40_control.md R107). -/
theorem Consistent.abandonRun {s : State} (hs : Consistent s) : Consistent (abandonRun s) :=
  { hs with lookahead_empty := rfl, timing := nofun }

/-- Outside STOP_PROBE no clause reads the horizon. -/
theorem Consistent.raiseHorizon {s : State} (hs : Consistent s) {h : Sample}
    (hprobe : s.phase = .stopProbe → (raiseHorizon h s).horizon.toNat < s.cursample.toNat + 2 * s.halfbit.toNat) :
    Consistent (raiseHorizon h s) :=
  { hs with probe_open := fun hphase => ⟨(hs.probe_open hphase).1, hprobe hphase⟩ }

/-! ## START (40_control.md R106) -/

theorem consistent_beginRun {br sr : BitVec 32} {ts : BitVec 2} {tm : Timing} (h : deriveTiming br sr ts = some tm) (s : State) :
    Consistent (beginRun tm s) :=
  consistent_in_scan rfl rfl (fun _ => timingLegal_beginRun h s) fun hcount => absurd hcount (lt_irrefl 0)

/-! ## Synchronization (43_preamble_scan.md R178) -/

/-- R178: where a synchronization can happen the run is at least 2 samples long, and the synchronization point lies at least `7T + 3`
after L5_START: the spans of the START symbol add up, each at least its window's lower bound. -/
theorem sync_spans {e : Sample} {s : State} (hs : Consistent s) (haccepted : EdgeAccepted e s)
    (hsync : s.phase = .startNext ∧ intervalIn 5 e s = true ∨ s.phase = .startHalf ∧ intervalIn 1 e s = true) :
    s.runStart.toNat + 2 ≤ s.l5Start.toNat ∧ s.l5Start.toNat + 7 * s.halfbit.toNat + 3 ≤ e.toNat := by
  obtain ⟨hrun, -, -⟩ := haccepted
  obtain ⟨-, -, -, htol, hrsync⟩ := hs.timing hrun
  have hphase : s.phase = .startNext ∨ s.phase = .startHalf := hsync.imp And.left And.left
  obtain ⟨hcount, hfit⟩ := hs.start_run hphase
  have hlong : 2 * 1 ≤ s.synccount.toNat * (s.halfbit.toNat - s.tol.toNat) := Nat.mul_le_mul (by omega) (by omega)
  refine ⟨by omega, ?_⟩
  obtain ⟨hnext, hlong5⟩ | ⟨hhalf, hone⟩ := hsync
  · have hspan := hs.start_next_span hnext
    rw [intervalIn_iff] at hlong5
    omega
  · have hspan := hs.start_half_span hhalf
    rw [intervalIn_iff] at hone
    omega

/-- Settles O42: the spans of the START lookahead. -/
theorem startLookaheadSpansAreNonEmpty : Obligations.StartLookaheadSpansAreNonEmpty := by
  unfold Obligations.StartLookaheadSpansAreNonEmpty
  intro s e hs haccepted hsync
  exact sync_spans hs haccepted hsync

/-- The counted run takes one more `Half`, and still fits before the cursor (43_preamble_scan.md R172). -/
theorem counted_run_fits {e : Sample} {s : State} (hs : Consistent s) (hphase : s.phase = .scan)
    (hcursor : s.cursample.toNat < e.toNat) (hhalf : intervalIn 1 e s = true) :
    (countHalf (intervalTo e s) (moveCursor e s)).runStart.toNat +
      (countHalf (intervalTo e s) (moveCursor e s)).synccount.toNat * (s.halfbit.toNat - s.tol.toNat) ≤ e.toNat := by
  rw [intervalIn_iff] at hhalf
  have hcount : (sat32 (s.synccount.toNat + 1)).toNat ≤ s.synccount.toNat + 1 := by
    rw [sat32_succ_toNat]
    exact Nat.min_le_left _ _
  have hfit := Nat.mul_le_mul_right (s.halfbit.toNat - s.tol.toNat) hcount
  rw [Nat.succ_mul] at hfit
  show (if s.synccount = 0#32 then s.cursample else s.runStart).toNat +
    (sat32 (s.synccount.toNat + 1)).toNat * (s.halfbit.toNat - s.tol.toNat) ≤ e.toNat
  split
  · next hempty =>
    have hzero : s.synccount.toNat = 0 := by simp [hempty]
    rw [hzero] at hfit ⊢
    omega
  · next hrun =>
    have hpos : 0 < s.synccount.toNat := Nat.pos_of_ne_zero fun h0 => hrun (BitVec.eq_of_toNat_eq h0)
    have hspan := hs.scan_run hphase hpos
    omega

/-! ## Reading bits (44_byte_decode.md R201, R203) -/

/-- The bit shifted in at bit `j` keeps the byte below `2^j`. -/
theorem shiftIn_lt {acc : Byte} {j : Nat} (h : acc.toNat < 2 ^ j) (b : Bool) : (shiftIn acc b).toNat < 2 ^ (j + 1) := by
  rw [shiftIn_toNat]
  have hb : b.toNat ≤ 1 := Bool.toNat_le b
  have hmod := Nat.mod_le (2 * acc.toNat + b.toNat) 256
  rw [Nat.pow_succ]
  omega

/-- BYTE_START is T before the first decision edge, without wrap. -/
theorem trunc64_sub_toNat {e : Sample} {n : Nat} (h : n ≤ e.toNat) : (trunc64 ((e.toNat : Int) - n)).toNat = e.toNat - n := by
  have := e.isLt
  rw [trunc64_toNat _ (by omega) (by omega)]
  omega

/-- Bit 1 opens a byte: it needs only T samples before the edge. -/
theorem consistent_readBit_one {e : Sample} {s : State} (hcursor : s.cursample = e) (hempty : s.nextValid = false)
    (htiming : s.running = true → TimingLegal s) (hcount : s.synccount = 0#32) (hroom : s.halfbit.toNat ≤ e.toNat) :
    Consistent (readBit 1 e s) := by
  refine consistent_in_byte (.inl (readBit_phase 1 e s)) (by simpa using hempty) (by simpa [TimingLegal] using htiming)
    (by simp [readBit_bitidx]) ?value (by simpa using hcount) ?start
  case value =>
    rw [readBit_byteAcc, readBit_bitidx]
    exact shiftIn_lt (j := 0) (by simp) (bitValue s)
  case start =>
    rw [readBit_byteStart, if_pos rfl, trunc64_sub_toNat hroom, readBit_halfbit, readBit_cursample, hcursor]
    omega

/-- The next bit of an open byte: up to bit 7 the byte goes on, at bit 8 STOP detection begins. -/
theorem consistent_readBit_succ {e : Sample} {s : State} (hcursor : s.cursample = e) (hempty : s.nextValid = false)
    (htiming : s.running = true → TimingLegal s) (hcount : s.synccount = 0#32)
    (hindex : 1 ≤ s.bitidx.toNat ∧ s.bitidx.toNat ≤ 7) (hvalue : s.byteAcc.toNat < 2 ^ s.bitidx.toNat)
    (hstart : s.byteStart.toNat + s.halfbit.toNat ≤ e.toNat) :
    Consistent (readBit (s.bitidx.toNat + 1) e s) := by
  have hnext : s.bitidx.toNat + 1 ≠ 1 := by omega
  have hidx : (readBit (s.bitidx.toNat + 1) e s).bitidx.toNat = s.bitidx.toNat + 1 := by
    rw [readBit_bitidx, BitVec.toNat_ofNat, Nat.mod_eq_of_lt (by omega)]
  have hkept : (readBit (s.bitidx.toNat + 1) e s).byteStart.toNat + (readBit (s.bitidx.toNat + 1) e s).halfbit.toNat ≤
      (readBit (s.bitidx.toNat + 1) e s).cursample.toNat := by
    rwa [readBit_byteStart, if_neg hnext, readBit_halfbit, readBit_cursample, hcursor]
  by_cases hlast : s.bitidx.toNat + 1 < 8
  · refine consistent_in_byte (.inl (by rw [readBit_phase, if_pos hlast])) (by simpa using hempty)
      (by simpa [TimingLegal] using htiming) (by omega) ?_ (by simpa using hcount) hkept
    rw [readBit_byteAcc, if_neg hnext, hidx]
    exact shiftIn_lt hvalue (bitValue s)
  · have hphase : (readBit (s.bitidx.toNat + 1) e s).phase = .stopFirst := by rw [readBit_phase, if_neg hlast]
    exact consistent_in_stop (.inl hphase) (by simpa using hempty) (by simpa [TimingLegal] using htiming) (by omega)
      (by simpa using hcount) hkept (by simp [hphase])

/-! ## Every outcome -/

/-- An accepted EDGE leaves a consistent state consistent. -/
theorem EdgeOutcome.consistent {e : Sample} {s t : State} (h : EdgeOutcome e s t) (hs : Consistent s) (haccepted : EdgeAccepted e s) :
    Consistent t := by
  have hempty := hs.lookahead_empty
  have htiming := hs.timing
  obtain ⟨hrun, hcursor, hhorizon⟩ := id haccepted
  have hlegal := htiming hrun
  obtain ⟨-, -, -, htol, hrsync⟩ := id hlegal
  cases h
  case counted hphase hhalf => exact consistent_in_scan hphase hempty htiming fun _ => counted_run_fits hs hphase hcursor hhalf
  case opened hphase hlong5 hcount =>
    rw [intervalIn_iff] at hlong5
    exact consistent_in_start (.inl rfl) hempty htiming ⟨hcount, hs.scan_run hphase (by omega)⟩ (fun _ => hlong5.1) nofun
  case cleared => exact consistent_in_scan rfl hempty htiming fun hpos => absurd hpos (lt_irrefl 0)
  case startContinued hphase hlong4 =>
    have hspan := hs.start_next_span hphase
    rw [intervalIn_iff] at hlong4
    refine consistent_in_start (.inr rfl) hempty htiming (hs.start_run (.inl hphase)) nofun fun _ => ?_
    show s.l5Start.toNat + 9 * s.halfbit.toNat ≤ e.toNat + 2 * s.tol.toNat
    omega
  case synchronized hsync =>
    obtain ⟨-, hpoint⟩ := sync_spans hs haccepted hsync
    refine consistent_readBit_one rfl hempty htiming rfl ?_
    show s.halfbit.toNat ≤ e.toNat
    omega
  case invalid => exact consistent_in_scan rfl hempty htiming fun hpos => absurd hpos (lt_irrefl 0)
  case bitHalved hphase =>
    have hsynced := phaseIsSynced_of_byte (.inl hphase)
    exact consistent_in_byte (.inr rfl) hempty htiming (hs.bit_phase_index (.inl hphase)) (hs.byte_value (.inl hphase))
      (hs.synced_run hsynced) ((hs.byte_start hsynced).trans hcursor.le)
  case bitRead hphase =>
    have hsynced := phaseIsSynced_of_byte hphase
    exact consistent_readBit_succ (s := moveCursor e s) rfl hempty htiming (hs.synced_run hsynced) (hs.bit_phase_index hphase)
      (hs.byte_value hphase) ((hs.byte_start hsynced).trans hcursor.le)
  case stopHalved hphase hhalf =>
    have hsynced := phaseIsSynced_of_stop (.inl hphase)
    exact consistent_in_stop (.inr (.inl rfl)) hempty htiming (hs.stop_phase_index (.inl hphase)) (hs.synced_run hsynced)
      ((hs.byte_start hsynced).trans hcursor.le) nofun
  case byteBegun hphase =>
    have hsynced := phaseIsSynced_of_stop (hphase.imp_right .inl)
    have hstart := hs.byte_start hsynced
    refine consistent_readBit_one rfl hempty htiming (hs.synced_run hsynced) ?_
    show s.halfbit.toNat ≤ e.toNat
    omega
  case candidate hlong =>
    have hphase : s.phase = .stopFirst ∨ s.phase = .stopSecond ∨ s.phase = .stopProbe :=
      hlong.imp And.left fun h => .inl h.1
    have hsynced := phaseIsSynced_of_stop hphase
    refine consistent_in_stop (.inr (.inr rfl)) hempty htiming (hs.stop_phase_index hphase) (hs.synced_run hsynced)
      ((hs.byte_start hsynced).trans hcursor.le) fun _ => ⟨rfl, ?_⟩
    show s.horizon.toNat < e.toNat + 2 * s.halfbit.toNat
    omega
  case confirmed hphase hbeyond =>
    rw [replay_stopConfirmed_hold hlegal hbeyond]
    exact consistent_in_scan rfl rfl htiming fun hpos => absurd hpos (lt_irrefl 0)
  case unverified hphase hwithin =>
    rw [replay_raiseStopVerify_hold hlegal]
    split
    · next hhalf =>
      rw [intervalIn_iff] at hhalf
      refine consistent_in_scan rfl rfl htiming fun _ => ?_
      show s.cursample.toNat + 1 * (s.halfbit.toNat - s.tol.toNat) ≤ e.toNat
      omega
    · exact consistent_in_scan rfl rfl htiming fun hpos => absurd hpos (lt_irrefl 0)

/-- So does every row. -/
theorem RowOutcome.consistent {i : Instr} {s t : State} (h : RowOutcome s i t) (hs : Consistent s) : Consistent t := by
  cases h
  case configured | valueRead | malformed | emitted => exact hs.of_decoderPart_eq rfl
  case discarded => exact hs
  case refused => exact hs.abandonRun.of_decoderPart_eq rfl
  case begun htiming => exact consistent_beginRun htiming _
  case cancelled => exact hs.abandonRun
  case outOfOrder => exact hs.abandonRun.of_decoderPart_eq rfl
  case accepted haccepted hedge => exact hedge.consistent hs haccepted
  case horizonRaised hphase => exact hs.raiseHorizon fun hprobe => absurd hprobe hphase
  case probeWaits hwait => exact hs.raiseHorizon fun _ => hwait hs.lookahead_empty
  case probeConfirmed =>
    rw [replay_stopConfirmed_raiseHorizon hs.lookahead_empty]
    exact consistent_in_scan rfl hs.lookahead_empty hs.timing fun hpos => absurd hpos (lt_irrefl 0)
  case probeFailed hheld => exact absurd hheld (by simp [hs.lookahead_empty])

/-- Settles O15: every clause is about the phase SCAN with nothing counted, or about a run, and OUT is empty. -/
theorem resetIsConsistent : Obligations.ResetIsConsistent := by
  unfold Obligations.ResetIsConsistent
  exact ⟨consistent_in_scan rfl rfl nofun fun hpos => absurd hpos (lt_irrefl 0), rfl⟩

theorem step_consistent {s t : State} (hs : Consistent s) (hstep : step s = .next t) : Consistent t := by
  obtain ⟨t', ht', hcases⟩ := step_outcome s
  obtain rfl : t' = t := Host.Outcome.next.inj (ht'.symm.trans hstep)
  obtain ⟨-, rfl⟩ | ⟨rest, -, rfl⟩ | ⟨tr, rest, i, -, -, houtcome⟩ | ⟨tr, rest, -, rfl⟩ := hcases
  · exact hs
  · exact resetIsConsistent.1.of_decoderPart_eq rfl
  · exact houtcome.consistent (hs.of_decoderPart_eq rfl)
  · exact hs.of_decoderPart_eq rfl

/-- Settles O16: the outcomes of a step, each consistent in the phase it ends in. -/
theorem stepKeepsConsistency : Obligations.StepKeepsConsistency := by
  unfold Obligations.StepKeepsConsistency
  intro s t hs hstep
  exact step_consistent hs hstep

/-- Settles O19: an accepted EDGE moves the cursor forward, and no other row but START moves it. -/
theorem cursorNeverGoesBack : Obligations.CursorNeverGoesBack := by
  unfold Obligations.CursorNeverGoesBack
  intro i s t hs hrow hexec
  cases outcome_of_exec hexec
  case refused | begun => exact absurd rfl hrow
  case accepted e haccepted hedge =>
    obtain ⟨-, hcursor, -⟩ := haccepted
    rw [hedge.cursor_moved.1]
    exact hcursor.le
  case probeConfirmed =>
    rw [replay_stopConfirmed_raiseHorizon hs.lookahead_empty]
    exact le_rfl
  case probeFailed hheld => exact absurd hheld (by simp [hs.lookahead_empty])
  all_goals exact le_rfl

end Sys2Proof.Machine
end

