-- ==== Sys2Proof/Proofs/BitReading.lean ====
section
/-! PROOF. READ_BIT (44_byte_decode.md R201 to R206) and the synchronization that reads the first bit (43_preamble_scan.md R177), each as
an equation to the state it leaves. -/

namespace Sys2Proof.Machine

/-! ## One bit (44_byte_decode.md R202, R203) -/

/-- A bit is 1 exactly at ONE_LEVEL of the latched polarity. -/
theorem bitValue_eq (s : State) : bitValue s = decide (s.curlevel = if s.invL then .high else .low) := by
  rw [Bool.eq_iff_iff, decide_eq_true_iff, bitValue_iff, oneLevel_eq]

/-- The bit shifted in is bit 0, and every other bit moves up by one place. -/
theorem shiftIn_getLsbD (acc : Byte) (b : Bool) {i : Nat} (hi : i < 8) :
    (shiftIn acc b).getLsbD i = if i = 0 then b else acc.getLsbD (i - 1) := by
  rw [shiftIn, BitVec.getLsbD_extractLsb', BitVec.getLsbD_append]
  cases i with
  | zero => simp
  | succ i => simp [hi]

/-- Shifting in is a left shift with the bit put into the low end. -/
theorem shiftIn_eq (acc : Byte) (b : Bool) : shiftIn acc b = acc <<< 1 ||| (if b then 1#8 else 0#8) := by
  refine BitVec.eq_of_getLsbD_eq fun i hi => ?_
  rw [shiftIn_getLsbD acc b hi, BitVec.getLsbD_or, BitVec.getLsbD_shiftLeft]
  cases i with
  | zero => cases b <;> rfl
  | succ i => cases b <;> simp [hi]

/-- Settles O45: each bit moves up one place for every bit shifted in after it. -/
theorem firstBitBecomesBitSeven : Obligations.FirstBitBecomesBitSeven := by
  unfold Obligations.FirstBitBecomesBitSeven
  intro b1 b2 b3 b4 b5 b6 b7 b8
  simp only [List.foldl_cons, List.foldl_nil, shiftIn_getLsbD, Nat.reduceLT, Nat.reduceSub, reduceIte, OfNat.ofNat_ne_zero,
    one_ne_zero, and_self]

/-- READ_BIT up to the question whether the byte is complete, with the bit written out. -/
theorem takeBit_eq (j : Nat) (e : Sample) (s : State) :
    let isOne := s.curlevel = (if s.invL then .high else .low)
    takeBit j e s =
      { s with
        out := s.out ++ [.marker (if isOne then .one else .zero) e],
        byteStart := if j = 1 then trunc64 ((e.toNat : Int) - s.halfbit.toNat) else s.byteStart,
        byteAcc := (if j = 1 then 0#8 else s.byteAcc <<< 1) ||| (if isOne then 1#8 else 0#8),
        bitidx := BitVec.ofNat 4 j } := by
  intro isOne
  have hbit : (bitValue s = true) = isOne := by rw [bitValue_eq, decide_eq_true_iff]
  have hshift : (if j = 1 then 0#8 else s.byteAcc) <<< 1 = if j = 1 then 0#8 else s.byteAcc <<< 1 := by
    split
    · rfl
    · rfl
  simp only [takeBit, shiftIn_eq, hbit, hshift]

/-- Settles O43: before the eighth bit only the phase is added. -/
theorem readingABitShiftsItIn : Obligations.ReadingABitShiftsItIn := by
  unfold Obligations.ReadingABitShiftsItIn
  intro s j e _ hlt isOne
  rw [readBit_of_lt j e s hlt, takeBit_eq]

/-- Settles O44: at the eighth bit the Data frame follows the marker. -/
theorem eighthBitEmitsTheDataFrame : Obligations.EighthBitEmitsTheDataFrame := by
  unfold Obligations.EighthBitEmitsTheDataFrame
  intro s e isOne byte dataEnd
  rw [readBit_of_ge 8 e s le_rfl, takeBit_eq]
  simp only [dataComplete, frameRecords, List.append_assoc, List.cons_append, List.nil_append]
  rfl

/-! ## Synchronization (43_preamble_scan.md R177 to R179) -/

/-- A run that ended after it began has a rate estimate (R179). -/
theorem rateEstimate_of_run (n : Nat) {s : State} (hrun : s.runStart.toNat < s.l5Start.toNat) :
    rateEstimate n s = BitVec.ofNat 64 (s.srL.toNat * n / (s.l5Start.toNat - s.runStart.toNat)) := by
  rw [rateEstimate, if_pos hrun, trunc64_natCast]

/-- The records of a synchronization: two frames with their commits, the Start marker and the first bit's. -/
theorem syncSuccess_out (pf : Sample) (s : State) :
    (syncSuccess pf s).out = s.out ++
      (syncFrameRecords s ++ startFrameRecords pf (s.pktseq + 1#64) s ++
        [.marker .start pf, .marker (if bitValue s then .one else .zero) pf]) := by
  have hbit : bitValue (synchronize pf s) = bitValue s := rfl
  rw [syncSuccess, readBit_out, hbit]
  simp

/-- Settles O41: the synchronization and the first bit, with the rate estimate of a run that is not empty. -/
theorem synchronizationEmitsEightRecords : Obligations.SynchronizationEmitsEightRecords := by
  unfold Obligations.SynchronizationEmitsEightRecords
  intro s pf hrun n syncEnd startEnd rate isOne
  have hrecords : syncFrameRecords s ++ startFrameRecords pf (s.pktseq + 1#64) s ++ [.marker .start pf] =
      [.frame .sync s.runStart syncEnd (BitVec.ofNat 64 n) rate 0#32, .commit, .progress syncEnd,
        .frame .start (trunc64 ((s.l5Start.toNat : Int) + s.halfbit.toNat)) startEnd (s.pktseq + 1#64) 0#64 0#32, .commit,
        .progress startEnd, .marker .start pf] := by
    rw [syncFrameRecords, rateEstimate_of_run _ hrun]
    rfl
  rw [syncSuccess, readBit_of_lt 1 pf _ (by omega), takeBit_eq]
  simp only [synchronize, hrecords, if_pos, BitVec.zero_or, List.append_assoc, List.cons_append, List.nil_append]
  rfl

end Sys2Proof.Machine
end

