-- ==== Sys2Proof/Proofs/Emissions.lean ====
section
/-! PROOF. What a row can append to OUT, said once (46_output_records.md R240 to R251): nothing, a register value, or one of the six
groups of records of the decoder. The statements about OUT, the packet number and the ErrorDots go by these groups. -/

namespace Sys2Proof.Machine

/-- The marker of a bit (44_byte_decode.md R201). -/
def bitMarker (b : Bool) (e : Sample) : Record := .marker (if b then .one else .zero) e

/-- The groups of records a row can append from `s` to `t`, with what becomes of the packet number. -/
inductive Emission (s t : State) : List Record → Prop
  | silent (hnumber : t.pktseq = s.pktseq) : Emission s t []
  | value (hnumber : t.pktseq = s.pktseq) (r : Reg) (v : Word64) : Emission s t [.regValue r v]
  | bit (hnumber : t.pktseq = s.pktseq) (b : Bool) (e : Sample) : Emission s t [bitMarker b e]
  | byte (hnumber : t.pktseq = s.pktseq) (b : Bool) (e c d : Sample) (p : Word64) :
    Emission s t (bitMarker b e :: frameRecords .data c d p 0#64)
  | packet (hnumber : t.pktseq = s.pktseq + 1#64) (a b c d : Sample) (n rate : Word64) (one : Bool) (e : Sample) :
    Emission s t
      (frameRecords .sync a b n rate ++ frameRecords .start c d (s.pktseq + 1#64) 0#64 ++ [.marker .start e, bitMarker one e])
  | stop (hnumber : t.pktseq = s.pktseq) (a b c : Sample) :
    Emission s t (frameRecords .stop a b 0#64 0#64 ++ [.marker .stop c])
  | error (hnumber : t.pktseq = s.pktseq) (e : Sample) (hplace : e = t.cursample ∨ s.phase = .stopProbe ∧ e = s.probeBase)
    (hscan : Consistent s → t.phase = .scan ∧ t.synccount.toNat ≤ 1 ∧ t.running = true) : Emission s t [.marker .errorDot e]

/-- Reading a bit appends its marker, and at the eighth bit the Data frame. -/
theorem emission_readBit (j : Nat) (e : Sample) (s : State) :
    ∃ recs, (readBit j e (moveCursor e s)).out = s.out ++ recs ∧ Emission s (readBit j e (moveCursor e s)) recs := by
  have hnumber : (readBit j e (moveCursor e s)).pktseq = s.pktseq := readBit_pktseq ..
  refine ⟨_, readBit_out .., ?_⟩
  by_cases hj : j < 8
  · rw [if_pos hj]
    exact .bit hnumber _ e
  · rw [if_neg hj]
    exact .byte hnumber _ e _ _ _

/-- A failed verification is reported at the probe base, and the replay counts at most one `Half`. -/
theorem emission_unverified {e : Sample} {s : State} (haccepted : EdgeAccepted e s) (hphase : s.phase = .stopProbe) :
    Emission s (replay (raiseStopVerify (hold e s))) [.marker .errorDot s.probeBase] := by
  refine .error (by simp) _ (.inr ⟨hphase, rfl⟩) fun hs => ?_
  rw [replay_raiseStopVerify_hold (hs.timing haccepted.1)]
  split
  · exact ⟨rfl, le_rfl, haccepted.1⟩
  · exact ⟨rfl, zero_le_one, haccepted.1⟩

/-- What an accepted EDGE appends. -/
theorem EdgeOutcome.emission {e : Sample} {s t : State} (h : EdgeOutcome e s t) (haccepted : EdgeAccepted e s) :
    ∃ recs, t.out = s.out ++ recs ∧ Emission s t recs := by
  obtain ⟨hrun, -, -⟩ := id haccepted
  cases h
  case synchronized =>
    have hnumber : (syncSuccess e (moveCursor e s)).pktseq = s.pktseq + 1#64 := readBit_pktseq ..
    exact ⟨_, syncSuccess_out .., .packet hnumber _ _ _ _ _ _ _ e⟩
  case invalid => exact ⟨_, raiseInvalidInterval_out .., .error (by simp) e (.inl (by simp)) fun _ => by simp [hrun]⟩
  case bitRead | byteBegun => exact emission_readBit ..
  case confirmed => exact ⟨_, (replay_out _).trans (stopConfirmed_out _), .stop (by simp) _ _ _⟩
  case unverified hphase _ => exact ⟨_, (replay_out _).trans (raiseStopVerify_out _), emission_unverified haccepted hphase⟩
  all_goals exact ⟨[], by simp, .silent (by simp)⟩

/-- What a row driven by the host appends, START apart: that one appends nothing but restarts the packet number. -/
theorem RowOutcome.emission {i : Instr} {s t : State} (h : RowOutcome s i t) (hrow : i ≠ .start) (hhost : s.issuer = .host) :
    ∃ recs, t.out = s.out ++ recs ∧ Emission s t recs := by
  cases h
  case configured f => exact ⟨[], (List.append_nil _).symm, .silent (show (configure f s).pktseq = s.pktseq from rfl)⟩
  case valueRead r => exact ⟨_, emit_out .., .value (by simp) r _⟩
  case emitted => exact absurd (hhost.symm.trans ‹s.issuer = .block›) nofun
  case refused | begun => exact absurd rfl hrow
  case accepted haccepted hedge => exact hedge.emission haccepted
  case probeConfirmed => exact ⟨_, (replay_out _).trans (stopConfirmed_out _), .stop (by simp) _ _ _⟩
  case probeFailed hphase hheld =>
    refine ⟨_, (replay_out _).trans (raiseStopVerify_out _), .error (by simp) _ (.inr ⟨hphase, rfl⟩) fun hs => ?_⟩
    simp [hs.lookahead_empty] at hheld
  all_goals exact ⟨[], by simp, .silent (by simp)⟩

/-- START appends nothing. -/
theorem RowOutcome.out_of_start {s t : State} (h : RowOutcome s .start t) : t.out = s.out := by
  cases h
  case refused | begun => rfl
  all_goals exact absurd rfl ‹Instr.start ≠ Instr.start›

/-! ## The bound on a step (R251) -/

theorem Emission.length_le {s t : State} {recs : List Record} (h : Emission s t recs) : recs.length ≤ 8 := by
  cases h <;> simp [frameRecords]

/-- A row driven by the host appends at most 8 records. -/
theorem RowOutcome.out_grows {i : Instr} {s t : State} (h : RowOutcome s i t) (hhost : s.issuer = .host) :
    ∃ recs : List Record, t.out = s.out ++ recs ∧ recs.length ≤ 8 := by
  by_cases hrow : i = .start
  · subst hrow
    exact ⟨[], by rw [h.out_of_start, List.append_nil], Nat.zero_le 8⟩
  · obtain ⟨recs, hout, hrecs⟩ := h.emission hrow hhost
    exact ⟨recs, hout, hrecs.length_le⟩

/-- Settles O14: the outcomes of a step; all but a reset keep OUT and append at most the 8 records of a synchronization. -/
theorem everyStepEndsWithAtMostEightRecords : Obligations.EveryStepEndsWithAtMostEightRecords := by
  unfold Obligations.EveryStepEndsWithAtMostEightRecords
  intro s
  obtain ⟨t, hstep, hcases⟩ := step_outcome s
  refine ⟨t, hstep, ?_⟩
  obtain ⟨hin, rfl⟩ | ⟨rest, hin, rfl⟩ | ⟨tr, rest, i, hin, -, houtcome⟩ | ⟨tr, rest, hin, rfl⟩ := hcases
  · exact .inr ⟨by simp [hin], [], (List.append_nil _).symm, Nat.zero_le 8⟩
  · exact .inl ⟨rest, hin, rfl⟩
  · exact .inr ⟨by simp [hin], houtcome.out_grows rfl⟩
  · exact .inr ⟨by simp [hin], [], (List.append_nil _).symm, Nat.zero_le 8⟩

/-! ## The commit discipline (R241, R243) -/

/-- Two sequences that keep the discipline keep it one after the other. -/
theorem commitDiscipline_append {l r : List Record} (hl : commitDiscipline l = true) (hr : commitDiscipline r = true) :
    commitDiscipline (l ++ r) = true := by
  induction l using commitDiscipline.induct with
  | case1 => exact hr
  | case2 k a b p q f e' rest ih =>
    simp only [commitDiscipline, Bool.and_eq_true] at hl
    simp only [List.cons_append, commitDiscipline, Bool.and_eq_true]
    exact ⟨hl.1, ih hl.2⟩
  | case3 k a rest ih => exact ih hl
  | case4 g v rest ih => exact ih hl
  | case5 k a b p q f rest hshape => simp [commitDiscipline] at hl
  | case6 rest => simp [commitDiscipline] at hl
  | case7 e rest => simp [commitDiscipline] at hl

theorem Emission.commitDiscipline {s t : State} {recs : List Record} (h : Emission s t recs) : commitDiscipline recs = true := by
  cases h <;> simp [Machine.commitDiscipline, frameRecords, bitMarker]

theorem RowOutcome.commitDiscipline {i : Instr} {s t : State} (h : RowOutcome s i t) (hhost : s.issuer = .host)
    (hs : commitDiscipline s.out = true) : commitDiscipline t.out = true := by
  by_cases hrow : i = .start
  · subst hrow
    rwa [h.out_of_start]
  · obtain ⟨recs, hout, hrecs⟩ := h.emission hrow hhost
    rw [hout]
    exact commitDiscipline_append hs hrecs.commitDiscipline

/-- Settles O17: every group of records keeps the discipline by itself, and so does OUT with it at the end. -/
theorem stepKeepsCommitDiscipline : Obligations.StepKeepsCommitDiscipline := by
  unfold Obligations.StepKeepsCommitDiscipline
  intro s t hs hstep
  obtain ⟨t', ht', hcases⟩ := step_outcome s
  obtain rfl : t' = t := Host.Outcome.next.inj (ht'.symm.trans hstep)
  obtain ⟨-, rfl⟩ | ⟨rest, -, rfl⟩ | ⟨tr, rest, i, -, -, houtcome⟩ | ⟨tr, rest, -, rfl⟩ := hcases
  · exact hs
  · rfl
  · exact houtcome.commitDiscipline rfl hs
  · exact hs

/-! ## The packet number (43_preamble_scan.md R180) -/

/-- Settles O20: the packet group is the only one with a Start frame, and the only one that counts. -/
theorem packetNumberRisesOnlyWithAStartFrame : Obligations.PacketNumberRisesOnlyWithAStartFrame := by
  unfold Obligations.PacketNumberRisesOnlyWithAStartFrame
  intro i s t hrow hhost hexec
  obtain ⟨recs, hout, hrecs⟩ := (outcome_of_exec hexec).emission hrow hhost
  refine ⟨recs, hout, ?_⟩
  cases hrecs
  case packet hnumber a b c d n rate one e => exact .inr ⟨hnumber, c, d, rfl⟩
  all_goals exact .inl ⟨‹_›, rfl⟩

/-! ## ErrorDots (60_exceptions.md R262, R263, R268) -/

/-- Settles O21: the error group is the only one with an ErrorDot, and it has nothing else. -/
theorem anErrorDotEndsInScan : Obligations.AnErrorDotEndsInScan := by
  unfold Obligations.AnErrorDotEndsInScan
  intro i s t recs e hs hhost hexec hout hmem
  have houtcome := outcome_of_exec hexec
  have hne : recs ≠ [] := List.ne_nil_of_mem hmem
  have hrow : i ≠ .start := by
    rintro rfl
    rw [houtcome.out_of_start] at hout
    exact hne (List.self_eq_append_right.mp hout)
  obtain ⟨recs', hout', hrecs⟩ := houtcome.emission hrow hhost
  obtain rfl : recs = recs' := List.append_cancel_left (hout.symm.trans hout')
  cases hrecs
  case error hnumber e' hplace hscan =>
    obtain rfl : e = e' := by simpa using hmem
    obtain ⟨hphase, hcount, hrun⟩ := hscan hs
    exact ⟨rfl, hphase, hcount, hrun, hplace⟩
  case silent => exact absurd rfl hne
  case value => simp at hmem
  case bit b _ => cases b <;> simp [bitMarker] at hmem
  case byte b _ _ _ _ => cases b <;> simp [bitMarker, frameRecords] at hmem
  case packet one _ => cases one <;> simp [bitMarker, frameRecords] at hmem
  case stop => simp [frameRecords] at hmem

/-! ## The sticky bits (70_reset_and_hazards.md R290) -/

/-- No row clears BAD_CMD or ORDER_ERR. -/
theorem RowOutcome.sticky {i : Instr} {s t : State} (h : RowOutcome s i t) :
    (s.badCmd = true → t.badCmd = true) ∧ (s.orderErr = true → t.orderErr = true) := by
  cases h
  case malformed => exact ⟨fun _ => rfl, id⟩
  case outOfOrder => exact ⟨id, fun _ => rfl⟩
  case accepted hedge =>
    have hfixed := hedge.fixedPart_eq
    exact ⟨(congrArg State.badCmd hfixed).trans, (congrArg State.orderErr hfixed).trans⟩
  case probeConfirmed h _ _ _ =>
    have hfixed := fixedPart_replay (stopConfirmed (raiseHorizon h s))
    exact ⟨(congrArg State.badCmd hfixed).trans, (congrArg State.orderErr hfixed).trans⟩
  case probeFailed h _ _ _ =>
    have hfixed := fixedPart_replay (raiseStopVerify (raiseHorizon h s))
    exact ⟨(congrArg State.badCmd hfixed).trans, (congrArg State.orderErr hfixed).trans⟩
  all_goals exact ⟨id, id⟩

/-- Settles O18: a wait, a row and a discarded transaction keep both bits. -/
theorem onlyResetClearsTheStickyBits : Obligations.OnlyResetClearsTheStickyBits := by
  unfold Obligations.OnlyResetClearsTheStickyBits
  intro s t hstep hnoreset
  obtain ⟨t', ht', hcases⟩ := step_outcome s
  obtain rfl : t' = t := Host.Outcome.next.inj (ht'.symm.trans hstep)
  obtain ⟨-, rfl⟩ | ⟨rest, hin, -⟩ | ⟨tr, rest, i, -, -, houtcome⟩ | ⟨tr, rest, -, rfl⟩ := hcases
  · exact ⟨id, id⟩
  · exact absurd hin (hnoreset rest)
  · exact houtcome.sticky
  · exact ⟨fun _ => rfl, id⟩

end Sys2Proof.Machine
end

