-- ==== Sys2Proof/Proofs/OutputRecords.lean ====
section
/-! PROOF. The output-record rows by the driving side (46_output_records.md R240 to R248, 30_encoding.md R91), and what of OUT a
consumer may rely on (20_memory.md R69). -/

namespace Sys2Proof.Machine

/-! ## The driving side -/

/-- The block's own record is appended (R240). -/
theorem transmit_of_block {s : State} (hblock : s.issuer = .block) (r : Record) :
    transmit r s = { s with out := s.out ++ [r] } := by
  rw [transmit_eq, if_pos hblock, emit]

/-- The host's record is malformed (30_encoding.md R91). -/
theorem transmit_of_host {s : State} (hhost : s.issuer = .host) (r : Record) : transmit r s = { s with badCmd := true } := by
  rw [transmit_eq, if_neg (by simp [hhost]), discardMalformed]

/-- Settles O50: each FRAME row transmits its record. -/
theorem blockEmitsFrames : Obligations.BlockEmitsFrames := by
  unfold Obligations.BlockEmitsFrames
  intro s a b p q f hblock
  have hemit (r : Record) := congrArg (Host.Outcome.next (φ := Fault) (ρ := Refusal)) (transmit_of_block hblock r)
  exact ⟨hemit _, hemit _, hemit _, hemit _⟩

/-- Settles O51: each MARKER row transmits its record. -/
theorem blockEmitsMarkers : Obligations.BlockEmitsMarkers := by
  unfold Obligations.BlockEmitsMarkers
  intro s a hblock
  have hemit (r : Record) := congrArg (Host.Outcome.next (φ := Fault) (ρ := Refusal)) (transmit_of_block hblock r)
  exact ⟨hemit _, hemit _, hemit _, hemit _, hemit _⟩

/-- REG_VALUE of an assigned register transmits its record (R248). -/
theorem exec_regValue_regNumber (r : Reg) (v : Word64) (s : State) :
    exec (.regValue (regNumber r) v) s = .next (transmit (.regValue r v) s) := by
  simp [exec, execRegValue]

/-- Settles O52: COMMIT, PROGRESS and REG_VALUE of an assigned register transmit their record. -/
theorem blockEmitsCommitProgressAndValues : Obligations.BlockEmitsCommitProgressAndValues := by
  unfold Obligations.BlockEmitsCommitProgressAndValues
  intro s a r v hblock
  have hemit (r : Record) := congrArg (Host.Outcome.next (φ := Fault) (ρ := Refusal)) (transmit_of_block hblock r)
  exact ⟨hemit _, hemit _, (exec_regValue_regNumber r v s).trans (hemit _)⟩

/-- Settles O53: the host's record is malformed in each of the twelve rows, a REG_VALUE of no register included. -/
theorem hostCannotInjectRecords : Obligations.HostCannotInjectRecords := by
  unfold Obligations.HostCannotInjectRecords
  intro s i hhost hrecord
  have hdiscard (r : Record) := congrArg (Host.Outcome.next (φ := Fault) (ρ := Refusal)) (transmit_of_host hhost r)
  cases i
  case cfgWrite | regRead | start | cancel | edge | quiet => cases hrecord
  case regValue n v =>
    show execRegValue n v s = _
    unfold execRegValue
    split
    · exact hdiscard _
    · rfl
  all_goals exact hdiscard _

/-! ## What a COMMIT publishes (20_memory.md R69) -/

/-- Without a COMMIT nothing is published. -/
theorem published_of_no_commit {l : List Record} (h : Record.commit ∉ l) : published l = [] := by
  induction l with
  | nil => rfl
  | cons r rest ih =>
    have hrest : Record.commit ∉ rest := fun hmem => h (List.mem_cons_of_mem r hmem)
    simp [published, hrest, ih hrest]

/-- Before a COMMIT every FRAME and MARKER is published; behind it, what later COMMITs publish. -/
theorem published_append_commit (l later : List Record) :
    published (l ++ .commit :: later) = l.filter needsCommit ++ published later := by
  induction l with
  | nil => rfl
  | cons r rest ih =>
    have hmem : (rest ++ .commit :: later).contains .commit = true := by simp
    rw [List.cons_append, published, hmem, ih, List.filter_cons]
    cases needsCommit r
    · rfl
    · rfl

/-- Settles O54: behind the COMMIT nothing is published, and before it the FRAMEs and MARKERs are. -/
theorem commitPublishesWhatStandsBefore : Obligations.CommitPublishesWhatStandsBefore := by
  unfold Obligations.CommitPublishesWhatStandsBefore
  intro out later hlater
  rw [List.append_assoc, List.singleton_append, published_append_commit, published_of_no_commit hlater, List.append_nil]
  refine List.filter_congr fun r _ => ?_
  cases r
  · rfl
  · rfl
  · rfl
  · rfl
  · rfl

/-- What is published of the rest is published of the whole. -/
theorem mem_published_cons {r x : Record} {rest : List Record} (h : x ∈ published rest) : x ∈ published (r :: rest) := by
  rw [published]
  split
  · exact List.mem_cons_of_mem r h
  · exact h

/-- A FRAME followed by its COMMIT is published. -/
theorem frame_mem_published {x y : Record} {rest : List Record} (hx : needsCommit x = true) :
    x ∈ published (x :: .commit :: y :: rest) := by
  simp [published, hx]

/-- Settles O55: a FRAME has its COMMIT behind it, and no record before it takes that away. -/
theorem everyFrameIsPublished : Obligations.EveryFrameIsPublished := by
  unfold Obligations.EveryFrameIsPublished
  intro out k a b p q f hdiscipline hmem
  induction out using commitDiscipline.induct with
  | case1 => simp at hmem
  | case2 k' a' b' p' q' f' e' rest ih =>
    simp only [commitDiscipline, Bool.and_eq_true] at hdiscipline
    obtain hhere | hrest := List.mem_cons.mp hmem
    · rw [hhere]
      exact frame_mem_published rfl
    · have hin : Record.frame k a b p q f ∈ rest := by simpa using hrest
      exact mem_published_cons (mem_published_cons (mem_published_cons (ih hdiscipline.2 hin)))
  | case3 k' a' rest ih => exact mem_published_cons (ih hdiscipline (by simpa using hmem))
  | case4 g v rest ih => exact mem_published_cons (ih hdiscipline (by simpa using hmem))
  | case5 k' a' b' p' q' f' rest hshape => simp [commitDiscipline] at hdiscipline
  | case6 rest => simp [commitDiscipline] at hdiscipline
  | case7 e' rest => simp [commitDiscipline] at hdiscipline

end Sys2Proof.Machine
end

