-- ==== Sys2Proof/Proofs/FrameOrder.lean ====
section
/-! PROOF. The order of the frames of one run (46_output_records.md R249). The frames already emitted lie before the next one: how far
before is a bound of the phase the decoder is in. Each phase asks for its own bound only, and every outcome of a step gives the bound of
the phase it ends in. -/

namespace Sys2Proof.Machine

/-! ## The frames since the run began -/

/-- The spans of the frames that stand in OUT behind its first `n` records. -/
abbrev spansSince (n : Nat) (s : State) : List (Nat × Nat) := frameSpans (s.out.drop n)

/-- Every frame of a list lies before a frame that begins at `a` and ends at `b`. -/
def SpansBelow (spans : List (Nat × Nat)) (a b : Nat) : Prop := ∀ f ∈ spans, f.1 < a ∧ f.2 < b

theorem SpansBelow.mono {spans : List (Nat × Nat)} {a b a' b' : Nat} (h : SpansBelow spans a b) (ha : a ≤ a') (hb : b ≤ b') :
    SpansBelow spans a' b' :=
  fun f hf => ⟨(h f hf).1.trans_le ha, (h f hf).2.trans_le hb⟩

/-- What the invariant says of OUT itself: the frames of the run rise, and none ends before it starts. -/
structure SpansOrdered (n : Nat) (out : List Record) : Prop where
  grown : n ≤ out.length
  rise : SpansRise (frameSpans (out.drop n))
  nonempty : ∀ f ∈ frameSpans (out.drop n), f.1 ≤ f.2

theorem FramesOrdered.spansOrdered {n : Nat} {s : State} (h : FramesOrdered n s) : SpansOrdered n s.out :=
  ⟨h.grown, h.rise, h.nonempty⟩

theorem frameSpans_drop_append {n : Nat} {out : List Record} (hn : n ≤ out.length) (recs : List Record) :
    frameSpans ((out ++ recs).drop n) = frameSpans (out.drop n) ++ frameSpans recs := by
  rw [List.drop_append_of_le_length hn, frameSpans, List.filterMap_append]
  rfl

/-- Records without a frame add no span. -/
theorem frameSpans_drop_append_silent {n : Nat} {out recs : List Record} (hn : n ≤ out.length) (hsilent : frameSpans recs = []) :
    frameSpans ((out ++ recs).drop n) = frameSpans (out.drop n) := by
  rw [frameSpans_drop_append hn, hsilent, List.append_nil]

theorem SpansOrdered.append_silent {n : Nat} {out recs : List Record} (h : SpansOrdered n out) (hsilent : frameSpans recs = []) :
    SpansOrdered n (out ++ recs) := by
  refine ⟨by simpa using h.grown.trans (Nat.le_add_right _ _), ?_, ?_⟩
  · rw [frameSpans_drop_append_silent h.grown hsilent]
    exact h.rise
  · rw [frameSpans_drop_append_silent h.grown hsilent]
    exact h.nonempty

/-- The frames of the run are in order, and a frame that begins at `a` and ends at `b` is beyond all of them. -/
structure RoomFor (n : Nat) (out : List Record) (a b : Nat) : Prop where
  ordered : SpansOrdered n out
  below : SpansBelow (frameSpans (out.drop n)) a b

theorem RoomFor.mono {n : Nat} {out : List Record} {a b a' b' : Nat} (h : RoomFor n out a b) (ha : a ≤ a') (hb : b ≤ b') :
    RoomFor n out a' b' :=
  ⟨h.ordered, h.below.mono ha hb⟩

theorem RoomFor.append_silent {n : Nat} {out recs : List Record} {a b : Nat} (h : RoomFor n out a b)
    (hsilent : frameSpans recs = []) : RoomFor n (out ++ recs) a b :=
  ⟨h.ordered.append_silent hsilent, by rw [frameSpans_drop_append_silent h.ordered.grown hsilent]; exact h.below⟩

/-- A frame emitted where there is room for it leaves room beyond it. -/
theorem RoomFor.append_frame {n : Nat} {out recs : List Record} {a b a' b' : Nat} (h : RoomFor n out a b)
    (hrecs : frameSpans recs = [(a, b)]) (hab : a ≤ b) (ha : a < a') (hb : b < b') : RoomFor n (out ++ recs) a' b' := by
  have hspans : frameSpans ((out ++ recs).drop n) = frameSpans (out.drop n) ++ [(a, b)] := by
    rw [frameSpans_drop_append h.ordered.grown, hrecs]
  refine ⟨⟨by simpa using h.ordered.grown.trans (Nat.le_add_right _ _), ?rise, ?nonempty⟩, ?below⟩
  case rise =>
    rw [hspans, SpansRise, List.pairwise_append]
    exact ⟨h.ordered.rise, List.pairwise_singleton _ _, fun f hf g hg => by rw [List.mem_singleton.mp hg]; exact h.below f hf⟩
  case nonempty =>
    rw [hspans]
    exact List.forall_mem_append.mpr ⟨h.ordered.nonempty, List.forall_mem_singleton.mpr hab⟩
  case below =>
    rw [hspans]
    exact List.forall_mem_append.mpr ⟨h.below.mono ha.le hb.le, List.forall_mem_singleton.mpr ⟨ha, hb⟩⟩

/-! ## The bound phase by phase -/

theorem ordered_in_scan {n : Nat} {t : State} (hphase : t.phase = .scan) (hspans : SpansOrdered n t.out)
    (hrange : t.cursample.toNat < 2 ^ 63 ∧ t.horizon.toNat < 2 ^ 63)
    (hidle : t.synccount.toNat = 0 → ∀ f ∈ spansSince n t,
      f.1 < t.cursample.toNat ∧
        (f.2 < t.cursample.toNat + t.halfbit.toNat ∨
          f.2 ≤ t.horizon.toNat ∧ t.cursample.toNat + 2 * t.halfbit.toNat ≤ t.horizon.toNat))
    (hrun : 0 < t.synccount.toNat → SpansBelow (spansSince n t) t.runStart.toNat (t.runStart.toNat + t.halfbit.toNat)) :
    FramesOrdered n t where
  grown := hspans.grown
  rise := hspans.rise
  nonempty := hspans.nonempty
  in_range := hrange
  before_run := fun _ => hidle
  in_run := fun h => hrun (by simpa [hphase] using h)
  in_byte := by simp [hphase]
  after_byte := by simp [hphase]
  stop_first_end := by simp [hphase]
  stop_second_end := by simp [hphase]
  stop_probe_end := by simp [hphase]

theorem ordered_in_start {n : Nat} {t : State} (hphase : t.phase = .startNext ∨ t.phase = .startHalf) (hspans : SpansOrdered n t.out)
    (hrange : t.cursample.toNat < 2 ^ 63 ∧ t.horizon.toNat < 2 ^ 63)
    (hrun : SpansBelow (spansSince n t) t.runStart.toNat (t.runStart.toNat + t.halfbit.toNat)) : FramesOrdered n t where
  grown := hspans.grown
  rise := hspans.rise
  nonempty := hspans.nonempty
  in_range := hrange
  before_run := by rcases hphase with h | h <;> simp [h]
  in_run := fun _ => hrun
  in_byte := by rcases hphase with h | h <;> simp [h]
  after_byte := by rcases hphase with h | h <;> simp [h]
  stop_first_end := by rcases hphase with h | h <;> simp [h]
  stop_second_end := by rcases hphase with h | h <;> simp [h]
  stop_probe_end := by rcases hphase with h | h <;> simp [h]

theorem ordered_in_byte {n : Nat} {t : State} (hphase : t.phase = .bitFirst ∨ t.phase = .bitSecond) (hspans : SpansOrdered n t.out)
    (hrange : t.cursample.toNat < 2 ^ 63 ∧ t.horizon.toNat < 2 ^ 63)
    (hbyte : SpansBelow (spansSince n t) t.byteStart.toNat (t.cursample.toNat + t.halfbit.toNat)) : FramesOrdered n t where
  grown := hspans.grown
  rise := hspans.rise
  nonempty := hspans.nonempty
  in_range := hrange
  before_run := by rcases hphase with h | h <;> simp [h]
  in_run := by rcases hphase with h | h <;> simp [h]
  in_byte := fun _ => hbyte
  after_byte := by rcases hphase with h | h <;> simp [h]
  stop_first_end := by rcases hphase with h | h <;> simp [h]
  stop_second_end := by rcases hphase with h | h <;> simp [h]
  stop_probe_end := by rcases hphase with h | h <;> simp [h]

theorem ordered_in_stop {n : Nat} {t : State} (hphase : t.phase = .stopFirst ∨ t.phase = .stopSecond ∨ t.phase = .stopProbe)
    (hspans : SpansOrdered n t.out) (hrange : t.cursample.toNat < 2 ^ 63 ∧ t.horizon.toNat < 2 ^ 63)
    (hlast : t.byteStart.toNat + 2 * t.halfbit.toNat ≤ t.lastDataEnd.toNat ∧
      ∀ f ∈ spansSince n t, f.1 ≤ t.byteStart.toNat ∧ f.2 ≤ t.lastDataEnd.toNat)
    (hfirst : t.phase = .stopFirst → t.lastDataEnd.toNat = t.cursample.toNat + t.halfbit.toNat)
    (hsecond : t.phase = .stopSecond → t.lastDataEnd.toNat ≤ t.cursample.toNat + t.tol.toNat)
    (hprobe : t.phase = .stopProbe → t.lastDataEnd.toNat + 4 * t.halfbit.toNat ≤ t.cursample.toNat + 2 * t.tol.toNat) :
    FramesOrdered n t where
  grown := hspans.grown
  rise := hspans.rise
  nonempty := hspans.nonempty
  in_range := hrange
  before_run := by rcases hphase with h | h | h <;> simp [h]
  in_run := by rcases hphase with h | h | h <;> simp [h]
  in_byte := by rcases hphase with h | h | h <;> simp [h]
  after_byte := fun _ => hlast
  stop_first_end := hfirst
  stop_second_end := hsecond
  stop_probe_end := hprobe

/-! ## What the invariant does not read -/

/-- A state with every field the invariant does not read put at its reset value. -/
def orderPart (s : State) : State :=
  { State.reset with
    halfbit := s.halfbit, tol := s.tol, phase := s.phase, synccount := s.synccount, cursample := s.cursample, runStart := s.runStart,
    byteStart := s.byteStart, lastDataEnd := s.lastDataEnd, horizon := s.horizon, out := s.out }

theorem framesOrdered_orderPart_iff (n : Nat) (s : State) : FramesOrdered n (orderPart s) ↔ FramesOrdered n s :=
  ⟨fun ⟨h1, h2, h3, h4, h5, h6, h7, h8, h9, h10, h11⟩ => ⟨h1, h2, h3, h4, h5, h6, h7, h8, h9, h10, h11⟩,
    fun ⟨h1, h2, h3, h4, h5, h6, h7, h8, h9, h10, h11⟩ => ⟨h1, h2, h3, h4, h5, h6, h7, h8, h9, h10, h11⟩⟩

theorem FramesOrdered.of_orderPart_eq {n : Nat} {s t : State} (hs : FramesOrdered n s) (h : orderPart t = orderPart s) :
    FramesOrdered n t := by
  rwa [← framesOrdered_orderPart_iff, h, framesOrdered_orderPart_iff]

/-- A record that is no frame changes nothing the invariant speaks of. -/
theorem FramesOrdered.emit {n : Nat} {s : State} (hs : FramesOrdered n s) {r : Record} (hsilent : frameSpans [r] = []) :
    FramesOrdered n (emit r s) := by
  have hspans := frameSpans_drop_append_silent hs.grown hsilent
  have hordered := hs.spansOrdered.append_silent hsilent
  exact
    { grown := hordered.grown
      rise := hordered.rise
      nonempty := hordered.nonempty
      in_range := hs.in_range
      before_run := by simp only [emit_out, hspans]; exact hs.before_run
      in_run := by simp only [emit_out, hspans]; exact hs.in_run
      in_byte := by simp only [emit_out, hspans]; exact hs.in_byte
      after_byte := by simp only [emit_out, hspans]; exact hs.after_byte
      stop_first_end := hs.stop_first_end
      stop_second_end := hs.stop_second_end
      stop_probe_end := hs.stop_probe_end }

/-- A raised horizon in range keeps every bound: only the frame of a STOP that QUIET confirmed is bounded by it. -/
theorem FramesOrdered.raiseHorizon {n : Nat} {s : State} (hs : FramesOrdered n s) {h : Sample} (hh : h.toNat < 2 ^ 63) :
    FramesOrdered n (raiseHorizon h s) := by
  have hraised : s.horizon.toNat ≤ (Machine.raiseHorizon h s).horizon.toNat ∧
      (Machine.raiseHorizon h s).horizon.toNat < 2 ^ 63 := by
    rw [raiseHorizon_horizon]
    have hrange := hs.in_range.2
    split
    · next hlt => exact ⟨hlt.le, hh⟩
    · exact ⟨le_rfl, hrange⟩
  refine { hs with in_range := ⟨hs.in_range.1, hraised.2⟩, before_run := fun hphase hcount f hf => ?_ }
  obtain ⟨hstart, hend⟩ := hs.before_run hphase hcount f hf
  exact ⟨hstart, hend.imp_right fun ⟨h1, h2⟩ => ⟨h1.trans hraised.1, h2.trans hraised.1⟩⟩

/-! ## The frames before an accepted EDGE -/

/-- In SCAN and the START lookahead the next Sync frame begins at RUN_START. -/
theorem FramesOrdered.room_in_run {n : Nat} {s : State} (ho : FramesOrdered n s)
    (hphase : s.phase = .scan ∧ 0 < s.synccount.toNat ∨ s.phase = .startNext ∨ s.phase = .startHalf) :
    RoomFor n s.out s.runStart.toNat (s.runStart.toNat + s.halfbit.toNat) :=
  ⟨ho.spansOrdered, ho.in_run hphase⟩

/-- In a byte the next Data frame begins at BYTE_START. -/
theorem FramesOrdered.room_in_byte {n : Nat} {s : State} (ho : FramesOrdered n s)
    (hphase : s.phase = .bitFirst ∨ s.phase = .bitSecond) :
    RoomFor n s.out s.byteStart.toNat (s.cursample.toNat + s.halfbit.toNat) :=
  ⟨ho.spansOrdered, ho.in_byte hphase⟩

/-- In STOP detection the next frame begins and ends beyond the last Data frame. -/
theorem FramesOrdered.room_after_byte {n : Nat} {s : State} (ho : FramesOrdered n s)
    (hphase : s.phase = .stopFirst ∨ s.phase = .stopSecond ∨ s.phase = .stopProbe) :
    RoomFor n s.out (s.byteStart.toNat + 1) (s.lastDataEnd.toNat + 1) :=
  ⟨ho.spansOrdered, fun f hf => by have := (ho.after_byte hphase).2 f hf; omega⟩

/-- In STOP detection the last Data frame ends less than T beyond the cursor. -/
theorem FramesOrdered.lastDataEnd_le {n : Nat} {s : State} (ho : FramesOrdered n s) (hlegal : TimingLegal s)
    (hphase : s.phase = .stopFirst ∨ s.phase = .stopSecond ∨ s.phase = .stopProbe) :
    s.lastDataEnd.toNat ≤ s.cursample.toNat + s.halfbit.toNat := by
  obtain ⟨-, -, -, htol, -⟩ := hlegal
  obtain h | h | h := hphase
  · exact (ho.stop_first_end h).le
  · have := ho.stop_second_end h
    omega
  · have := ho.stop_probe_end h
    omega

/-- In every phase a frame from the accepted EDGE on, ending T later or beyond, lies beyond all frames so far. -/
theorem FramesOrdered.room_at_edge {n : Nat} {e : Sample} {s : State} (ho : FramesOrdered n s) (hs : Consistent s)
    (haccepted : EdgeAccepted e s) : RoomFor n s.out e.toNat (e.toNat + s.halfbit.toNat) := by
  obtain ⟨hrun, hcursor, hhorizon⟩ := haccepted
  have hlegal := hs.timing hrun
  obtain ⟨-, -, -, htol, hrsync⟩ := id hlegal
  cases hphase : s.phase
  case scan =>
    obtain hidle | hcount := Nat.eq_zero_or_pos s.synccount.toNat
    · refine ⟨ho.spansOrdered, fun f hf => ?_⟩
      have := ho.before_run hphase hidle f hf
      omega
    · have hspan := hs.scan_run hphase hcount
      exact (ho.room_in_run (.inl ⟨hphase, hcount⟩)).mono (by omega) (by omega)
  case startNext =>
    have hspan := hs.start_run (.inl hphase)
    have hnext := hs.start_next_span hphase
    exact (ho.room_in_run (.inr (.inl hphase))).mono (by omega) (by omega)
  case startHalf =>
    have hspan := hs.start_run (.inr hphase)
    have hhalf := hs.start_half_span hphase
    exact (ho.room_in_run (.inr (.inr hphase))).mono (by omega) (by omega)
  case bitFirst =>
    have hstart := hs.byte_start (phaseIsSynced_of_byte (.inl hphase))
    exact (ho.room_in_byte (.inl hphase)).mono (by omega) (by omega)
  case bitSecond =>
    have hstart := hs.byte_start (phaseIsSynced_of_byte (.inr hphase))
    exact (ho.room_in_byte (.inr hphase)).mono (by omega) (by omega)
  case stopFirst | stopSecond | stopProbe =>
    have hstop : s.phase = .stopFirst ∨ s.phase = .stopSecond ∨ s.phase = .stopProbe := by simp [hphase]
    have hstart := hs.byte_start (phaseIsSynced_of_stop hstop)
    have hlast := ho.lastDataEnd_le hlegal hstop
    exact (ho.room_after_byte hstop).mono (by omega) (by omega)

/-! ## The phases an EDGE can lead to -/

/-- SCAN with nothing counted, entered at the cursor. -/
theorem ordered_of_cleared {n : Nat} {t : State} (hphase : t.phase = .scan) (hcount : t.synccount = 0#32)
    (hrange : t.cursample.toNat < 2 ^ 63 ∧ t.horizon.toNat < 2 ^ 63)
    (hroom : RoomFor n t.out t.cursample.toNat (t.cursample.toNat + t.halfbit.toNat)) : FramesOrdered n t :=
  ordered_in_scan hphase hroom.ordered hrange (fun _ f hf => ⟨(hroom.below f hf).1, .inl (hroom.below f hf).2⟩) fun hpos => by
    simp [hcount] at hpos

/-- Bit 1 of a byte, read at the cursor. -/
theorem ordered_readBit_one {n : Nat} {e : Sample} {s : State} (hcursor : s.cursample = e)
    (hrange : e.toNat < 2 ^ 63 ∧ s.horizon.toNat < 2 ^ 63) (hbefore : s.halfbit.toNat ≤ e.toNat)
    (hroom : RoomFor n s.out (e.toNat - s.halfbit.toNat) (e.toNat + s.halfbit.toNat)) : FramesOrdered n (readBit 1 e s) := by
  have hout : (readBit 1 e s).out = s.out ++ [bitMarker (bitValue s) e] := readBit_out 1 e s
  have hstart : (readBit 1 e s).byteStart.toNat = e.toNat - s.halfbit.toNat := by
    rw [readBit_byteStart, if_pos rfl, trunc64_sub_toNat hbefore]
  have hmarked := hroom.append_silent (recs := [bitMarker (bitValue s) e]) rfl
  refine ordered_in_byte (.inl (readBit_phase 1 e s)) ?_ ?_ ?_
  · rw [hout]
    exact hmarked.ordered
  · rwa [readBit_cursample, readBit_horizon, hcursor]
  · rw [spansSince, hout, hstart, readBit_cursample, readBit_halfbit, hcursor]
    exact hmarked.below

/-- A further bit of a byte, read at the cursor: up to bit 7 only a marker, at bit 8 the Data frame from BYTE_START to T beyond the
cursor. -/
theorem ordered_readBit_succ {n j : Nat} {e : Sample} {s : State} (hj : j ≠ 1) (hcursor : s.cursample = e)
    (hrange : e.toNat < 2 ^ 63 ∧ s.horizon.toNat < 2 ^ 63) (hperiod : s.halfbit.toNat ≤ 2 ^ 31)
    (hstart : s.byteStart.toNat + s.halfbit.toNat ≤ e.toNat)
    (hroom : RoomFor n s.out s.byteStart.toNat (e.toNat + s.halfbit.toNat)) : FramesOrdered n (readBit j e s) := by
  have hbyte : (readBit j e s).byteStart = s.byteStart := by rw [readBit_byteStart, if_neg hj]
  have hrange' : (readBit j e s).cursample.toNat < 2 ^ 63 ∧ (readBit j e s).horizon.toNat < 2 ^ 63 := by
    rwa [readBit_cursample, readBit_horizon, hcursor]
  have hmarked := hroom.append_silent (recs := [bitMarker (bitValue s) e]) rfl
  have hout := readBit_out j e s
  by_cases hlt : j < 8
  · rw [if_pos hlt] at hout
    refine ordered_in_byte (.inl (by rw [readBit_phase, if_pos hlt])) ?_ hrange' ?_
    · rw [hout]
      exact hmarked.ordered
    · rw [spansSince, hout, hbyte, readBit_cursample, readBit_halfbit, hcursor]
      exact hmarked.below
  · have hphase : (readBit j e s).phase = .stopFirst := by rw [readBit_phase, if_neg hlt]
    have hend : (trunc64 ((e.toNat : Int) + s.halfbit.toNat)).toNat = e.toNat + s.halfbit.toNat := by
      rw [trunc64_toNat _ (by omega) (by omega)]
      omega
    have hlast : (readBit j e s).lastDataEnd.toNat = e.toNat + s.halfbit.toNat := by
      rw [readBit_lastDataEnd, if_neg hlt, hend]
    have hframe : RoomFor n (readBit j e s).out (s.byteStart.toNat + 1) (e.toNat + s.halfbit.toNat + 1) := by
      rw [hout, if_neg hlt]
      refine hroom.append_frame ?_ (by omega) (Nat.lt_succ_self _) (Nat.lt_succ_self _)
      rw [← hend]
      show [((takeBit j e s).byteStart.toNat, _)] = _
      simp [takeBit, hj]
    refine ordered_in_stop (.inl hphase) hframe.ordered hrange' ⟨?_, fun f hf => ?_⟩ (fun _ => ?_) (by simp [hphase]) (by simp [hphase])
    · rw [hbyte, hlast, readBit_halfbit]
      omega
    · have := hframe.below f hf
      rw [hbyte, hlast]
      omega
    · rw [hlast, readBit_cursample, readBit_halfbit, hcursor]

/-- A synchronization emits the Sync frame from RUN_START and the Start frame behind it, and the byte begins behind both
(43_preamble_scan.md R177, R178). -/
theorem ordered_syncSuccess {n : Nat} {e : Sample} {s : State} (hrange : e.toNat < 2 ^ 63 ∧ s.horizon.toNat < 2 ^ 63)
    (hcursor : s.cursample = e) (hrun : s.runStart.toNat + 2 ≤ s.l5Start.toNat)
    (hpoint : s.l5Start.toNat + 7 * s.halfbit.toNat + 3 ≤ e.toNat)
    (hroom : RoomFor n s.out s.runStart.toNat (s.runStart.toNat + s.halfbit.toNat)) : FramesOrdered n (syncSuccess e s) := by
  have hsyncEnd : (trunc64 ((s.l5Start.toNat : Int) + s.halfbit.toNat - 1)).toNat = s.l5Start.toNat + s.halfbit.toNat - 1 := by
    rw [trunc64_toNat _ (by omega) (by omega)]
    omega
  have hstart : (trunc64 ((s.l5Start.toNat : Int) + s.halfbit.toNat)).toNat = s.l5Start.toNat + s.halfbit.toNat := by
    rw [trunc64_toNat _ (by omega) (by omega)]
    omega
  have hstartEnd : (trunc64 ((e.toNat : Int) - s.halfbit.toNat - 1)).toNat = e.toNat - s.halfbit.toNat - 1 := by
    rw [trunc64_toNat _ (by omega) (by omega)]
    omega
  have hsync : frameSpans (syncFrameRecords s) = [(s.runStart.toNat, s.l5Start.toNat + s.halfbit.toNat - 1)] := by
    rw [← hsyncEnd]
    rfl
  have hstartFrame : frameSpans (startFrameRecords e (s.pktseq + 1#64) s) =
      [(s.l5Start.toNat + s.halfbit.toNat, e.toNat - s.halfbit.toNat - 1)] := by
    rw [← hstart, ← hstartEnd]
    rfl
  refine ordered_readBit_one hcursor hrange (by show s.halfbit.toNat ≤ e.toNat; omega) ?_
  show RoomFor n (s.out ++ (syncFrameRecords s ++ startFrameRecords e (s.pktseq + 1#64) s ++ [.marker .start e]))
    (e.toNat - s.halfbit.toNat) (e.toNat + s.halfbit.toNat)
  rw [← List.append_assoc, ← List.append_assoc]
  refine RoomFor.append_silent ?_ rfl
  have hafterSync := (hroom.mono le_rfl (b' := s.l5Start.toNat + s.halfbit.toNat - 1) (by omega)).append_frame hsync (by omega)
    (a' := s.l5Start.toNat + s.halfbit.toNat) (b' := e.toNat - s.halfbit.toNat - 1) (by omega) (by omega)
  exact hafterSync.append_frame hstartFrame (by omega) (by omega) (by omega)

/-- The Stop frame lies behind the last Data frame and ends with the probe (45_stop_detect.md R225). -/
theorem room_after_stop {n : Nat} {s : State} (ho : FramesOrdered n s) (hs : Consistent s) (hlegal : TimingLegal s)
    (hphase : s.phase = .stopProbe) {recs : List Record} (hsilent : frameSpans recs = []) (p q : Word64) :
    RoomFor n
      (s.out ++ (frameRecords .stop (trunc64 ((s.lastDataEnd.toNat : Int) + 1))
        (trunc64 ((s.probeBase.toNat : Int) + 2 * s.halfbit.toNat)) p q ++ recs))
      s.cursample.toNat (s.cursample.toNat + 2 * s.halfbit.toNat + 1) := by
  obtain ⟨-, hperiod, -, htol, -⟩ := hlegal
  have hprobe := ho.stop_probe_end hphase
  have hlast := (ho.after_byte (.inr (.inr hphase))).1
  have hrange := ho.in_range.1
  have hbase := (hs.probe_open hphase).1
  have hstart : (trunc64 ((s.lastDataEnd.toNat : Int) + 1)).toNat = s.lastDataEnd.toNat + 1 := by
    rw [trunc64_toNat _ (by omega) (by omega)]
    omega
  have hend : (trunc64 ((s.probeBase.toNat : Int) + 2 * s.halfbit.toNat)).toNat = s.cursample.toNat + 2 * s.halfbit.toNat := by
    rw [hbase, trunc64_toNat _ (by omega) (by omega)]
    omega
  rw [← List.append_assoc]
  refine RoomFor.append_silent ?_ hsilent
  refine ((ho.room_after_byte (.inr (.inr hphase))).mono (a' := s.lastDataEnd.toNat + 1)
    (b' := s.cursample.toNat + 2 * s.halfbit.toNat) (by omega) (by omega)).append_frame ?_ (by omega) (by omega) (by omega)
  rw [← hstart, ← hend]
  rfl

/-! ## Every outcome -/

/-- A counted `Half` keeps the room from RUN_START on: a first one puts RUN_START at the cursor, which no frame reaches, since the
horizon of a quiet STOP would have made the transition too late for a `Half`. -/
theorem room_of_counted {n : Nat} {e : Sample} {s : State} (ho : FramesOrdered n s) (hlegal : TimingLegal s)
    (haccepted : EdgeAccepted e s) (hphase : s.phase = .scan) (hhalf : intervalIn 1 e s = true) :
    RoomFor n s.out (if s.synccount = 0#32 then s.cursample else s.runStart).toNat
      ((if s.synccount = 0#32 then s.cursample else s.runStart).toNat + s.halfbit.toNat) := by
  obtain ⟨-, -, hhorizon⟩ := haccepted
  obtain ⟨-, -, -, htol, -⟩ := hlegal
  rw [intervalIn_iff] at hhalf
  by_cases hempty : s.synccount = 0#32
  · rw [if_pos hempty]
    refine ⟨ho.spansOrdered, fun f hf => ?_⟩
    have := ho.before_run hphase (by simp [hempty]) f hf
    omega
  · rw [if_neg hempty]
    have hpos : 0 < s.synccount.toNat := Nat.pos_of_ne_zero fun h0 => hempty (BitVec.eq_of_toNat_eq h0)
    exact ho.room_in_run (.inl ⟨hphase, hpos⟩)

/-- An accepted EDGE in range keeps the frames of the run in order. -/
theorem EdgeOutcome.framesOrdered {n : Nat} {e : Sample} {s t : State} (h : EdgeOutcome e s t) (hs : Consistent s)
    (ho : FramesOrdered n s) (haccepted : EdgeAccepted e s) (he : e.toNat < 2 ^ 63) : FramesOrdered n t := by
  obtain ⟨hrun, hcursor, hhorizon⟩ := id haccepted
  have hlegal := hs.timing hrun
  obtain ⟨-, hperiod, -, htol, hrsync⟩ := id hlegal
  have hrange : e.toNat < 2 ^ 63 ∧ s.horizon.toNat < 2 ^ 63 := ⟨he, ho.in_range.2⟩
  have hclear := ho.room_at_edge hs haccepted
  cases h
  case counted hphase hhalf =>
    have hroom := room_of_counted ho hlegal haccepted hphase hhalf
    refine ordered_in_scan hphase ho.spansOrdered hrange (fun hzero => ?_) fun _ => hroom.below
    have hcount : (sat32 (s.synccount.toNat + 1)).toNat = 0 := hzero
    rw [sat32_succ_toNat] at hcount
    omega
  case opened hphase hlong5 hcount =>
    exact ordered_in_start (.inl rfl) ho.spansOrdered hrange (ho.in_run (.inl ⟨hphase, by omega⟩))
  case cleared => exact ordered_of_cleared rfl rfl hrange (hclear.append_silent (recs := []) rfl)
  case startContinued hphase _ => exact ordered_in_start (.inr rfl) ho.spansOrdered hrange (ho.in_run (.inr (.inl hphase)))
  case synchronized hsync =>
    obtain ⟨hspan, hpoint⟩ := sync_spans hs haccepted hsync
    exact ordered_syncSuccess hrange rfl hspan hpoint (ho.room_in_run (.inr (hsync.imp And.left And.left)))
  case invalid => exact ordered_of_cleared rfl rfl hrange (hclear.append_silent rfl)
  case bitHalved hphase =>
    have hroom := (ho.room_in_byte (.inl hphase)).mono le_rfl (b' := e.toNat + s.halfbit.toNat) (by omega)
    exact ordered_in_byte (.inr rfl) ho.spansOrdered hrange hroom.below
  case bitRead hphase =>
    have hstart := hs.byte_start (phaseIsSynced_of_byte hphase)
    have hindex := hs.bit_phase_index hphase
    refine ordered_readBit_succ (by omega) rfl hrange hperiod (hstart.trans hcursor.le) ?_
    exact (ho.room_in_byte hphase).mono le_rfl (Nat.add_le_add_right hcursor.le _)
  case stopHalved hphase hhalf =>
    rw [intervalIn_iff] at hhalf
    have hend := ho.stop_first_end hphase
    refine ordered_in_stop (.inr (.inl rfl)) ho.spansOrdered hrange (ho.after_byte (.inl hphase)) nofun (fun _ => ?_) nofun
    show s.lastDataEnd.toNat ≤ e.toNat + s.tol.toNat
    omega
  case byteBegun hphase =>
    have hstop : s.phase = .stopFirst ∨ s.phase = .stopSecond ∨ s.phase = .stopProbe := hphase.imp_right .inl
    have hstart := hs.byte_start (phaseIsSynced_of_stop hstop)
    have hlast := ho.lastDataEnd_le hlegal hstop
    exact ordered_readBit_one rfl hrange (show s.halfbit.toNat ≤ e.toNat by omega)
      ((ho.room_after_byte hstop).mono (show _ ≤ e.toNat - s.halfbit.toNat by omega)
        (show _ ≤ e.toNat + s.halfbit.toNat by omega))
  case candidate hlong =>
    have hstop : s.phase = .stopFirst ∨ s.phase = .stopSecond ∨ s.phase = .stopProbe :=
      hlong.imp And.left fun h => .inl h.1
    refine ordered_in_stop (.inr (.inr rfl)) ho.spansOrdered hrange (ho.after_byte hstop) nofun nofun fun _ => ?_
    show s.lastDataEnd.toNat + 4 * s.halfbit.toNat ≤ e.toNat + 2 * s.tol.toNat
    obtain ⟨hphase, hlong5⟩ | ⟨hphase, hlong4⟩ := hlong
    · have hend := ho.stop_first_end hphase
      rw [intervalIn_iff] at hlong5
      omega
    · have hend := ho.stop_second_end hphase
      rw [intervalIn_iff] at hlong4
      omega
  case confirmed hphase hbeyond =>
    rw [replay_stopConfirmed_hold hlegal hbeyond]
    have hroom := room_after_stop ho hs hlegal hphase (recs := [.marker .stop s.probeBase]) rfl 0#64 0#64
    exact ordered_of_cleared rfl rfl hrange (hroom.mono hcursor.le (show _ ≤ e.toNat + s.halfbit.toNat by omega))
  case unverified hphase hwithin =>
    rw [replay_raiseStopVerify_hold hlegal]
    split
    · have hstart := hs.byte_start (phaseIsSynced_of_stop (.inr (.inr hphase)))
      have hend := ho.stop_probe_end hphase
      have hroom := ((ho.room_after_byte (.inr (.inr hphase))).mono (a' := s.cursample.toNat)
        (b' := s.cursample.toNat + s.halfbit.toNat) (by omega) (by omega)).append_silent
          (recs := [.marker .errorDot s.probeBase]) rfl
      exact ordered_in_scan rfl hroom.ordered hrange nofun fun _ => hroom.below
    · exact ordered_of_cleared rfl rfl hrange (hclear.append_silent (recs := [.marker .errorDot s.probeBase]) rfl)

/-- A row in range, START apart, keeps the frames of the run in order. -/
theorem RowOutcome.framesOrdered {n : Nat} {i : Instr} {s t : State} (h : RowOutcome s i t) (hs : Consistent s)
    (ho : FramesOrdered n s) (hhost : s.issuer = .host) (hrow : i ≠ .start) (hedge : ∀ e, i = .edge e → e.toNat < 2 ^ 63)
    (hquiet : ∀ q, i = .quiet q → q.toNat < 2 ^ 63) : FramesOrdered n t := by
  cases h
  case valueRead => exact ho.emit rfl
  case emitted => exact absurd (hhost.symm.trans ‹s.issuer = .block›) nofun
  case refused | begun => exact absurd rfl hrow
  case accepted e haccepted houtcome => exact houtcome.framesOrdered hs ho haccepted (hedge e rfl)
  case horizonRaised q _ _ => exact ho.raiseHorizon (hquiet q rfl)
  case probeWaits q _ _ _ => exact ho.raiseHorizon (hquiet q rfl)
  case probeConfirmed q hrun hphase hsettled =>
    have hraised := ho.raiseHorizon (hquiet q rfl)
    have hroom := room_after_stop ho hs (hs.timing hrun) hphase (recs := [.marker .stop s.probeBase]) rfl 0#64 0#64
    have hsettled := hsettled hs.lookahead_empty
    rw [replay_stopConfirmed_raiseHorizon hs.lookahead_empty]
    refine ordered_in_scan rfl hroom.ordered hraised.in_range (fun _ f hf => ?_) nofun
    obtain ⟨hstart, hend⟩ := hroom.below f hf
    exact ⟨hstart, .inr ⟨(Nat.lt_succ_iff.mp hend).trans hsettled, hsettled⟩⟩
  case probeFailed hheld => exact absurd hheld (by simp [hs.lookahead_empty])
  all_goals exact ho.of_orderPart_eq rfl

/-- What `continuesRun` says of a transaction that decodes to a row. -/
theorem continuesRun_of_decode {tr : Transaction} {i : Instr} (hdecode : decode tr = .ok i)
    (h : continuesRun (.transaction tr) = true) :
    i ≠ .start ∧ (∀ e, i = .edge e → e.toNat < 2 ^ 63) ∧ ∀ q, i = .quiet q → q.toNat < 2 ^ 63 := by
  rw [continuesRun, hdecode] at h
  refine ⟨?_, ?_, ?_⟩
  · rintro rfl
    simp at h
  · rintro e rfl
    simpa using h
  · rintro q rfl
    simpa using h

theorem step_framesOrdered {n : Nat} {s t : State} (hs : Consistent s) (ho : FramesOrdered n s)
    (hinput : ∀ e ∈ s.input, continuesRun e = true) (hstep : step s = .next t) :
    FramesOrdered n t := by
  obtain ⟨t', ht', hcases⟩ := step_outcome s
  obtain rfl : t' = t := Host.Outcome.next.inj (ht'.symm.trans hstep)
  obtain ⟨-, rfl⟩ | ⟨rest, hin, -⟩ | ⟨tr, rest, i, hin, hdecode, houtcome⟩ | ⟨tr, rest, -, rfl⟩ := hcases
  · exact ho
  · exact absurd (hinput .reset (by simp [hin])) (by simp [continuesRun])
  · obtain ⟨hrow, hedge, hquiet⟩ := continuesRun_of_decode hdecode (hinput (.transaction tr) (by simp [hin]))
    exact houtcome.framesOrdered (hs.of_decoderPart_eq rfl) (ho.of_orderPart_eq rfl) rfl hrow hedge hquiet
  · exact ho.of_orderPart_eq rfl

/-- Settles O57: each outcome of a step gives the bound of the phase it ends in. -/
theorem stepKeepsFramesOrdered : Obligations.StepKeepsFramesOrdered := by
  unfold Obligations.StepKeepsFramesOrdered
  intro n s t hs ho hinput hstep
  exact step_framesOrdered hs ho hinput hstep

/-! ## A run (R249) -/

/-- A frame of any span has room where the run has no frame yet. -/
theorem roomFor_of_no_record (out : List Record) (a b : Nat) : RoomFor out.length out a b where
  ordered := ⟨le_rfl, by simp [frameSpans, SpansRise], by simp [frameSpans]⟩
  below := by simp [SpansBelow, frameSpans]

/-- Settles O56: a begun run is in SCAN with nothing counted, and has no frame. -/
theorem startBeginsAnOrderedRun : Obligations.StartBeginsAnOrderedRun := by
  unfold Obligations.StartBeginsAnOrderedRun
  intro s t hexec hrun hrange
  obtain ⟨tm, htiming, rfl⟩ := exec_start_of_running hexec hrun
  exact ⟨consistent_beginRun htiming _, ordered_of_cleared rfl rfl ⟨hrange, hrange⟩ (roomFor_of_no_record s.out _ _), rfl,
    congrArg frameSpans List.drop_length⟩

theorem input_eq_of_fixedPart_eq {s t : State} (h : fixedPart t = fixedPart s) : t.input = s.input := by
  obtain ⟨-, -, -, -, -, -, hinput⟩ := fields_of_fixedPart_eq h
  exact hinput

/-- No row reads or writes what the host sends next. -/
theorem RowOutcome.input_eq {i : Instr} {s t : State} (h : RowOutcome s i t) : t.input = s.input := by
  cases h
  case accepted hedge => exact input_eq_of_fixedPart_eq hedge.fixedPart_eq
  case probeConfirmed => exact (input_eq_of_fixedPart_eq (fixedPart_replay _)).trans rfl
  case probeFailed => exact (input_eq_of_fixedPart_eq (fixedPart_replay _)).trans rfl
  all_goals rfl

/-- A step takes at most the first event. -/
theorem input_subset_of_step {s t : State} (hstep : step s = .next t) : t.input ⊆ s.input := by
  obtain ⟨t', ht', hcases⟩ := step_outcome s
  obtain rfl : t' = t := Host.Outcome.next.inj (ht'.symm.trans hstep)
  obtain ⟨-, rfl⟩ | ⟨rest, hin, rfl⟩ | ⟨tr, rest, i, hin, -, houtcome⟩ | ⟨tr, rest, hin, rfl⟩ := hcases
  · exact List.Subset.refl _
  · rw [hin]
    exact List.subset_cons_self _ _
  · rw [hin, houtcome.input_eq]
    exact List.subset_cons_self _ _
  · rw [hin]
    exact List.subset_cons_self _ _

/-- A run takes its first step first. -/
theorem run_succ_of_step (M : Host.Core) {s s' : M.State} (hstep : M.step s = .next s') (k : Nat) :
    M.run (k + 1) s = M.run k s' := by
  rw [Host.Core.run, hstep]

/-- Any number of steps keeps the frames of the run in order. -/
theorem run_framesOrdered {n k : Nat} {s t : State} (hs : Consistent s) (ho : FramesOrdered n s)
    (hinput : ∀ e ∈ s.input, continuesRun e = true) (hrun : Sys2Proof.core.run k s = .next t) : FramesOrdered n t := by
  induction k generalizing s with
  | zero =>
    obtain rfl := Host.Outcome.next.inj hrun
    exact ho
  | succ k ih =>
    obtain ⟨s', hstep, -⟩ := step_outcome s
    exact ih (step_consistent hs hstep) (step_framesOrdered hs ho hinput hstep)
      (fun e he => hinput e (input_subset_of_step hstep he))
      ((run_succ_of_step Sys2Proof.core hstep k).symm.trans hrun)

/-- Settles O58: the invariant holds when the run begins, every step keeps it, and it says that the frames rise. -/
theorem framesOfARunRise : Obligations.FramesOfARunRise := by
  unfold Obligations.FramesOfARunRise
  intro s s0 t k hexec hrun hrange hinput hsteps
  obtain ⟨hs, ho, -, -⟩ := startBeginsAnOrderedRun s s0 hexec hrun hrange
  have hfinal := run_framesOrdered hs ho hinput hsteps
  exact ⟨hfinal.rise, hfinal.nonempty⟩

end Sys2Proof.Machine
end

