-- ==== Sys2Proof/Proofs/Encoding.lean ====
section
/-! PROOF. Decoding and encoding are inverse to each other (30_encoding.md R81 to R89), and a byte transport carries a transaction
(20_memory.md R63). -/

namespace Sys2Proof

open Machine (regOfNumber regWritable regNumber regOfNumber_regNumber)

/-! ## Decode after encode -/

/-- A transaction made with RSV = 0 is decoded by its opcode, ARG and payload. -/
theorem decode_makeTransaction (op : Opcode) (arg : BitVec 8) (payload : List Word64) :
    decode (makeTransaction op arg payload) = decodePayload op arg payload := by
  obtain ⟨hopc, harg, hrsv⟩ := Laws.WellShaped.header_fields op arg
  have hop : opcodeOfByte (headerOpc (makeTransaction op arg payload).header) = some op :=
    (congrArg opcodeOfByte hopc).trans (Laws.WellShaped.opcodeOfByte_opcodeByte op)
  unfold decode
  rw [hop]
  simp only [makeTransaction, hrsv, harg, if_pos]

theorem frameKindOfCode_frameKindCode (k : FrameKind) : frameKindOfCode (frameKindCode k) = some k := by cases k <;> rfl

theorem markerKindOfCode_markerKindCode (k : MarkerKind) : markerKindOfCode (markerKindCode k) = some k := by cases k <;> rfl

/-- A FRAME's fifth word holds its flags in the low half and nothing in the high half (R83). -/
theorem decode_encodeFrame (k : FrameKind) (a b : Sample) (p q : Word64) (f : Word32) :
    decode (encodeFrame k a b p q f) = .ok (frameInstr k a b p q f) := by
  have hhigh : (f.setWidth 64).extractLsb' 32 32 = 0#32 := by
    refine BitVec.eq_of_getLsbD_eq fun i hi => ?_
    rw [BitVec.getLsbD_extractLsb', BitVec.getLsbD_setWidth, f.getLsbD_of_ge (32 + i) (by omega)]
    simp
  have hlow : (f.setWidth 64).extractLsb' 0 32 = f := by
    refine BitVec.eq_of_getLsbD_eq fun i hi => ?_
    rw [BitVec.getLsbD_extractLsb', BitVec.getLsbD_setWidth, Nat.zero_add]
    simp [hi, show i < 64 by omega]
  rw [encodeFrame, decode_makeTransaction, decodePayload_frame, decodeFrame, frameKindOfCode_frameKindCode]
  simp only [hhigh, hlow, if_pos]

theorem decode_encodeMarker (k : MarkerKind) (a : Sample) : decode (encodeMarker k a) = .ok (markerInstr k a) := by
  rw [encodeMarker, decode_makeTransaction, decodePayload_marker, decodeMarker, markerKindOfCode_markerKindCode]

theorem decode_encode {i : Instr} (h : i.wellFormed = true) : decode (encode i) = .ok i := by
  cases i
  case frameSync a b p q f => exact decode_encodeFrame .sync a b p q f
  case frameStart a b p q f => exact decode_encodeFrame .start a b p q f
  case frameData a b p q f => exact decode_encodeFrame .data a b p q f
  case frameStop a b p q f => exact decode_encodeFrame .stop a b p q f
  case markerOne a => exact decode_encodeMarker .one a
  case markerZero a => exact decode_encodeMarker .zero a
  case markerStart a => exact decode_encodeMarker .start a
  case markerStop a => exact decode_encodeMarker .stop a
  case markerErrorDot a => exact decode_encodeMarker .errorDot a
  case cfgWrite n v =>
    rw [encode, decode_makeTransaction]
    exact decodeCfgWrite_eq_ok.mpr ⟨h, rfl⟩
  case regRead n =>
    rw [encode, decode_makeTransaction]
    exact decodeWithReg_eq_ok.mpr ⟨h, rfl⟩
  case regValue n v =>
    rw [encode, decode_makeTransaction]
    exact decodeWithReg_eq_ok.mpr ⟨h, rfl⟩
  case start | cancel | edge | quiet | commit | progress =>
    rw [encode, decode_makeTransaction]
    exact decodeWithoutArg_eq_ok.mpr ⟨rfl, rfl⟩

/-- Settles O5: a row's words have RSV = 0 and the opcode's payload count, and its ARG fits when the row is well formed. -/
theorem decodeAfterEncode : Obligations.DecodeAfterEncode := by
  unfold Obligations.DecodeAfterEncode
  intro i h
  exact decode_encode h

/-! ## Encode after decode -/

/-- OPC, ARG and RSV are all of a header (R81). -/
theorem makeHeader_of_rsv {h : Word32} (hrsv : headerRsv h = 0#16) : makeHeader (headerOpc h) (headerArg h) = h := by
  rw [makeHeader, ← hrsv]
  refine BitVec.eq_of_getLsbD_eq fun i hi => ?_
  simp only [headerOpc, headerArg, headerRsv, BitVec.getLsbD_append, BitVec.getLsbD_extractLsb']
  by_cases hlow : i < 16
  · simp [hlow]
  by_cases hmid : i - 16 < 8
  · simp [hlow, hmid, show 16 + (i - 16) = i by omega]
  · simp [hlow, hmid, show i - 16 - 8 < 8 by omega, show 24 + (i - 16 - 8) = i by omega]

/-- A word whose high half is 0 is its low half zero-extended (R83). -/
theorem setWidth_extractLsb'_of_high_zero {w : Word64} (h : w.extractLsb' 32 32 = 0#32) : (w.extractLsb' 0 32).setWidth 64 = w := by
  refine BitVec.eq_of_getLsbD_eq fun i hi => ?_
  rw [BitVec.getLsbD_setWidth, BitVec.getLsbD_extractLsb', Nat.zero_add]
  by_cases hlow : i < 32
  · simp [hi, hlow]
  · have hbit : (w.extractLsb' 32 32).getLsbD (i - 32) = false := by rw [h, BitVec.getLsbD_zero]
    rw [BitVec.getLsbD_extractLsb', show 32 + (i - 32) = i by omega] at hbit
    have hzero : w.getLsbD i = false := by simpa [show i - 32 < 32 by omega] using hbit
    simp [hlow, hzero]

theorem frameKindCode_of_frameKindOfCode {c : BitVec 8} {k : FrameKind} (h : frameKindOfCode c = some k) : frameKindCode k = c := by
  simpa using List.find?_some h

theorem markerKindCode_of_markerKindOfCode {c : BitVec 8} {k : MarkerKind} (h : markerKindOfCode c = some k) :
    markerKindCode k = c := by
  simpa using List.find?_some h

theorem frameInstr_wellFormed (k : FrameKind) (a b : Sample) (p q : Word64) (f : Word32) :
    (frameInstr k a b p q f).wellFormed = true := by cases k <;> rfl

theorem encode_frameInstr (k : FrameKind) (a b : Sample) (p q : Word64) (f : Word32) :
    encode (frameInstr k a b p q f) = encodeFrame k a b p q f := by cases k <;> rfl

theorem markerInstr_wellFormed (k : MarkerKind) (a : Sample) : (markerInstr k a).wellFormed = true := by cases k <;> rfl

theorem encode_markerInstr (k : MarkerKind) (a : Sample) : encode (markerInstr k a) = encodeMarker k a := by cases k <;> rfl

/-- A FRAME that is accepted encodes to the five words it was read from. -/
theorem encode_of_decodeFrame {arg : BitVec 8} {a b : Sample} {p q f : Word64} {i : Instr} (h : decodeFrame arg a b p q f = .ok i) :
    i.wellFormed = true ∧ encode i = makeTransaction .frame arg [a, b, p, q, f] := by
  unfold decodeFrame at h
  split at h
  · cases h
  · next k hk =>
    split at h
    · next hhigh =>
      cases h
      refine ⟨frameInstr_wellFormed .., ?_⟩
      rw [encode_frameInstr, encodeFrame, frameKindCode_of_frameKindOfCode hk, setWidth_extractLsb'_of_high_zero hhigh]
    · cases h

theorem encode_of_decodeMarker {arg : BitVec 8} {a : Sample} {i : Instr} (h : decodeMarker arg a = .ok i) :
    i.wellFormed = true ∧ encode i = makeTransaction .marker arg [a] := by
  unfold decodeMarker at h
  split at h
  · cases h
  · next k hk =>
    cases h
    refine ⟨markerInstr_wellFormed .., ?_⟩
    rw [encode_markerInstr, encodeMarker, markerKindCode_of_markerKindOfCode hk]

/-- What a payload is accepted as is well formed and encodes to that payload under the same opcode and ARG. -/
theorem encode_of_decodePayload {op : Opcode} {arg : BitVec 8} {payload : List Word64} {i : Instr}
    (h : decodePayload op arg payload = .ok i) : i.wellFormed = true ∧ encode i = makeTransaction op arg payload := by
  have hl := length_of_decodePayload h
  cases op
  case cfgWrite =>
    obtain ⟨v, rfl⟩ := List.length_eq_one_iff.mp hl
    obtain ⟨hfit, rfl⟩ := decodeCfgWrite_eq_ok.mp h
    exact ⟨hfit, rfl⟩
  case regRead =>
    obtain rfl := List.length_eq_zero_iff.mp hl
    obtain ⟨hfit, rfl⟩ := decodeWithReg_eq_ok.mp h
    exact ⟨hfit, rfl⟩
  case regValue =>
    obtain ⟨v, rfl⟩ := List.length_eq_one_iff.mp hl
    obtain ⟨hfit, rfl⟩ := decodeWithReg_eq_ok.mp h
    exact ⟨hfit, rfl⟩
  case start | cancel | commit =>
    obtain rfl := List.length_eq_zero_iff.mp hl
    obtain ⟨rfl, rfl⟩ := decodeWithoutArg_eq_ok.mp h
    exact ⟨rfl, rfl⟩
  case edge | quiet | progress =>
    obtain ⟨v, rfl⟩ := List.length_eq_one_iff.mp hl
    obtain ⟨rfl, rfl⟩ := decodeWithoutArg_eq_ok.mp h
    exact ⟨rfl, rfl⟩
  case frame =>
    match payload, hl, h with
    | [_, _, _, _, _], _, h => exact encode_of_decodeFrame h
  case marker =>
    obtain ⟨a, rfl⟩ := List.length_eq_one_iff.mp hl
    exact encode_of_decodeMarker h

/-- An accepted transaction has an assigned opcode. -/
theorem opcode_of_decode {t : Transaction} {i : Instr} (h : decode t = .ok i) : ∃ op, opcodeOfByte (headerOpc t.header) = some op := by
  cases ho : opcodeOfByte (headerOpc t.header) with
  | none => simp [decode, ho] at h
  | some op => exact ⟨op, rfl⟩

/-- Settles O6: the header is its three fields, and the payload is the row's. -/
theorem encodeAfterDecode : Obligations.EncodeAfterDecode := by
  unfold Obligations.EncodeAfterDecode
  intro t i h
  obtain ⟨op, ho⟩ := opcode_of_decode h
  obtain ⟨hrsv, hpayload⟩ := (decode_eq_ok_iff ho).mp h
  obtain ⟨hwf, hencode⟩ := encode_of_decodePayload hpayload
  refine ⟨hwf, ?_⟩
  rw [hencode, makeTransaction, opcodeByte_of_opcodeOfByte ho, makeHeader_of_rsv hrsv]

/-! ## Records (R89) -/

/-- A transaction that decodes to an output row has the class of an output record. -/
theorem classOfTransaction_of_decode_output {t : Transaction} {i : Instr} (h : decode t = .ok i) (houtput : i.isHostCommand = false) :
    classOfTransaction t = .outputRecord := by
  obtain ⟨op, ho⟩ := opcode_of_decode h
  refine classOfTransaction_of_output ho ?_
  rw [← isHostCommand_of_decodePayload ((decode_eq_ok_iff ho).mp h).2, houtput]

theorem recordInstr_wellFormed (r : Record) : (recordInstr r).wellFormed = true := by
  cases r
  case frame k a b p q f => exact frameInstr_wellFormed ..
  case marker k a => exact markerInstr_wellFormed ..
  case commit | progress => rfl
  case regValue r v => exact (congrArg Option.isSome (regOfNumber_regNumber r)).trans rfl

theorem recordInstr_isHostCommand (r : Record) : (recordInstr r).isHostCommand = false := by
  cases r
  case frame k a b p q f => exact frameInstr_isHostCommand ..
  case marker k a => exact markerInstr_isHostCommand ..
  case commit | progress | regValue => rfl

/-- Settles O10: the row of a record is a well-formed output row. -/
theorem recordsAreWellFormedOutput : Obligations.RecordsAreWellFormedOutput := by
  unfold Obligations.RecordsAreWellFormedOutput
  intro r
  have hdecode := decode_encode (recordInstr_wellFormed r)
  exact ⟨hdecode, classOfTransaction_of_decode_output hdecode (recordInstr_isHostCommand r)⟩

/-! ## Bytes on a transport (20_memory.md R63) -/

@[simp] theorem littleEndian_length (n v : Nat) : (littleEndian n v).length = n := by
  induction n generalizing v with
  | zero => rfl
  | succ n ih => simp [littleEndian, ih]

/-- Byte `k` is the number shifted right by `k` bytes. -/
theorem littleEndian_getElem? {n k : Nat} (hk : k < n) (v : Nat) : (littleEndian n v)[k]? = some (BitVec.ofNat 8 (v >>> (8 * k))) := by
  induction n generalizing k v with
  | zero => omega
  | succ n ih =>
    cases k with
    | zero => rfl
    | succ k =>
      rw [littleEndian, List.getElem?_cons_succ, ih (by omega), Nat.mul_succ, Nat.add_comm, Nat.shiftRight_add, Nat.shiftRight_eq_div_pow v]

theorem littleEndian_getElem?_word {w n k : Nat} (hk : k < n) (v : BitVec w) :
    (littleEndian n v.toNat)[k]? = some (v.extractLsb' (8 * k) 8) :=
  littleEndian_getElem? hk v.toNat

/-- The bytes of a number stand for it. -/
theorem ofLittleEndian_littleEndian (n v : Nat) : ofLittleEndian (littleEndian n v) = v % 256 ^ n := by
  induction n generalizing v with
  | zero => simp [littleEndian, ofLittleEndian, Nat.mod_one]
  | succ n ih =>
    have hsplit : v % 256 ^ (n + 1) = v % 2 ^ 8 + 256 * (v / 256 % 256 ^ n) := by
      rw [show 256 ^ (n + 1) = 2 ^ 8 * 256 ^ n from Nat.pow_succ', Nat.mod_mul]
      rfl
    rw [littleEndian, ofLittleEndian, ih, BitVec.toNat_ofNat, hsplit]

theorem ofNat_ofLittleEndian_littleEndian {w n : Nat} (v : BitVec w) (hw : 2 ^ w = 256 ^ n) :
    BitVec.ofNat w (ofLittleEndian (littleEndian n v.toNat)) = v := by
  rw [ofLittleEndian_littleEndian, ← hw, Nat.mod_eq_of_lt v.isLt, BitVec.ofNat_toNat, BitVec.setWidth_eq]

/-- The payload words are read back from their bytes. -/
theorem payloadOfBytes_flatMap (ws : List Word64) : payloadOfBytes (ws.flatMap fun w => littleEndian 8 w.toNat) = some ws := by
  induction ws with
  | nil => rfl
  | cons w ws ih =>
    have hword := ofNat_ofLittleEndian_littleEndian (n := 8) w (by norm_num)
    rw [List.flatMap_cons]
    simp only [littleEndian] at hword ⊢
    simp only [List.cons_append, List.nil_append, payloadOfBytes, hword]
    simp only [littleEndian] at ih
    rw [ih]
    rfl

theorem transactionOfBytes_transactionBytes (t : Transaction) : transactionOfBytes (transactionBytes t) = some t := by
  have hheader := ofNat_ofLittleEndian_littleEndian (n := 4) t.header (by norm_num)
  have hpayload := payloadOfBytes_flatMap t.payload
  unfold transactionBytes
  simp only [littleEndian] at hheader
  simp only [littleEndian, List.cons_append, List.nil_append, transactionOfBytes, hheader]
  simp only [littleEndian] at hpayload
  rw [hpayload]
  rfl

/-- In blocks of equal length, entry `k` of block `n` stands at `c n + k`. -/
theorem getElem?_flatMap_of_length {α β : Type} {f : α → List β} {c : Nat} (hf : ∀ x, (f x).length = c) {l : List α} {n : Nat} {x : α}
    (hx : l[n]? = some x) {k : Nat} (hk : k < c) : (l.flatMap f)[c * n + k]? = (f x)[k]? := by
  induction l generalizing n with
  | nil => simp at hx
  | cons y l ih =>
    rw [List.flatMap_cons]
    cases n with
    | zero =>
      obtain rfl : y = x := by simpa using hx
      rw [Nat.mul_zero, Nat.zero_add, List.getElem?_append_left (by rwa [hf])]
    | succ n =>
      rw [List.getElem?_append_right (by rw [hf, Nat.mul_succ]; omega), hf, Nat.mul_succ,
        show c * n + c + k - c = c * n + k by omega]
      exact ih (by simpa using hx)

/-- Settles O8: read back word by word, and each byte found at its place. -/
theorem bytesCarryATransaction : Obligations.BytesCarryATransaction := by
  unfold Obligations.BytesCarryATransaction
  intro t
  refine ⟨transactionOfBytes_transactionBytes t, fun k hk => ?header, fun n w hw k hk => ?payload⟩
  case header =>
    rw [transactionBytes, List.getElem?_append_left (by rwa [littleEndian_length])]
    exact littleEndian_getElem?_word hk t.header
  case payload =>
    rw [transactionBytes, List.getElem?_append_right (by rw [littleEndian_length]; omega), littleEndian_length,
      show 4 + 8 * n + k - 4 = 8 * n + k by omega, getElem?_flatMap_of_length (fun w => littleEndian_length 8 w.toNat) hw hk]
    exact littleEndian_getElem?_word hk w

end Sys2Proof
end

