-- ==== Sys2Proof/Proofs/Registers.lean ====
section
/-! PROOF. What the host reads of the registers (10_state.md R21 to R37), and that reset puts every one of them at 0 (R48). -/

namespace Sys2Proof.Machine

/-! ## Registers bit by bit -/

theorem levelBit_eq (l : Level) : levelBit l = decide (l = .high) := by cases l <;> rfl

/-- A flag alone in a register: bit 0, and 0 above. -/
theorem getLsbD_flag (b : Bool) (n : Nat) : ((0#63 ++ BitVec.ofBool b : Word64)).getLsbD n = decide (n = 0 ∧ b = true) := by
  rw [BitVec.getLsbD_append]
  cases n with
  | zero => simp
  | succ n => simp

/-- A level alone in a register. -/
theorem getLsbD_level (l : Level) (n : Nat) :
    ((0#63 ++ BitVec.ofBool (levelBit l) : Word64)).getLsbD n = decide (n = 0 ∧ l = .high) := by
  rw [getLsbD_flag, levelBit_eq]
  simp only [decide_eq_true_eq]

/-- CTRL: INVERTED at bit 0, TOLSEL at bits 2:1 (R23). -/
theorem getLsbD_ctrl (tolsel : BitVec 2) (inverted : Bool) (n : Nat) :
    ((0#61 ++ tolsel ++ BitVec.ofBool inverted : Word64)).getLsbD n =
      if n = 0 then inverted else if n = 1 then tolsel.getLsbD 0 else if n = 2 then tolsel.getLsbD 1 else false := by
  rw [BitVec.getLsbD_append, BitVec.getLsbD_append]
  match n with
  | 0 => simp
  | 1 => simp
  | 2 => simp
  | n + 3 => simp

/-- A field in the low bits of a register. -/
theorem getLsbD_field {w : Nat} (v : BitVec w) (hw : w ≤ 64) (n : Nat) : (v.setWidth 64).getLsbD n = v.getLsbD n := by
  rw [BitVec.getLsbD_setWidth]
  by_cases hn : n < 64
  · simp [hn]
  · rw [v.getLsbD_of_ge n (by omega)]
    simp

/-- Settles O2: each register is a field, a flag, or CTRL's two fields. -/
theorem registersReadTheirFields : Obligations.RegistersReadTheirFields := by
  unfold Obligations.RegistersReadTheirFields
  intro s
  exact ⟨getLsbD_field _ (by decide), getLsbD_field _ (by decide), getLsbD_ctrl _ _, getLsbD_field _ (by decide), rfl,
    getLsbD_level _, getLsbD_field _ (by decide), getLsbD_field _ (by decide), getLsbD_field _ (by decide),
    getLsbD_field _ (by decide), rfl, rfl, getLsbD_level _⟩

/-! ## STATUS (R30, R32) -/

/-- Past a flag in the lowest bit, a word's fields stand one place lower. -/
theorem extractLsb'_append_ofBool {n : Nat} (w : BitVec n) (b : Bool) (start len : Nat) :
    (w ++ BitVec.ofBool b).extractLsb' (start + 1) len = w.extractLsb' start len :=
  BitVec.extractLsb'_append_eq_of_le (Nat.le_add_left 1 start)

/-- Above the five flags stand a gap, PHASE, a gap, BITIDX and zeros. -/
theorem statusWord_extractLsb' (s : State) (start len : Nat) :
    (statusWord s).extractLsb' (start + 5) len = (0#48 ++ s.bitidx ++ 0#1 ++ phaseCode s.phase ++ 0#3).extractLsb' start len := by
  calc (statusWord s).extractLsb' (start + 4 + 1) len
      _ = _ := extractLsb'_append_ofBool _ _ (start + 3 + 1) len
      _ = _ := extractLsb'_append_ofBool _ _ (start + 2 + 1) len
      _ = _ := extractLsb'_append_ofBool _ _ (start + 1 + 1) len
      _ = _ := extractLsb'_append_ofBool _ _ (start + 1) len
      _ = _ := extractLsb'_append_ofBool _ _ start len

theorem phaseCode_eq (p : Phase) :
    phaseCode p =
      match p with
      | .scan => 0#3
      | .startNext => 1#3
      | .startHalf => 2#3
      | .bitFirst => 3#3
      | .bitSecond => 4#3
      | .stopFirst => 5#3
      | .stopSecond => 6#3
      | .stopProbe => 7#3 := by
  cases p <;> rfl

/-- Settles O3: the flags bit by bit, then the fields above them. -/
theorem statusHoldsItsFields : Obligations.StatusHoldsItsFields := by
  unfold Obligations.StatusHoldsItsFields
  intro s
  have hflag (n : Nat) : (readReg .status s).getLsbD n = (statusWord s).getLsbD n := rfl
  refine ⟨?running, statusWord_getLsbD_one s, ?badCmd, ?orderErr, ?cfgErr, ?gap, ?phase, ?bit11, ?bitidx, ?high⟩
  case running | badCmd | orderErr | cfgErr | bit11 =>
    rw [hflag, statusWord]
    simp only [BitVec.getLsbD_append, Nat.reduceLT, Nat.reduceSub, reduceIte, BitVec.getLsbD_ofBool, BitVec.getLsbD_zero,
      decide_true, Bool.true_and]
  case gap =>
    refine (statusWord_extractLsb' s 0 3).trans ?_
    exact BitVec.extractLsb'_append_eq_right
  case phase =>
    refine (statusWord_extractLsb' s 3 3).trans ?_
    rw [BitVec.extractLsb'_append_eq_of_le le_rfl]
    exact BitVec.extractLsb'_append_eq_right.trans (phaseCode_eq s.phase)
  case bitidx =>
    refine (statusWord_extractLsb' s 7 4).trans ?_
    rw [BitVec.extractLsb'_append_eq_of_le (by decide), BitVec.extractLsb'_append_eq_of_le (by decide),
      BitVec.extractLsb'_append_eq_of_le (by decide)]
    exact BitVec.extractLsb'_append_eq_right
  case high =>
    refine (statusWord_extractLsb' s 11 48).trans ?_
    rw [BitVec.extractLsb'_append_eq_of_le (by decide), BitVec.extractLsb'_append_eq_of_le (by decide),
      BitVec.extractLsb'_append_eq_of_le (by decide)]
    exact BitVec.extractLsb'_append_eq_left

/-! ## Reset (R48) -/

theorem readReg_reset (r : Reg) : readReg r State.reset = 0#64 := by cases r <;> decide

/-- No register shows what the host has still to send. -/
theorem readReg_with_input (r : Reg) (s : State) (events : List HostEvent) : readReg r { s with input := events } = readReg r s := by
  cases r <;> rfl

/-- Settles O1: the step answers the reset state with the rest of the input, and each of its registers reads 0. -/
theorem resetPutsEveryValueOfTheTable : Obligations.ResetPutsEveryValueOfTheTable := by
  unfold Obligations.ResetPutsEveryValueOfTheTable
  intro s rest hin
  have hstep : step s = .next { State.reset with input := rest } := by simp [step, performNext, fetch, hin, performEvent, hardReset]
  exact ⟨_, hstep, fun r => (readReg_with_input r State.reset rest).trans (readReg_reset r), rfl, rfl, rfl, rfl, rfl, rfl, rfl, rfl,
    rfl, rfl, rfl, rfl, rfl, rfl, rfl, rfl, rfl, rfl, rfl, rfl⟩

end Sys2Proof.Machine
end

