-- ==== Sys2Proof/Proofs/Steps.lean ====
section
/-! PROOF. One step on what the host sends: nothing, a command, or a transaction that is no command (20_memory.md R65, R67,
30_encoding.md R92). -/

namespace Sys2Proof.Machine

/-- Settles O13: with nothing sent there is no event to perform. -/
theorem waitingHoldsTheState : Obligations.WaitingHoldsTheState := by
  unfold Obligations.WaitingHoldsTheState
  intro s hin
  rw [step, performNext, fetch, hin]

/-- With a transaction sent, the step performs it in the state without it. -/
theorem step_of_transaction {s : State} {t : Transaction} {rest : List HostEvent} (hin : s.input = .transaction t :: rest) :
    step s = performTransaction t { s with input := rest, issuer := .host } := by
  rw [step, performNext, fetch, hin]
  rfl

/-- Settles O11: what decodes is performed by `exec`. -/
theorem stepRunsTheDecodedTransaction : Obligations.StepRunsTheDecodedTransaction := by
  unfold Obligations.StepRunsTheDecodedTransaction
  intro s t rest i hin hdecode
  rw [step_of_transaction hin, performTransaction, hdecode]

/-- Settles O12: no well-formed command is either rejected by the decoder, or an output record the host may not send. -/
theorem malformedTransactionsOnlySetBadCmd : Obligations.MalformedTransactionsOnlySetBadCmd := by
  unfold Obligations.MalformedTransactionsOnlySetBadCmd
  intro s t rest hin hclass
  rw [step_of_transaction hin, performTransaction]
  cases hdecode : decode t with
  | error err => rfl
  | ok i =>
    have houtput : i.isHostCommand = false := by
      rw [Bool.eq_false_iff]
      exact fun hcommand => hclass ((classOfTransaction_eq_wellFormedCommand_iff t).mpr ⟨i, hdecode, hcommand⟩)
    exact hostCannotInjectRecords _ i rfl houtput

end Sys2Proof.Machine
end

