-- ==== Sys2Proof/Proofs/Windows.lean ====
section
/-! PROOF. Which windows of the classifier overlap (41_classifier.md R138). -/

namespace Sys2Proof.Machine

/-- Two closed intervals around `a ≤ b` of half-width `tol` meet exactly when the centres are at most `2 tol` apart. -/
theorem exists_mem_both_windows_iff {a b tol : Nat} (hab : a ≤ b) :
    (∃ d : Int, ((a : Int) - tol ≤ d ∧ d ≤ a + tol) ∧ ((b : Int) - tol ≤ d ∧ d ≤ b + tol)) ↔ b - a ≤ 2 * tol := by
  constructor
  · rintro ⟨d, ⟨-, hupper⟩, hlower, -⟩
    omega
  · intro hclose
    exact ⟨(b : Int) - tol, by omega, by omega⟩

/-- Settles O31: the centres of two classes are `(k - j) T` apart, and with legal timing only neighbours one apart are close enough. -/
theorem onlyNeighbouringWindowsOverlap : Obligations.OnlyNeighbouringWindowsOverlap := by
  unfold Obligations.OnlyNeighbouringWindowsOverlap
  intro t tol c c' hlt
  have hoverlap : (∃ d : Int, inWindow t tol d c = true ∧ inWindow t tol d c' = true) ↔
      (classMultiple c' - classMultiple c) * t ≤ 2 * tol := by
    simp only [inWindow_iff]
    rw [Nat.sub_mul, ← exists_mem_both_windows_iff (Nat.mul_le_mul_right t hlt.le)]
    push_cast
    rfl
  refine ⟨hoverlap, fun _ htol hmeet => ?_⟩
  have hclose := hoverlap.mp hmeet
  have hone : classMultiple c' - classMultiple c = 1 := by
    by_contra hne
    have htwo := Nat.mul_le_mul_right t (show 2 ≤ classMultiple c' - classMultiple c by omega)
    omega
  rw [hone, Nat.one_mul] at hclose
  refine ⟨?_, hclose⟩
  revert hone
  cases c <;> cases c' <;> decide

end Sys2Proof.Machine
end

