-- ==== Sys2Proof/Proofs/Configuration.lean ====
section
/-! PROOF. A write to a configuration register waits for START (20_memory.md R72, 70_reset_and_hazards.md R294): the configuration is a
part of the state that EDGE, QUIET and CANCEL neither read nor write, so a change of it commutes with each rule on their way. -/

namespace Sys2Proof.Machine

section
variable (f : Configuration → Configuration)

/-! ## The rules commute with a change of the configuration -/

theorem readBit_configure (j : Nat) (e : Sample) (s : State) : readBit j e (configure f s) = configure f (readBit j e s) := by
  unfold readBit
  split
  · rfl
  · rfl

theorem scanEdge_configure (iv : Interval) (s : State) : scanEdge iv (configure f s) = configure f (scanEdge iv s) := by
  have hclass : classifyIn .scan iv (configure f s) = classifyIn .scan iv s := rfl
  have hstart : startQualifies (configure f s) = startQualifies s := rfl
  unfold scanEdge
  rw [hclass, hstart]
  split
  · rfl
  · split
    · rfl
    · rfl
  · rfl

theorem startNextEdge_configure (iv : Interval) (s : State) :
    startNextEdge iv (configure f s) = configure f (startNextEdge iv s) := by
  have hclass : classifyIn .startNext iv (configure f s) = classifyIn .startNext iv s := rfl
  unfold startNextEdge
  rw [hclass]
  split
  · exact readBit_configure f 1 iv.closed (synchronize iv.closed s)
  · rfl
  · rfl

theorem startHalfEdge_configure (iv : Interval) (s : State) :
    startHalfEdge iv (configure f s) = configure f (startHalfEdge iv s) := by
  have hclass : classifyIn .startHalf iv (configure f s) = classifyIn .startHalf iv s := rfl
  unfold startHalfEdge
  rw [hclass]
  split
  · exact readBit_configure f 1 iv.closed (synchronize iv.closed s)
  · rfl

theorem bitFirstEdge_configure (iv : Interval) (s : State) :
    bitFirstEdge iv (configure f s) = configure f (bitFirstEdge iv s) := by
  have hclass : classifyIn .bitFirst iv (configure f s) = classifyIn .bitFirst iv s := rfl
  unfold bitFirstEdge
  rw [hclass]
  split
  · exact readBit_configure f _ iv.closed s
  · rfl
  · rfl

theorem bitSecondEdge_configure (iv : Interval) (s : State) :
    bitSecondEdge iv (configure f s) = configure f (bitSecondEdge iv s) := by
  have hclass : classifyIn .bitSecond iv (configure f s) = classifyIn .bitSecond iv s := rfl
  unfold bitSecondEdge
  rw [hclass]
  split
  · exact readBit_configure f _ iv.closed s
  · rfl

theorem stopFirstEdge_configure (iv : Interval) (s : State) :
    stopFirstEdge iv (configure f s) = configure f (stopFirstEdge iv s) := by
  have hclass : classifyIn .stopFirst iv (configure f s) = classifyIn .stopFirst iv s := rfl
  unfold stopFirstEdge
  rw [hclass]
  split
  · exact readBit_configure f 1 iv.closed s
  · rfl
  · rfl
  · rfl

theorem stopSecondEdge_configure (iv : Interval) (s : State) :
    stopSecondEdge iv (configure f s) = configure f (stopSecondEdge iv s) := by
  have hclass : classifyIn .stopSecond iv (configure f s) = classifyIn .stopSecond iv s := rfl
  unfold stopSecondEdge
  rw [hclass]
  split
  · exact readBit_configure f 1 iv.closed s
  · rfl
  · rfl

theorem intervalRule_configure (ph : Phase) (iv : Interval) (s : State) :
    intervalRule ph iv (configure f s) = (intervalRule ph iv s).map (configure f) := by
  cases ph
  case scan => exact congrArg some (scanEdge_configure f iv s)
  case startNext => exact congrArg some (startNextEdge_configure f iv s)
  case startHalf => exact congrArg some (startHalfEdge_configure f iv s)
  case bitFirst => exact congrArg some (bitFirstEdge_configure f iv s)
  case bitSecond => exact congrArg some (bitSecondEdge_configure f iv s)
  case stopFirst => exact congrArg some (stopFirstEdge_configure f iv s)
  case stopSecond => exact congrArg some (stopSecondEdge_configure f iv s)
  case stopProbe => rfl

theorem replay_configure (s : State) : replay (configure f s) = configure f (replay s) := by
  cases hheld : s.nextValid with
  | false => rw [replay_of_empty s hheld, replay_of_empty (configure f s) hheld]
  | true =>
    rw [replay_of_held s hheld, replay_of_held (configure f s) hheld]
    exact scanEdge_configure f _ (moveCursor s.nextSample { s with nextValid := false })

theorem probeStep_configure (s : State) : probeStep (configure f s) = configure f (probeStep s) := by
  have hprobe : probe (probeSamples (configure f s)) (configure f s) = probe (probeSamples s) s := rfl
  unfold probeStep
  rw [hprobe]
  split
  · rfl
  · exact replay_configure f (stopConfirmed s)
  · exact replay_configure f (raiseStopVerify s)

theorem acceptEdge_configure (e : Sample) (s : State) : acceptEdge e (configure f s) = configure f (acceptEdge e s) := by
  have hrule : intervalRule (configure f s).phase (intervalTo e (configure f s)) (moveCursor e (configure f s)) =
      (intervalRule s.phase (intervalTo e s) (moveCursor e s)).map (configure f) :=
    intervalRule_configure f s.phase (intervalTo e s) (moveCursor e s)
  unfold acceptEdge
  rw [hrule]
  cases intervalRule s.phase (intervalTo e s) (moveCursor e s) with
  | some t => rfl
  | none => exact probeStep_configure f (hold e s)

/-! ## The rows -/

theorem exec_cancel_configure (s : State) : ∃ t, exec .cancel s = .next t ∧ exec .cancel (configure f s) = .next (configure f t) := by
  show ∃ t, execCancel s = .next t ∧ execCancel (configure f s) = .next (configure f t)
  have hrun : (configure f s).running = s.running := rfl
  unfold execCancel
  rw [hrun]
  split
  · exact ⟨_, rfl, rfl⟩
  · exact ⟨_, rfl, rfl⟩

theorem exec_edge_configure (e : Sample) (s : State) :
    ∃ t, exec (.edge e) s = .next t ∧ exec (.edge e) (configure f s) = .next (configure f t) := by
  have hrun : (configure f s).running = s.running := rfl
  have horder : breaksOrder e (configure f s) = breaksOrder e s := rfl
  rw [exec_edge, exec_edge, execEdge, execEdge, hrun, horder]
  split
  · split
    · exact ⟨_, rfl, rfl⟩
    · exact ⟨_, rfl, congrArg Host.Outcome.next (acceptEdge_configure f e s)⟩
  · exact ⟨_, rfl, rfl⟩

theorem exec_quiet_configure (h : Sample) (s : State) :
    ∃ t, exec (.quiet h) s = .next t ∧ exec (.quiet h) (configure f s) = .next (configure f t) := by
  have hrun : (configure f s).running = s.running := rfl
  have hphase : (configure f s).phase = s.phase := rfl
  rw [exec_quiet, exec_quiet, execQuiet, execQuiet, hrun, hphase]
  split
  · split
    · exact ⟨_, rfl, congrArg Host.Outcome.next (probeStep_configure f (raiseHorizon h s))⟩
    · exact ⟨_, rfl, rfl⟩
  · exact ⟨_, rfl, rfl⟩

end

/-- Settles O28: the write is a change of the configuration, which each of the three rows commutes with. -/
theorem configurationWaitsForStart : Obligations.ConfigurationWaitsForStart := by
  unfold Obligations.ConfigurationWaitsForStart
  intro r v i s s1 hwrite hrow
  obtain ⟨f, rfl, hf⟩ := exists_configure_of_writeReg hwrite
  have hcommute : ∃ t, exec i s = .next t ∧ exec i (configure f s) = .next (configure f t) := by
    obtain rfl | ⟨e, rfl⟩ | ⟨h, rfl⟩ := hrow
    · exact exec_cancel_configure f s
    · exact exec_edge_configure f e s
    · exact exec_quiet_configure f h s
  obtain ⟨t, ht, ht1⟩ := hcommute
  exact ⟨t, configure f t, ht, hf t, ht1⟩

end Sys2Proof.Machine
end

