-- ==== Sys2Proof/Proofs/Packets.lean ====
section
/-! PROOF. A packet decodes to its bytes (46_output_records.md R250, 95_test_vectors.md V-RT-1). `Reaches` says where intervals of given
classes lead, wherever in their windows they lie; the parts of a packet (preamble, START form, bits, STOP form) are one lemma each, and
composed in the order of the packet. -/

namespace Sys2Proof.Machine

/-! ## Where intervals lead -/

/-- After intervals of the multiples `ks`, each fitting its multiple and within range, `Q` holds. -/
def Reaches : List Nat → (State → Prop) → State → Prop
  | [], Q, s => Q s
  | k :: ks, Q, s =>
    1 ≤ k ∧ ∀ d, distanceFits s.halfbit.toNat s.tol.toNat k d → s.cursample.toNat + d < 2 ^ 63 →
      Reaches ks Q (acceptEdge (BitVec.ofNat 64 (s.cursample.toNat + d)) s)

/-- A decoder that can take the next transition of a line. -/
structure Listening (s : State) : Prop where
  running : s.running = true
  timing : TimingLegal s
  lookahead_empty : s.nextValid = false
  horizon_behind : s.horizon.toNat ≤ s.cursample.toNat

theorem TimingLegal.of_fixedPart_eq {s t : State} (hs : TimingLegal s) (h : fixedPart t = fixedPart s) : TimingLegal t := by
  have hpart : TimingLegal (fixedPart t) := by
    rw [h]
    exact hs
  exact hpart

/-- The EDGE at distance `d` is accepted, and the decoder goes on listening `d` samples later. -/
theorem Listening.next {s : State} (hs : Listening s) {k d : Nat} (hk : 1 ≤ k)
    (hfits : distanceFits s.halfbit.toNat s.tol.toNat k d) (hrange : s.cursample.toNat + d < 2 ^ 63) :
    exec (.edge (BitVec.ofNat 64 (s.cursample.toNat + d))) s =
        .next (acceptEdge (BitVec.ofNat 64 (s.cursample.toNat + d)) s) ∧
      Listening (acceptEdge (BitVec.ofNat 64 (s.cursample.toNat + d)) s) ∧
      fixedPart (acceptEdge (BitVec.ofNat 64 (s.cursample.toNat + d)) s) = fixedPart s ∧
      (acceptEdge (BitVec.ofNat 64 (s.cursample.toNat + d)) s).cursample.toNat = s.cursample.toNat + d := by
  obtain ⟨-, -, -, htol, -⟩ := hs.timing
  have hpos : 0 < d := by
    have hperiod := Nat.le_mul_of_pos_left s.halfbit.toNat hk
    have hlow := hfits.1
    omega
  have hsample : (BitVec.ofNat 64 (s.cursample.toNat + d)).toNat = s.cursample.toNat + d := by
    rw [BitVec.toNat_ofNat, Nat.mod_eq_of_lt (by omega)]
  have hbehind := hs.horizon_behind
  have houtcome := acceptEdge_outcome (BitVec.ofNat 64 (s.cursample.toNat + d)) s
  have hfixed := houtcome.fixedPart_eq
  have hcursor : (acceptEdge (BitVec.ofNat 64 (s.cursample.toNat + d)) s).cursample.toNat = s.cursample.toNat + d := by
    rw [houtcome.cursor_moved.1, hsample]
  obtain ⟨-, -, -, -, hrunning, hhorizon, -⟩ := fields_of_fixedPart_eq hfixed
  refine ⟨execEdge_accepted _ s ⟨hs.running, by omega, by omega⟩, ⟨?_, hs.timing.of_fixedPart_eq hfixed, ?_, ?_⟩, hfixed, hcursor⟩
  · exact hrunning.trans hs.running
  · exact houtcome.lookahead_empty hs.lookahead_empty
  · rw [hhorizon, hcursor]
    omega

/-- Performing the EDGEs of fitting distances leads where the intervals lead. -/
theorem perform_of_reaches {ks ds : List Nat} {Q : State → Prop} {s : State} (h : Reaches ks Q s) (hs : Listening s)
    (hfits : List.Forall₂ (distanceFits s.halfbit.toNat s.tol.toNat) ks ds) (hrange : s.cursample.toNat + ds.sum < 2 ^ 63) :
    ∃ t, Q t ∧ Listening t ∧ t.cursample.toNat = s.cursample.toNat + ds.sum ∧
      ∀ rest, perform (edgesOf 1 s.cursample.toNat ds ++ rest) s = perform rest t := by
  induction ks generalizing s ds with
  | nil =>
    cases hfits
    exact ⟨s, h, hs, rfl, fun rest => rfl⟩
  | cons k ks ih =>
    obtain _ | @⟨_, d, _, ds, hd, hds⟩ := hfits
    rw [List.sum_cons] at hrange
    obtain ⟨hexec, hlistening, hfixed, hcursor⟩ := hs.next h.1 hd (by omega)
    obtain ⟨hhalfbit, htol, -⟩ := fields_of_fixedPart_eq hfixed
    obtain ⟨t, hQ, ht, hend, hperform⟩ :=
      ih (h.2 d hd (by omega)) hlistening (by rwa [hhalfbit, htol]) (by rw [hcursor]; omega)
    refine ⟨t, hQ, ht, by rw [hend, hcursor, List.sum_cons, Nat.add_assoc], fun rest => ?_⟩
    have hrest := hperform rest
    rw [hcursor] at hrest
    rw [edgesOf, Nat.mul_one, List.cons_append, perform, hexec]
    exact hrest

/-! ## Windows of a fitting distance -/

section
variable {s : State} {k d : Nat} (hfits : distanceFits s.halfbit.toNat s.tol.toNat k d) (hrange : s.cursample.toNat + d < 2 ^ 63)
include hfits hrange

/-- It lies in the window of its multiple. -/
theorem intervalIn_of_fits : intervalIn k (BitVec.ofNat 64 (s.cursample.toNat + d)) s = true := by
  obtain ⟨hlow, hhigh, -⟩ := hfits
  rw [intervalIn_iff, BitVec.toNat_ofNat, Nat.mod_eq_of_lt (by omega)]
  omega

/-- It lies in no smaller window: a `Full` and a `Long5` by what fitting means, the others because the windows are far apart. -/
theorem intervalIn_eq_false_of_fits (hlegal : TimingLegal s) {j : Nat} (hjk : j < k) (hkind : k = 2 ∨ k = 5 ∨ j + 2 ≤ k) :
    ¬ intervalIn j (BitVec.ofNat 64 (s.cursample.toNat + d)) s = true := by
  obtain ⟨hlow, -, hbeyond⟩ := hfits
  obtain ⟨-, -, -, htol, -⟩ := hlegal
  have hgap : j * s.halfbit.toNat + s.tol.toNat < d := by
    by_cases hk : k = 2 ∨ k = 5
    · have hmul := Nat.mul_le_mul_right s.halfbit.toNat (show j ≤ k - 1 by omega)
      have := hbeyond hk
      omega
    · have hmul := Nat.mul_le_mul_right s.halfbit.toNat (show j + 2 ≤ k by omega)
      rw [Nat.add_mul] at hmul
      omega
  rw [intervalIn_iff, BitVec.toNat_ofNat, Nat.mod_eq_of_lt (by omega)]
  omega

end

/-! ## What has come out so far -/

/-- Behind `base`, OUT holds frames of the given kinds and values, and no ErrorDot. -/
def Emitted (base : List Record) (values : List (FrameKind × Word64)) (s : State) : Prop :=
  ∃ recs, s.out = base ++ recs ∧ frameValues recs = values ∧ hasErrorDot recs = false

theorem Emitted.append {base recs : List Record} {values more : List (FrameKind × Word64)} {s t : State}
    (h : Emitted base values s) (hout : t.out = s.out ++ recs) (hvalues : frameValues recs = more)
    (hclean : hasErrorDot recs = false) : Emitted base (values ++ more) t := by
  obtain ⟨before, hs, hv, hc⟩ := h
  refine ⟨before ++ recs, by rw [hout, hs, List.append_assoc], ?_, ?_⟩
  · rw [← hv, ← hvalues, frameValues, List.filterMap_append]
    rfl
  · rw [hasErrorDot, List.any_append, Bool.or_eq_false_iff]
    exact ⟨hc, hclean⟩

theorem Emitted.of_out_eq {base : List Record} {values : List (FrameKind × Word64)} {s t : State} (h : Emitted base values s)
    (hout : t.out = s.out) : Emitted base values t := by
  rwa [Emitted, hout]

/-- A state on the way through a packet that began in `s0`. -/
structure Midway (s0 : State) (values : List (FrameKind × Word64)) (count : Nat) (number : Word64) (level : Level) (phase : Phase)
    (t : State) : Prop where
  fixed : fixedPart t = fixedPart s0
  emitted : Emitted s0.out values t
  count_eq : t.synccount.toNat = count
  number_eq : t.pktseq = number
  level_eq : t.curlevel = level
  phase_eq : t.phase = phase

section
variable {s0 : State} {values : List (FrameKind × Word64)} {count : Nat} {number : Word64} {level : Level} {phase : Phase} {s : State}

theorem Midway.timing (h : Midway s0 values count number level phase s) (hlegal : TimingLegal s0) : TimingLegal s :=
  hlegal.of_fixedPart_eq h.fixed

/-- The cursor's move inverts the level and nothing else; the rule of the phase may change the phase. -/
theorem Midway.moved (h : Midway s0 values count number level phase s) (e : Sample) (phase' : Phase) :
    Midway s0 values count number (otherLevel level) phase' { moveCursor e s with phase := phase' } where
  fixed := h.fixed
  emitted := h.emitted.of_out_eq rfl
  count_eq := h.count_eq
  number_eq := h.number_eq
  level_eq := congrArg otherLevel h.level_eq
  phase_eq := rfl

/-- ONE_LEVEL is latched with the polarity. -/
theorem Midway.oneLevel_eq (h : Midway s0 values count number level phase s) : oneLevel s = oneLevel s0 := by
  obtain ⟨-, -, -, hinv, -⟩ := fields_of_fixedPart_eq h.fixed
  rw [oneLevel, oneLevel, hinv]

end

/-! ## The preamble (43_preamble_scan.md R171) -/

/-- A `Half` in SCAN is counted. -/
theorem reaches_half_in_scan {s0 : State} {n : Nat} {level : Level} {s : State} {Q : State → Prop} {ks : List Nat}
    (hs : Midway s0 [] n s0.pktseq level .scan s) (hn : n + 1 < 2 ^ 32)
    (hnext : ∀ t, Midway s0 [] (n + 1) s0.pktseq (otherLevel level) .scan t → Reaches ks Q t) : Reaches (1 :: ks) Q s := by
  refine ⟨le_rfl, fun d hfits hrange => hnext _ ?_⟩
  rw [acceptEdge_in_scan hs.phase_eq, if_pos (intervalIn_of_fits hfits hrange)]
  refine ⟨hs.fixed, hs.emitted.of_out_eq rfl, ?_, hs.number_eq, congrArg otherLevel hs.level_eq, hs.phase_eq⟩
  show (sat32 (s.synccount.toNat + 1)).toNat = n + 1
  rw [sat32_succ_toNat, hs.count_eq]
  omega

theorem reaches_preamble {s0 : State} {m n : Nat} {level : Level} {s : State} {Q : State → Prop} {ks : List Nat}
    (hs : Midway s0 [] n s0.pktseq level .scan s) (hn : n + m < 2 ^ 32)
    (hnext : ∀ t, Midway s0 [] (n + m) s0.pktseq (otherLevel^[m] level) .scan t → Reaches ks Q t) :
    Reaches (List.replicate m 1 ++ ks) Q s := by
  induction m generalizing n level s with
  | zero => exact hnext s hs
  | succ m ih =>
    refine reaches_half_in_scan hs (by omega) fun t ht => ih ht (by omega) fun u hu => hnext u ?_
    rwa [Nat.add_assoc, Nat.add_comm 1 m] at hu

/-- The preamble ends at the level that is not ONE_LEVEL, with `R` sync bits counted. -/
theorem preambleIntervals_spec (r : Nat) (one level : Level) :
    otherLevel (otherLevel^[preambleIntervals r one level] level) = one ∧ 2 * r ≤ preambleIntervals r one level ∧
      preambleIntervals r one level / 2 = r := by
  have hinvolutive : Function.Involutive otherLevel := otherLevel_other
  unfold preambleIntervals
  split
  · next hone =>
    refine ⟨?_, by omega, by omega⟩
    rw [Function.iterate_succ_apply, hinvolutive.iterate_two_mul, id, otherLevel_other, hone]
  · next hnot =>
    refine ⟨?_, by omega, by omega⟩
    rw [hinvolutive.iterate_two_mul, id]
    revert hnot
    cases level <;> cases one <;> decide

/-! ## The START form (43_preamble_scan.md R173 to R181) -/

/-- The level of a bit (00_scope.md R11). -/
def bitLevel (s0 : State) (b : Bool) : Level := if b then oneLevel s0 else otherLevel (oneLevel s0)

theorem bitLevel_not (s0 : State) (b : Bool) : otherLevel (bitLevel s0 b) = bitLevel s0 (!b) := by
  cases b
  · exact otherLevel_other _
  · rfl

/-- At the level of a bit, that bit is read. -/
theorem Midway.bitValue_eq {s0 : State} {values : List (FrameKind × Word64)} {count : Nat} {number : Word64} {phase : Phase} {s : State}
    {b : Bool} (h : Midway s0 values count number (bitLevel s0 b) phase s) : bitValue s = b := by
  rw [bitValue, h.oneLevel_eq, h.level_eq, bitLevel]
  cases b <;> cases oneLevel s0 <;> rfl

/-- A `Long5` to ONE_LEVEL after a long enough run opens the START symbol (R173). -/
theorem reaches_long5_in_scan {s0 : State} {n : Nat} {level : Level} {s : State} {Q : State → Prop} {ks : List Nat}
    (hs : Midway s0 [] n s0.pktseq level .scan s) (hlegal : TimingLegal s0) (hlevel : otherLevel level = oneLevel s0)
    (hn : 2 * s0.rsync.toNat ≤ n)
    (hnext : ∀ t, Midway s0 [] n s0.pktseq (oneLevel s0) .startNext t → Reaches ks Q t) : Reaches (5 :: ks) Q s := by
  refine ⟨by decide, fun d hfits hrange => hnext _ ?_⟩
  obtain ⟨-, -, hrsync, -⟩ := fields_of_fixedPart_eq hs.fixed
  have hnot := intervalIn_eq_false_of_fits hfits hrange (hs.timing hlegal) (j := 1) (by decide) (by decide)
  have hreached : otherLevel s.curlevel = (if s.invL then .high else .low) := by
    rw [← Machine.oneLevel_eq, hs.oneLevel_eq, hs.level_eq, hlevel]
  have hcount : 2 * s.rsync.toNat ≤ s.synccount.toNat := by rwa [hrsync, hs.count_eq]
  rw [acceptEdge_in_scan hs.phase_eq, if_neg hnot,
    if_pos ⟨intervalIn_of_fits hfits hrange, hcount, hreached⟩, ← hlevel]
  exact
    { fixed := hs.fixed, emitted := hs.emitted.of_out_eq rfl, count_eq := hs.count_eq, number_eq := hs.number_eq,
      level_eq := congrArg otherLevel hs.level_eq, phase_eq := rfl }

/-- In a byte: the last bit read is `p`, and the bits read so far stand in BITIDX and BYTE_ACC. -/
structure InByte (s0 : State) (values : List (FrameKind × Word64)) (bits : List Bool) (p : Bool) (t : State) : Prop where
  midway : Midway s0 values 0 (s0.pktseq + 1#64) (bitLevel s0 p) .bitFirst t
  index : t.bitidx.toNat = bits.length
  value : t.byteAcc = bits.foldl shiftIn 0#8

/-- The two frames of a synchronization, with the number of sync bits and the new packet number. -/
def syncValues (s0 : State) : List (FrameKind × Word64) := [(.sync, s0.rsync.setWidth 64), (.start, s0.pktseq + 1#64)]

/-- A synchronization at the level of the first bit reports the preamble and the packet, and reads that bit (R177, R180). -/
theorem inByte_syncSuccess {s0 : State} {n : Nat} {b : Bool} {phase : Phase} {s : State}
    (hs : Midway s0 [] n s0.pktseq (bitLevel s0 b) phase s) (hn : n / 2 = s0.rsync.toNat) (e : Sample) :
    InByte s0 (syncValues s0) [b] b (syncSuccess e s) := by
  have hbit : bitValue (synchronize e s) = b := hs.bitValue_eq
  have hprimary : BitVec.ofNat 64 (s.synccount.toNat / 2) = s0.rsync.setWidth 64 := by rw [hs.count_eq, hn, BitVec.ofNat_toNat]
  refine ⟨⟨(fixedPart_readBit ..).trans hs.fixed, ?emitted, ?count, ?number, ?level, readBit_phase ..⟩, ?index, ?value⟩
  case emitted =>
    refine hs.emitted.append (syncSuccess_out e s) ?_ ?_
    · rw [hs.number_eq, syncFrameRecords, hprimary]
      cases bitValue s <;> rfl
    · cases bitValue s <;> rfl
  case count => simp [syncSuccess]
  case number =>
    rw [syncSuccess, readBit_pktseq, synchronize_pktseq, hs.number_eq]
  case level => simp [syncSuccess, hs.level_eq]
  case index => rw [syncSuccess, readBit_bitidx]; rfl
  case value => rw [syncSuccess, readBit_byteAcc, hbit]; rfl

/-- A `Long4` in START_NEXT waits for its `Half` (R175). -/
theorem reaches_long4_in_startNext {s0 : State} {n : Nat} {s : State} {Q : State → Prop} {ks : List Nat}
    (hs : Midway s0 [] n s0.pktseq (oneLevel s0) .startNext s)
    (hnext : ∀ t, Midway s0 [] n s0.pktseq (otherLevel (oneLevel s0)) .startHalf t → Reaches ks Q t) : Reaches (4 :: ks) Q s := by
  refine ⟨by decide, fun d hfits hrange => hnext _ ?_⟩
  rw [acceptEdge_in_startNext hs.phase_eq,
    if_pos (intervalIn_of_fits hfits hrange)]
  exact hs.moved _ .startHalf

/-- A `Long5` in START_NEXT synchronizes with a first bit 0 (R175). -/
theorem reaches_long5_in_startNext {s0 : State} {n : Nat} {s : State} {Q : State → Prop} {ks : List Nat}
    (hs : Midway s0 [] n s0.pktseq (oneLevel s0) .startNext s) (hlegal : TimingLegal s0) (hn : n / 2 = s0.rsync.toNat)
    (hnext : ∀ t, InByte s0 (syncValues s0) [false] false t → Reaches ks Q t) : Reaches (5 :: ks) Q s := by
  refine ⟨by decide, fun d hfits hrange => hnext _ ?_⟩
  have hnot := intervalIn_eq_false_of_fits hfits hrange (hs.timing hlegal) (j := 4) (by decide) (by decide)
  rw [acceptEdge_in_startNext hs.phase_eq, if_neg hnot,
    if_pos (intervalIn_of_fits hfits hrange)]
  exact inByte_syncSuccess (b := false) (hs.moved _ s.phase) hn _

/-- A `Half` in START_HALF synchronizes with a first bit 1 (R176). -/
theorem reaches_half_in_startHalf {s0 : State} {n : Nat} {s : State} {Q : State → Prop} {ks : List Nat}
    (hs : Midway s0 [] n s0.pktseq (otherLevel (oneLevel s0)) .startHalf s) (hn : n / 2 = s0.rsync.toNat)
    (hnext : ∀ t, InByte s0 (syncValues s0) [true] true t → Reaches ks Q t) : Reaches (1 :: ks) Q s := by
  refine ⟨le_rfl, fun d hfits hrange => hnext _ ?_⟩
  have hmoved := hs.moved (BitVec.ofNat 64 (s.cursample.toNat + d)) s.phase
  rw [otherLevel_other] at hmoved
  rw [acceptEdge_in_startHalf hs.phase_eq,
    if_pos (intervalIn_of_fits hfits hrange)]
  exact inByte_syncSuccess (b := true) hmoved hn _

/-- The START symbol with the first bit: `Long5`, then `Long4` and `Half` for a bit 1, one more `Long5` for a bit 0 (R181). -/
theorem reaches_start_form {s0 : State} {n : Nat} {level : Level} {b : Bool} {s : State} {Q : State → Prop} {ks : List Nat}
    (hs : Midway s0 [] n s0.pktseq level .scan s) (hlegal : TimingLegal s0) (hlevel : otherLevel level = oneLevel s0)
    (hlong : 2 * s0.rsync.toNat ≤ n) (hn : n / 2 = s0.rsync.toNat)
    (hnext : ∀ t, InByte s0 (syncValues s0) [b] b t → Reaches ks Q t) :
    Reaches ((if b then [5, 4, 1] else [5, 5]) ++ ks) Q s := by
  cases b with
  | false =>
    exact reaches_long5_in_scan hs hlegal hlevel hlong fun t ht => reaches_long5_in_startNext ht hlegal hn hnext
  | true =>
    exact reaches_long5_in_scan hs hlegal hlevel hlong fun t ht =>
      reaches_long4_in_startNext ht fun u hu => reaches_half_in_startHalf hu hn hnext

/-! ## Bits (44_byte_decode.md R203 to R209) -/

/-- The intervals to the next bit: one `Full` to the other level, two `Half`s back to the same one. -/
theorem bitIntervals_cons (p b : Bool) (bits : List Bool) :
    bitIntervals p (b :: bits) = (if b = p then [1, 1] else [2]) ++ bitIntervals b bits := rfl

/-- `m` is `s` at a decision edge: the byte and OUT are as they were, and the level is that of bit `b`. -/
structure AtDecision (s0 : State) (b : Bool) (s m : State) : Prop where
  fixed : fixedPart m = fixedPart s
  out_eq : m.out = s.out
  count_eq : m.synccount = s.synccount
  number_eq : m.pktseq = s.pktseq
  value_eq : m.byteAcc = s.byteAcc
  level_eq : m.curlevel = bitLevel s0 b

theorem AtDecision.midway {s0 : State} {values : List (FrameKind × Word64)} {count : Nat} {number : Word64} {level : Level}
    {phase : Phase} {b : Bool} {s m : State} (hm : AtDecision s0 b s m) (hs : Midway s0 values count number level phase s) :
    Midway s0 values count number (bitLevel s0 b) m.phase m where
  fixed := hm.fixed.trans hs.fixed
  emitted := hs.emitted.of_out_eq hm.out_eq
  count_eq := by rw [hm.count_eq, hs.count_eq]
  number_eq := by rw [hm.number_eq, hs.number_eq]
  level_eq := hm.level_eq
  phase_eq := rfl

/-- The intervals of the next bit lead to its decision edge, in any phase that waits for a second `Half` after a first one and reads a bit
at a `Full` or a second `Half`. -/
theorem reaches_bit {s0 : State} {p b : Bool} {s : State} {Q : State → Prop} {ks : List Nat} {second : Phase} {j : Nat}
    (hlevel : s.curlevel = bitLevel s0 p) (hlegal : TimingLegal s)
    (hhalf : ∀ e, intervalIn 1 e s = true → acceptEdge e s = { moveCursor e s with phase := second })
    (hfull : ∀ e, ¬intervalIn 1 e s = true → intervalIn 2 e s = true → acceptEdge e s = readBit j e (moveCursor e s))
    (hsecond : ∀ e m, m.phase = second → m.bitidx = s.bitidx → intervalIn 1 e m = true →
      acceptEdge e m = readBit j e (moveCursor e m))
    (hnext : ∀ e m, AtDecision s0 b s m → Reaches ks Q (readBit j e m)) :
    Reaches ((if b = p then [1, 1] else [2]) ++ ks) Q s := by
  by_cases hsame : b = p
  · rw [if_pos hsame]
    refine ⟨le_rfl, fun d hfits hrange => ?_⟩
    rw [hhalf _ (intervalIn_of_fits hfits hrange)]
    refine ⟨le_rfl, fun d' hfits' hrange' => ?_⟩
    rw [hsecond _ { moveCursor _ s with phase := second } rfl rfl (intervalIn_of_fits hfits' hrange')]
    refine hnext _ _ ⟨rfl, rfl, rfl, rfl, rfl, ?_⟩
    rw [hsame, ← hlevel]
    exact otherLevel_other s.curlevel
  · rw [if_neg hsame]
    refine ⟨by decide, fun d hfits hrange => ?_⟩
    have hnot := intervalIn_eq_false_of_fits hfits hrange hlegal (j := 1) (by decide) (by decide)
    rw [hfull _ hnot (intervalIn_of_fits hfits hrange)]
    refine hnext _ _ ⟨rfl, rfl, rfl, rfl, rfl, ?_⟩
    rw [Bool.eq_not_of_ne hsame, ← bitLevel_not, ← hlevel]
    rfl

/-- In a byte (R204, R205). -/
theorem reaches_bit_in_byte {s0 : State} {p b : Bool} {s : State} {Q : State → Prop} {ks : List Nat} (hphase : s.phase = .bitFirst)
    (hlevel : s.curlevel = bitLevel s0 p) (hlegal : TimingLegal s)
    (hnext : ∀ e m, AtDecision s0 b s m → Reaches ks Q (readBit (s.bitidx.toNat + 1) e m)) :
    Reaches ((if b = p then [1, 1] else [2]) ++ ks) Q s := by
  refine reaches_bit hlevel hlegal (second := .bitSecond) (fun e hhalf => ?_) (fun e hnot hfull => ?_) (fun e m hm hindex hhalf => ?_)
    hnext
  · rw [acceptEdge_in_bitFirst hphase, if_pos hhalf]
  · rw [acceptEdge_in_bitFirst hphase, if_neg hnot, if_pos hfull]
  · rw [acceptEdge_in_bitSecond hm, if_pos hhalf, hindex]

/-- Behind a byte, where the next bit is bit 1 of the next byte (45_stop_detect.md R221, R222). -/
theorem reaches_bit_after_byte {s0 : State} {p b : Bool} {s : State} {Q : State → Prop} {ks : List Nat} (hphase : s.phase = .stopFirst)
    (hlevel : s.curlevel = bitLevel s0 p) (hlegal : TimingLegal s)
    (hnext : ∀ e m, AtDecision s0 b s m → Reaches ks Q (readBit 1 e m)) :
    Reaches ((if b = p then [1, 1] else [2]) ++ ks) Q s := by
  refine reaches_bit hlevel hlegal (second := .stopSecond) (fun e hhalf => ?_) (fun e hnot hfull => ?_) (fun e m hm _ hhalf => ?_) hnext
  · rw [acceptEdge_in_stopFirst hphase, if_pos hhalf]
  · rw [acceptEdge_in_stopFirst hphase, if_neg hnot, if_pos hfull]
  · rw [acceptEdge_in_stopSecond hm, if_pos hhalf]

/-- Behind a whole byte whose last bit is `p`. -/
def AfterByte (s0 : State) (values : List (FrameKind × Word64)) (p : Bool) (t : State) : Prop :=
  Midway s0 values 0 (s0.pktseq + 1#64) (bitLevel s0 p) .stopFirst t

/-- A bit before the eighth is taken into the byte. -/
theorem inByte_readBit {s0 : State} {values : List (FrameKind × Word64)} {phase : Phase} {level : Level} {bits : List Bool} {b : Bool}
    {j : Nat} {s m : State} (hs : Midway s0 values 0 (s0.pktseq + 1#64) level phase s) (hm : AtDecision s0 b s m)
    (hj : j = bits.length + 1) (hlt : j < 8) (hvalue : (if j = 1 then 0#8 else s.byteAcc) = bits.foldl shiftIn 0#8) (e : Sample) :
    InByte s0 values (bits ++ [b]) b (readBit j e m) := by
  have hmid := hm.midway hs
  have hout := readBit_out j e m
  rw [if_pos hlt] at hout
  refine ⟨⟨(fixedPart_readBit ..).trans hmid.fixed, ?_, ?_, ?_, ?_, ?_⟩, ?_, ?_⟩
  · have hemitted := hmid.emitted.append hout (more := []) (by cases bitValue m <;> rfl) (by cases bitValue m <;> rfl)
    rwa [List.append_nil] at hemitted
  · rw [readBit_synccount, hmid.count_eq]
  · rw [readBit_pktseq, hmid.number_eq]
  · rw [readBit_curlevel, hmid.level_eq]
  · rw [readBit_phase, if_pos hlt]
  · rw [readBit_bitidx, BitVec.toNat_ofNat, Nat.mod_eq_of_lt (by omega), hj, List.length_append, List.length_singleton]
  · rw [readBit_byteAcc, hm.value_eq, hvalue, hmid.bitValue_eq, List.foldl_append]
    rfl

/-- The eighth bit completes the byte, which goes out as a Data frame (R206). -/
theorem afterByte_readBit {s0 : State} {values : List (FrameKind × Word64)} {phase : Phase} {level : Level} {bits : List Bool} {b : Bool}
    {s m : State} (hs : Midway s0 values 0 (s0.pktseq + 1#64) level phase s) (hm : AtDecision s0 b s m)
    (hvalue : s.byteAcc = bits.foldl shiftIn 0#8) (e : Sample) :
    AfterByte s0 (values ++ [(.data, ((bits ++ [b]).foldl shiftIn 0#8).setWidth 64)]) b (readBit 8 e m) := by
  have hmid := hm.midway hs
  have hbyte : (takeBit 8 e m).byteAcc = (bits ++ [b]).foldl shiftIn 0#8 := by
    rw [List.foldl_append, ← hvalue, ← hm.value_eq, ← hmid.bitValue_eq]
    rfl
  refine ⟨(fixedPart_readBit ..).trans hmid.fixed, ?_, ?_, ?_, ?_, readBit_phase ..⟩
  · refine hmid.emitted.append (readBit_out 8 e m) ?_ ?_
    · rw [hbyte]
      cases bitValue m <;> rfl
    · cases bitValue m <;> rfl
  · rw [readBit_synccount, hmid.count_eq]
  · rw [readBit_pktseq, hmid.number_eq]
  · rw [readBit_curlevel, hmid.level_eq]

/-! ## Bytes -/

/-- The remaining bits of a byte lead behind it, and its value goes out. -/
theorem reaches_rest_of_byte {s0 : State} {values : List (FrameKind × Word64)} {tail : List Bool} {Q : State → Prop} {ks : List Nat}
    (hlegal : TimingLegal s0) {more bits : List Bool} {p q : Bool} {s : State} (hs : InByte s0 values bits p s)
    (hlength : bits.length + more.length = 8) (hshort : bits ≠ [] ∧ bits.length < 8) (hlast : more.getLast? = some q)
    (hnext : ∀ t, AfterByte s0 (values ++ [(.data, ((bits ++ more).foldl shiftIn 0#8).setWidth 64)]) q t →
      Reaches (bitIntervals q tail ++ ks) Q t) : Reaches (bitIntervals p (more ++ tail) ++ ks) Q s := by
  induction more generalizing bits p s with
  | nil => simp at hlast
  | cons b more ih =>
    have hbits := List.length_pos_iff.mpr hshort.1
    rw [List.length_cons] at hlength
    rw [List.cons_append, bitIntervals_cons, List.append_assoc]
    refine reaches_bit_in_byte hs.midway.phase_eq hs.midway.level_eq (hs.midway.timing hlegal) fun e m hm => ?_
    cases more with
    | nil =>
      obtain rfl : b = q := by simpa using hlast
      rw [List.length_nil] at hlength
      rw [hs.index, show bits.length + 1 = 8 by omega]
      exact hnext _ (afterByte_readBit hs.midway hm hs.value e)
    | cons b' more =>
      rw [List.length_cons] at hlength
      have hread : InByte s0 values (bits ++ [b]) b (readBit (s.bitidx.toNat + 1) e m) :=
        inByte_readBit hs.midway hm (by rw [hs.index]) (by rw [hs.index]; omega)
          (by rw [if_neg (by rw [hs.index]; omega), hs.value]) e
      refine ih hread (by simp; omega) (by simp; omega) (by rwa [List.getLast?_cons_cons] at hlast) fun t ht => hnext t ?_
      rwa [List.append_assoc, List.singleton_append] at ht

/-- Eight bits, most significant first, make the byte they were taken from (R203). -/
theorem foldl_shiftIn_bitsOfByte (b : Byte) : (bitsOfByte b).foldl shiftIn 0#8 = b := by
  obtain ⟨h7, h6, h5, h4, h3, h2, h1, h0⟩ := firstBitBecomesBitSeven (b.getLsbD 7) (b.getLsbD 6) (b.getLsbD 5) (b.getLsbD 4)
    (b.getLsbD 3) (b.getLsbD 2) (b.getLsbD 1) (b.getLsbD 0)
  refine BitVec.eq_of_getLsbD_eq fun i hi => ?_
  match i, hi with
  | 0, _ => exact h0
  | 1, _ => exact h1
  | 2, _ => exact h2
  | 3, _ => exact h3
  | 4, _ => exact h4
  | 5, _ => exact h5
  | 6, _ => exact h6
  | 7, _ => exact h7

/-- The values of the Data frames of bytes. -/
def dataValues (bytes : List Byte) : List (FrameKind × Word64) := bytes.map fun b => (.data, b.setWidth 64)

/-- Bytes one after another lead behind the last one. -/
theorem reaches_bytes {s0 : State} {Q : State → Prop} {ks : List Nat} (hlegal : TimingLegal s0) {bytes : List Byte}
    {values : List (FrameKind × Word64)} {p : Bool} {s : State} (hs : AfterByte s0 values p s)
    (hnext : ∀ t q, AfterByte s0 (values ++ dataValues bytes) q t → Reaches ks Q t) :
    Reaches (bitIntervals p (bytes.flatMap bitsOfByte) ++ ks) Q s := by
  induction bytes generalizing values p s with
  | nil => exact hnext s p (by rwa [dataValues, List.map_nil, List.append_nil])
  | cons byte bytes ih =>
    rw [List.flatMap_cons, bitsOfByte, List.cons_append, bitIntervals_cons, List.append_assoc]
    refine reaches_bit_after_byte hs.phase_eq hs.level_eq (hs.timing hlegal) fun e m hm => ?_
    have hread : InByte s0 values [byte.getLsbD 7] (byte.getLsbD 7) (readBit 1 e m) :=
      inByte_readBit (bits := []) hs hm rfl (by decide) rfl e
    refine reaches_rest_of_byte hlegal hread rfl ⟨List.cons_ne_nil _ _, by simp⟩ (q := byte.getLsbD 0) rfl fun t ht => ih ht fun u q hu => hnext u q ?_
    rwa [List.append_assoc, show [byte.getLsbD 7] ++ [byte.getLsbD 6, byte.getLsbD 5, byte.getLsbD 4, byte.getLsbD 3,
      byte.getLsbD 2, byte.getLsbD 1, byte.getLsbD 0] = bitsOfByte byte from rfl, foldl_shiftIn_bitsOfByte] at hu

/-! ## The STOP form (45_stop_detect.md R221 to R229) -/

/-- At the probe of a packet's end. -/
structure AtProbe (s0 : State) (values : List (FrameKind × Word64)) (t : State) : Prop where
  fixed : fixedPart t = fixedPart s0
  emitted : Emitted s0.out values t
  number_eq : t.pktseq = s0.pktseq + 1#64
  phase_eq : t.phase = .stopProbe
  base_eq : t.probeBase = t.cursample

/-- Both STOP forms, `Half` and `Long4` or one `Long5`, lead to the probe. -/
theorem reaches_stop_form {s0 : State} {values : List (FrameKind × Word64)} {p : Bool} {form : List Nat} {s : State}
    (hlegal : TimingLegal s0) (hs : AfterByte s0 values p s) (hform : form = [1, 4] ∨ form = [5]) :
    Reaches form (AtProbe s0 values) s := by
  have htiming := hs.timing hlegal
  obtain rfl | rfl := hform
  · refine ⟨le_rfl, fun d hfits hrange => ?_⟩
    rw [acceptEdge_in_stopFirst hs.phase_eq,
      if_pos (intervalIn_of_fits hfits hrange)]
    refine ⟨by decide, fun d' hfits' hrange' => ?_⟩
    have hnot := intervalIn_eq_false_of_fits hfits' hrange' htiming (j := 1) (by decide) (by decide)
    rw [acceptEdge_in_stopSecond rfl, if_neg hnot, if_pos (intervalIn_of_fits hfits' hrange')]
    exact ⟨hs.fixed, hs.emitted.of_out_eq rfl, hs.number_eq, rfl, rfl⟩
  · refine ⟨by decide, fun d hfits hrange => ?_⟩
    have hnot (j : Nat) (hj : j < 5) := intervalIn_eq_false_of_fits hfits hrange htiming hj (.inr (.inl rfl))
    rw [acceptEdge_in_stopFirst hs.phase_eq, if_neg (hnot 1 (by decide)),
      if_neg (hnot 2 (by decide)), if_pos ⟨intervalIn_of_fits hfits hrange, hnot 4 (by decide)⟩]
    exact ⟨hs.fixed, hs.emitted.of_out_eq rfl, hs.number_eq, rfl, rfl⟩

/-! ## The packet -/

/-- The frames of a packet up to its STOP. -/
def packetValues (s0 : State) (bytes : List Byte) : List (FrameKind × Word64) := syncValues s0 ++ dataValues bytes

/-- From SCAN with nothing counted the intervals of a packet lead to the probe at its end. -/
theorem reaches_packet {s : State} {bytes : List Byte} (hlegal : TimingLegal s) (hphase : s.phase = .scan) (hcount : s.synccount = 0#32)
    (hbytes : bytes ≠ []) :
    Reaches (packetIntervals s.rsync.toNat (oneLevel s) s.curlevel bytes) (AtProbe s (packetValues s bytes)) s := by
  obtain ⟨byte, bytes, rfl⟩ := List.exists_cons_of_ne_nil hbytes
  have hinitial : Midway s [] 0 s.pktseq s.curlevel .scan s :=
    ⟨rfl, ⟨[], by rw [List.append_nil], rfl, rfl⟩, by rw [hcount]; rfl, rfl, rfl, hphase⟩
  obtain ⟨hlevel, hlong, hhalf⟩ := preambleIntervals_spec s.rsync.toNat (oneLevel s) s.curlevel
  have hsmall := s.rsync.isLt
  have hfirst : (byte :: bytes).flatMap bitsOfByte = byte.getLsbD 7 :: ([byte.getLsbD 6, byte.getLsbD 5, byte.getLsbD 4,
    byte.getLsbD 3, byte.getLsbD 2, byte.getLsbD 1, byte.getLsbD 0] ++ bytes.flatMap bitsOfByte) := rfl
  rw [packetIntervals, hfirst]
  refine reaches_preamble hinitial (by omega) fun t ht => ?_
  rw [Nat.zero_add] at ht
  rw [symbolIntervals, List.append_assoc]
  refine reaches_start_form ht hlegal hlevel hlong hhalf fun u hu => ?_
  refine reaches_rest_of_byte hlegal hu rfl ⟨List.cons_ne_nil _ _, by simp⟩ (q := byte.getLsbD 0) rfl fun v hv => ?_
  refine reaches_bytes hlegal hv fun w q hw => ?_
  have hfirstByte := foldl_shiftIn_bitsOfByte byte
  rw [bitsOfByte] at hfirstByte
  rw [List.singleton_append, hfirstByte, List.append_assoc] at hw
  exact reaches_stop_form hlegal hw (ite_eq_or_eq _ _ _)

/-- A probe settled by a QUIET that covers it, or by an EDGE beyond it, confirms the STOP (45_stop_detect.md R224, R225). -/
theorem exec_settling {s0 : State} {values : List (FrameKind × Word64)} {t : State} {h : Sample} {settling : Instr}
    (ht : AtProbe s0 values t) (hlistening : Listening t)
    (hsettling : settling = .quiet h ∧ t.cursample.toNat + 2 * t.halfbit.toNat ≤ h.toNat ∨
      settling = .edge h ∧ t.cursample.toNat + 2 * t.halfbit.toNat < h.toNat) :
    ∃ u, exec settling t = .next u ∧ Emitted s0.out (values ++ [(.stop, 0#64)]) u ∧ u.running = true ∧ u.phase = .scan ∧
      u.synccount = 0#32 ∧ u.pktseq = s0.pktseq + 1#64 := by
  obtain ⟨rfl, hcovers⟩ | ⟨rfl, hbeyond⟩ := hsettling
  · exact ⟨_, exec_quiet_confirms hlistening.running ht.phase_eq hlistening.lookahead_empty hcovers, ht.emitted.append rfl rfl rfl,
      hlistening.running, rfl, rfl, ht.number_eq⟩
  · have hbehind := hlistening.horizon_behind
    have haccepted : EdgeAccepted h t := ⟨hlistening.running, by omega, by omega⟩
    exact ⟨_, exec_edge_confirms haccepted hlistening.timing ht.phase_eq hbeyond, ht.emitted.append rfl rfl rfl,
      hlistening.running, rfl, rfl, ht.number_eq⟩

/-- Settles O60: the intervals of the packet lead to its probe, which is settled behind the last byte. -/
theorem jitteredPacketDecodesToItsBytes : Obligations.JitteredPacketDecodesToItsBytes := by
  unfold Obligations.JitteredPacketDecodesToItsBytes
  intro s bytes distances h settling hrun hlegal hphase hcount hempty hhorizon hbytes hfits last hsettling hrange
  have hlast : last < 2 ^ 63 := by omega
  obtain ⟨t, ht, hlistening, hcursor, hperform⟩ :=
    perform_of_reaches (reaches_packet hlegal hphase hcount hbytes) ⟨hrun, hlegal, hempty, hhorizon⟩ hfits hlast
  obtain ⟨hhalfbit, -⟩ := fields_of_fixedPart_eq ht.fixed
  obtain ⟨u, hexec, ⟨recs, hout, hvalues, hclean⟩, hend⟩ := exec_settling (h := h) ht hlistening (by rwa [hcursor, hhalfbit])
  exact ⟨u, recs, by simp only [hperform, perform, hexec], hout, hvalues, hclean, hend⟩

/-! ## The ideal line (95_test_vectors.md V-RT-1) -/

/-- An exact multiple of T fits its multiple. -/
theorem distanceFits_mul {t tol : Nat} (htol : tol + 1 ≤ t) (k : Nat) : distanceFits t tol k (k * t) := by
  refine ⟨Nat.le_add_right _ _, Nat.le_add_right _ _, fun hk => ?_⟩
  obtain ⟨j, rfl⟩ : ∃ j, k = j + 1 := ⟨k - 1, by omega⟩
  rw [Nat.add_sub_cancel, Nat.succ_mul]
  omega

theorem edgesOf_eq_map (t base : Nat) (ks : List Nat) : edgesOf t base ks = edgesOf 1 base (ks.map (· * t)) := by
  induction ks generalizing base with
  | nil => rfl
  | cons k ks ih => rw [List.map_cons, edgesOf, edgesOf, Nat.mul_one, ih]

/-- Settles O59: the ideal line is a jittered one without jitter, settled by a QUIET at the end of the probe. -/
theorem validPacketDecodesToItsBytes : Obligations.ValidPacketDecodesToItsBytes := by
  unfold Obligations.ValidPacketDecodesToItsBytes
  intro s bytes hrun hlegal hphase hcount hempty hhorizon hbytes shape last hrange
  obtain ⟨-, -, -, htol, -⟩ := id hlegal
  have hfits : List.Forall₂ (distanceFits s.halfbit.toNat s.tol.toNat) shape (shape.map (· * s.halfbit.toNat)) :=
    List.forall₂_map_right_iff.mpr (List.forall₂_same.mpr fun k _ => distanceFits_mul htol k)
  have hsum : s.cursample.toNat + (shape.map (· * s.halfbit.toNat)).sum = last := by
    rw [List.sum_map_mul_right, List.map_id']
  have hsample : (BitVec.ofNat 64 (last + 2 * s.halfbit.toNat)).toNat = last + 2 * s.halfbit.toNat := by
    rw [BitVec.toNat_ofNat, Nat.mod_eq_of_lt (by omega)]
  rw [edgesOf_eq_map]
  refine jitteredPacketDecodesToItsBytes s bytes _ (BitVec.ofNat 64 (last + 2 * s.halfbit.toNat)) _ hrun hlegal hphase hcount hempty
    hhorizon hbytes hfits (.inl ⟨rfl, ?_⟩) (by rwa [hsample])
  rw [hsample, hsum]

end Sys2Proof.Machine
end
